-- ==== Sys2Proof/Word.lean ====
section
/-! DEFINITION. The word types of the RCPU (spec/00_scope.md R4, R5, R7). -/

namespace Sys2Proof

/-- The smallest addressable unit of memory, 8 bits (R51, R59). -/
abbrev Byte := BitVec 8

/-- A 32-bit word: an address (R4), a general register (R20), an instruction word (R100). -/
abbrev Word := BitVec 32

/-- A 64-bit double word: the contents of a floating-point register (R22). -/
abbrev Double := BitVec 64

/-- A 5-bit register field: it names one of 32 general or floating-point registers (R20, R22). -/
abbrev Reg := BitVec 5

end Sys2Proof
end

