-- ==== Sys2Proof/Config.lean ====
section
/-! DEFINITION. What an implementation fixes and the spec leaves open, and the free values.
Every constant here is opaque: no proof can learn what it is. -/

namespace Sys2Proof

/-- The parameter `be_misaligned(instruction, EA, n)` of R65 (92_eei_decisions.md D5, 93 U3): whether big-endian
mode handles the misaligned access of `n` bytes at `ea` by the instruction whose word is `w` (true), or takes the
alignment exception (false). The spec affirms both outcomes and does not say where the line is. -/
opaque Config.beMisaligned (w : Word) (ea : Word) (n : Nat) : Bool

/-- The "bits describing the instruction" that an alignment exception records in DSISR (R280), a function of the
instruction word; the spec does not say which bits. -/
opaque Config.dsisr (w : Word) : Word

/-- `draw(32 bits)` of R9: the `k`-th free word (93 U6: what `stfs` stores for a value that is not a single). -/
opaque Config.drawWord (k : Nat) : Word

/-- `draw(64 bits)` of R9: the `k`-th free double word (R217, 93 U1). -/
opaque Config.drawDouble (k : Nat) : Double

/-- The free values of the FPSCR status bits that the source does not define (93 Part 2), as one word laid out as
R31 says. -/
opaque Config.drawStatus (k : Nat) : Word

/-- The free value of a condition register field (R217). -/
opaque Config.drawField (k : Nat) : BitVec 4

end Sys2Proof
end

