-- ==== Sys2Proof/Syntax.lean ====
section
/-! DEFINITION. The 18 instructions of spec/opcode_table.json, one constructor each (R103, R109).
Fields are those of R107 and R108; register numbers are the 5-bit fields themselves. -/

namespace Sys2Proof

/-- One constructor per row of the opcode table. -/
inductive Instr where
  /-- `cmplwi crfD, rA, UIMM` (R158). -/
  | cmplwi (crfD : BitVec 3) (rA : Reg) (uimm : BitVec 16)
  /-- `subi rD, rA, value`, that is `addi rD, rA, SIMM` with SIMM = -value (R160). -/
  | subi (rD rA : Reg) (simm : BitVec 16)
  /-- `beq crN, target`, that is `bc 12, 4N+2, target` (R106, R152); `bd` is the BD field. -/
  | beq (crf : BitVec 3) (bd : BitVec 14)
  /-- `b target` (R151); `li` is the LI field. -/
  | b (li : BitVec 24)
  /-- `lwzux rD, rA, rB` (R122). -/
  | lwzux (rD rA rB : Reg)
  /-- `add rD, rA, rB` and `add. rD, rA, rB` (R159); `rc` is the record bit. -/
  | add (rD rA rB : Reg) (rc : Bool)
  /-- `lscbx rD, rA, rB`, with its record bit (R134). -/
  | lscbx (rD rA rB : Reg) (rc : Bool)
  /-- `mtspr SPR, rS` (R162); `spr` is the SPR number, its halves already put in order (R108). -/
  | mtspr (spr : BitVec 10) (rS : Reg)
  /-- `lswx rD, rA, rB` (R131). -/
  | lswx (rD rA rB : Reg)
  /-- `lswi rD, rA, NB` (R130). -/
  | lswi (rD rA : Reg) (nb : BitVec 5)
  /-- `stswx rS, rA, rB` (R133). -/
  | stswx (rS rA rB : Reg)
  /-- `stswi rS, rA, NB` (R132). -/
  | stswi (rS rA : Reg) (nb : BitVec 5)
  /-- `stw rS, d(rA)` (R123). -/
  | stw (rS rA : Reg) (d : BitVec 16)
  /-- `lmw rD, d(rA)` (R126). -/
  | lmw (rD rA : Reg) (d : BitVec 16)
  /-- `stmw rS, d(rA)` (R127). -/
  | stmw (rS rA : Reg) (d : BitVec 16)
  /-- `lfs frD, d(rA)` (R210). -/
  | lfs (frD rA : Reg) (d : BitVec 16)
  /-- `stfs frS, d(rA)` (R211). -/
  | stfs (frS rA : Reg) (d : BitVec 16)
  /-- `frsp frD, frB` and `frsp. frD, frB` (R212, the source's `frspx`). -/
  | frsp (frD frB : Reg) (rc : Bool)
  deriving DecidableEq, Repr

end Sys2Proof
end

