-- ==== Sys2Proof/Machine/State.lean ====
section
/-! DEFINITION. The machine's state as plain data, the reasons a step can stop, and the state after reset
(spec/10_state.md R20 to R35, spec/70_reset_and_hazards.md R300 to R303). -/

namespace Sys2Proof.Machine

/-- The exceptions an instruction can raise (R280, R286, R162). -/
inductive Exc where
  /-- The alignment exception, with the effective address the instruction computed, unmodified (R280, D11). -/
  | alignment (ea : Word)
  /-- The privileged-instruction program exception (R162). -/
  | privileged
  /-- The floating-point assist exception (R286). -/
  | floatAssist
  deriving DecidableEq, Repr

/-- A stop that R9's `raise` or an impossible state gives. -/
inductive Fault where
  /-- The fetch raises it when the instruction address is not a multiple of four, a state R24 and R56 say does not
  exist. Safe: the machine stops, and no instruction makes such an address. -/
  | unalignedPc (pc : Word)
  /-- `State.raise` raises it where the launch says that an exception ends the run (R12, R289, D11): the exception, with
  its information, in the instruction whose word is `w`. Safe: the machine stops. -/
  | raised (w : Word) (e : Exc)
  deriving DecidableEq, Repr

/-- The cases to which the spec gives no meaning (`refuse` of R9). -/
inductive Refusal where
  /-- `exec` raises it for an instruction that has no meaning yet. Safe. -/
  | notModelled (mnemonic : String)
  /-- The step raises it for a word that matches no row of the opcode table (R110, D23). Safe. -/
  | notInTable (w : Word)
  /-- `lwzux`, `lmw`, `stmw`, `lswi`, `lswx` and `lscbx` raise it for a form the spec calls invalid (R122, R126, R127, R130,
  R131). Safe. -/
  | invalidForm (w : Word)
  /-- A memory access raises it when its operand would run past the last address (R91, D6). Safe. -/
  | operandPastEnd (ea : Word) (n : Nat)
  /-- A memory access or a fetch raises it for a physical byte outside the launch parameter `mem_region` (D7). Safe. -/
  | outsideMemRegion (a : Word)
  /-- The fetch raises it for a word one of whose bytes a store has written (R85, R312, D9). Safe. -/
  | fetchOfStoredByte (pc : Word)
  /-- An instruction at the last word address that is no taken branch, or a branch with link, raises it: `pc + 4` does not
  exist (R24, D17).
  Safe. -/
  | pcPastEnd (pc : Word)
  /-- `lscbx` raises it in big-endian mode where the launch parameter says the processor does not have it (R134,
  D26). Safe. -/
  | lscbxAbsent
  /-- `moveToMsr` raises it for a write that would change MSR.LE, where the launch fixes the byte order for the run (R90,
  R313, D10). Safe. -/
  | littleEndianChange (msr : Word)
  /-- The classes of FPSCR access raise it with MSR.FP = 0, for which R294 names no exception. Safe. -/
  | fpscrUnavailable
  deriving DecidableEq, Repr

/-- What an operation on memory answers: a result, `raise`, or `refuse` (R9). -/
inductive Access (α : Type) where
  | ok (v : α)
  | raise (e : Exc)
  | refuse (r : Refusal)
  deriving Repr

/-- What the fetch of an instruction answers. -/
inductive Fetched where
  | word (w : Word)
  | fault (f : Fault)
  | refuse (r : Refusal)
  deriving DecidableEq, Repr

/-- The FPSCR as named fields (R29, R31; 91 N17 asks for separate fields). Their positions are in `Fpscr.toWord`. -/
structure Fpscr where
  /-- Exception summary. -/
  fx : Bool
  /-- Enabled exception summary. -/
  fex : Bool
  /-- Invalid operation summary. -/
  vx : Bool
  /-- Overflow. -/
  ox : Bool
  /-- Underflow. -/
  ux : Bool
  /-- Zero divide. -/
  zx : Bool
  /-- Inexact, sticky (R29, R272). -/
  xx : Bool
  vxsnan : Bool
  vxisi : Bool
  vxidi : Bool
  vxzdz : Bool
  vximz : Bool
  vxvc : Bool
  /-- The fraction was incremented (R232). -/
  fr : Bool
  /-- Rounding occurred (R232). -/
  fi : Bool
  /-- Result class, five bits. -/
  fprf : BitVec 5
  /-- Bit 20 of the manual's numbering, reserved. -/
  reserved : Bool
  vxsoft : Bool
  vxsqrt : Bool
  vxcvi : Bool
  /-- Invalid operation exception enable. -/
  ve : Bool
  /-- Overflow exception enable. -/
  oe : Bool
  /-- Underflow exception enable. -/
  ue : Bool
  /-- Zero divide exception enable. -/
  ze : Bool
  /-- Inexact exception enable. -/
  xe : Bool
  /-- Non-IEEE mode (R270). -/
  ni : Bool
  /-- Rounding control (R30). -/
  rn : BitVec 2
  deriving DecidableEq, Repr

/-- A range of physical addresses that hold plain memory: one part of `mem_region` (R5, D7). -/
structure MemRange where
  base : Nat
  size : Nat
  deriving DecidableEq, Repr

/-- The parameter `fp_envelope` (R5, D12). -/
inductive FpEnvelope where
  /-- The floating-point assist exception is a fault outcome, with no state change, whatever other exceptions do (R286,
  D12). -/
  | fault
  /-- The floating-point assist exception is raised as every other one; its handler is software in memory. -/
  | exception
  /-- The instruction completes in one step with the IEEE result: the handler's contract, as an axiom. -/
  | ieee
  deriving DecidableEq, Repr

/-- What `raise` does (R9, R12, R289). -/
inductive RaiseMode where
  /-- The step ends in a fault that names the exception (R12, D11). -/
  | fault
  /-- The exception is entered as R289 describes. -/
  | entered
  deriving DecidableEq, Repr

/-- The parameters of a model that runs handlers (R289, 91 N12): the vector bases that MSR.IP selects, the offset of each
exception, the special-purpose registers that save the instruction address and the MSR, and the MSR bits that entry
clears. -/
structure TrapTable where
  /-- The vector base with MSR.IP = 0. -/
  baseLow : Word
  /-- The vector base with MSR.IP = 1. -/
  baseHigh : Word
  alignmentOffset : Word
  privilegedOffset : Word
  floatAssistOffset : Word
  /-- The number of the register that saves the instruction address. -/
  saveAddress : BitVec 10
  /-- The number of the register that saves the MSR. -/
  saveMsr : BitVec 10
  /-- The MSR bits that entry clears, beside LE, which becomes ILE. -/
  cleared : Word
  deriving DecidableEq, Repr

/-- The launch parameters of R5 and R303 that are plain data. No step changes them. -/
structure Platform where
  /-- `mem_region`: the physical addresses that hold plain memory (D7). -/
  memRegion : List MemRange
  /-- `fp_envelope` (D12). -/
  fpEnvelope : FpEnvelope
  /-- Whether the processor executes `lscbx` in big-endian mode, which the source does not say (R134, 91 N8). -/
  lscbxPresent : Bool
  /-- What `raise` does (D11). -/
  raises : RaiseMode
  /-- The parameters of exception entry (R289). -/
  traps : TrapTable
  /-- Whether the processor has the user level and the MSR.FP check of R294; false is D18's one level. -/
  privilegeLevels : Bool
  /-- Whether software may change MSR.LE during a run; false is D10 (R90, R301, R313). -/
  leWritable : Bool
  deriving DecidableEq, Repr

/-- Memory: the bytes that are not zero, by strictly rising physical address (R32, R50); each address names one byte of 8
bits, the smallest addressable unit (R59). -/
abbrev Memory := List Host.Cell

/-- Everything the spec gives the machine (10_state.md), three counters and sets of the model's own, and the launch
parameters. -/
structure State where
  /-- The general-purpose registers r0 to r31 (R20). -/
  gpr : Vector Word 32
  /-- The floating-point registers f0 to f31 (R22). -/
  fpr : Vector Double 32
  /-- The instruction address, unmodified (R24, R73). -/
  pc : Word
  /-- The link register (R25). -/
  lr : Word
  /-- The count register, which R152 says `beq` leaves alone. -/
  ctr : Word
  /-- The condition register (R26). -/
  cr : Word
  /-- The fixed-point exception register: SO, the compare byte and the byte count (R131, R134, R158). -/
  xer : Word
  /-- The machine state register (R27). -/
  msr : Word
  /-- The floating-point status and control register (R29, R31). -/
  fpscr : Fpscr
  /-- The instruction address an exception saves (R28, R285). -/
  srr0 : Word
  /-- The MSR an exception saves (R28, R284). -/
  srr1 : Word
  /-- The effective address an alignment exception records (R280). -/
  dar : Word
  /-- What an alignment exception records of its instruction (R280). -/
  dsisr : Word
  /-- Every other special-purpose register an `mtspr` has written, by rising number, zeros left out (R162). -/
  otherSpr : List (Nat × Word)
  /-- Memory (R32). -/
  mem : Memory
  /-- The model's own: the physical bytes that stores have written, by rising address (R85, D9). -/
  stored : List (Nat × Bool)
  /-- The model's own: how many free values have been drawn (R9 `draw`). -/
  draws : Nat
  /-- The launch parameters (R303). -/
  platform : Platform
  deriving DecidableEq, Repr

/-- An FPSCR with every bit clear. -/
def Fpscr.zero : Fpscr :=
  { fx := false, fex := false, vx := false, ox := false, ux := false, zx := false, xx := false, vxsnan := false,
    vxisi := false, vxidi := false, vxzdz := false, vximz := false, vxvc := false, fr := false, fi := false,
    fprf := 0, reserved := false, vxsoft := false, vxsqrt := false, vxcvi := false, ve := false, oe := false,
    ue := false, ze := false, xe := false, ni := false, rn := 0 }

/-- The trap table of the PowerPC family, as far as the spec gives it: the bases, the MSR bits and the registers SRR0 and
SRR1 of R28, R285 and R289, the offset 0x600 of R280 and 0xE00 of R286. The offset 0x700 of the privileged-instruction
program exception and the bit positions EE 16, PR 17, IR 26, DR 27 are PRESUMED, unsafe (notes/assumptions/3, 10). -/
def TrapTable.family : TrapTable :=
  { baseLow := 0, baseHigh := 0xFFF00000, alignmentOffset := 0x600, privilegedOffset := 0x700,
    floatAssistOffset := 0xE00, saveAddress := 26, saveMsr := 27, cleared := 0x0000C030 }

/-- The launch parameters at reset: the whole 32-bit address space is plain memory, exceptions are entered by the
family's table, `lscbx` and the user level are present, MSR.LE is fixed for the run (D10). DESIGN CHOICE, unsafe
(notes/assumptions/4, 6, 7, 8, 16, 18). -/
def Platform.reset : Platform :=
  { memRegion := [{ base := 0, size := 2 ^ 32 }], fpEnvelope := .exception, lscbxPresent := true, raises := .entered,
    traps := TrapTable.family, privilegeLevels := true, leWritable := false }

/-- The machine right after a hard reset (R35, R300). MSR.LE and MSR.ILE are 0 by R300; every other value is the
model's: zero (DESIGN CHOICE, unsafe, notes/assumptions/1) and the instruction address 0x100, the family's reset
vector offset (R302) from the vector base that MSR.IP = 0 selects (PRESUMED, unsafe, notes/assumptions/2). -/
def State.reset : State :=
  { gpr := Vector.replicate 32 0, fpr := Vector.replicate 32 0, pc := 0x100, lr := 0, ctr := 0, cr := 0, xer := 0,
    msr := 0, fpscr := Fpscr.zero, srr0 := 0, srr1 := 0, dar := 0, dsisr := 0, otherSpr := [], mem := [],
    stored := [], draws := 0, platform := Platform.reset }

end Sys2Proof.Machine
end

