-- ==== Sys2Proof/Machine/Flags.lean ====
section
/-! DEFINITION. The fields of the condition register, XER, the MSR and the FPSCR, and every flag computation
(spec/10_state.md R26, R27, R29 to R31; spec/41_branch_and_other_named_instructions.md R158, R159). -/

namespace Sys2Proof.Machine

/-- `v{i}` of R8: bit `i` of a 32-bit value in the manual's numbering, bit 0 the most significant. -/
def manualBit (v : Word) (i : Nat) : Bool := v.getLsbD (31 - i)

/-! ### The condition register (R26) -/

/-- Field CR`k`, that is CR{4k:4k+3}, as four bits LT, GT, EQ, SO from the left. -/
def crField (cr : Word) (k : BitVec 3) : BitVec 4 := cr.extractLsb' (28 - 4 * k.toNat) 4

/-- Writes field CR`k` and no other bit. -/
def crSetField (cr : Word) (k : BitVec 3) (v : BitVec 4) : Word :=
  (cr &&& ~~~((15 : Word) <<< (28 - 4 * k.toNat))) ||| (v.setWidth 32 <<< (28 - 4 * k.toNat))

/-- The equal bit of field CR`k`, CR{4k+2}: what `beq` tests (R106, R152). -/
def crEq (cr : Word) (k : BitVec 3) : Bool := (crField cr k).getLsbD 1

/-- A condition register field from its four bits (R158). -/
def crBits (lt gt eq so : Bool) : BitVec 4 :=
  BitVec.ofBool lt ++ BitVec.ofBool gt ++ BitVec.ofBool eq ++ BitVec.ofBool so

/-- The field an unsigned comparison of `a` with `b` sets (R158). -/
def compareUnsigned (a b : Word) (so : Bool) : BitVec 4 := crBits (a.ult b) (b.ult a) (a == b) so

/-- The field a recording fixed-point instruction sets: the result compared as a signed number with 0 (R159). -/
def compareSignedZero (r : Word) (so : Bool) : BitVec 4 :=
  crBits (r.slt 0) ((0 : Word).slt r) (r == 0) so

/-! ### XER (R131, R134, R158) -/

/-- XER.SO, the summary overflow bit. Its position, bit 0 of the manual's numbering, is PRESUMED (the family's);
unsafe (notes/assumptions/10). -/
def xerSo (xer : Word) : Bool := manualBit xer 0

/-- XER{25:31}, the byte count of the indexed string instructions (R131). -/
def xerCount (xer : Word) : Nat := (xer.extractLsb 6 0).toNat

/-- XER{16:23}, the byte `lscbx` compares with (R134). -/
def xerCompareByte (xer : Word) : Byte := xer.extractLsb 15 8

/-- Writes XER{25:31} and no other bit (R134). -/
def xerSetCount (xer : Word) (n : Nat) : Word := xer.extractLsb 31 7 ++ BitVec.ofNat 7 n

/-! ### The MSR (R27, R289, R294) -/

/-- MSR.LE, bit 31 of the manual's numbering: the byte order the processor runs in (R27). -/
def msrLe (msr : Word) : Bool := manualBit msr 31

/-- MSR.ILE, bit 15: the byte order of exception handlers (R27). -/
def msrIle (msr : Word) : Bool := manualBit msr 15

/-- MSR.PR, 1 at user level (R294). Bit 17, PRESUMED (the family's); unsafe (notes/assumptions/10). -/
def msrPr (msr : Word) : Bool := manualBit msr 17

/-- MSR.IP, which selects the vector base (R289). Bit 25, PRESUMED (the family's); unsafe (notes/assumptions/10). -/
def msrIp (msr : Word) : Bool := manualBit msr 25

/-- MSR.FP, which FPSCR access needs (R294). Bit 18, PRESUMED (the family's); unsafe (notes/assumptions/10). -/
def msrFp (msr : Word) : Bool := manualBit msr 18

/-- The MSR that exception entry leaves: the bits of `cleared` clear and LE a copy of ILE (R284, R289). -/
def msrAtEntry (cleared msr : Word) : Word :=
  (msr &&& ~~~(cleared ||| 1)) ||| (if msrIle msr then 1 else 0)

/-! ### The FPSCR (R29, R30, R31) -/

/-- The four rounding modes (R30). -/
inductive RoundMode where
  | nearest
  | towardZero
  | towardPlus
  | towardMinus
  deriving DecidableEq, Repr

/-- Table 3-7: the encoding of FPSCR.RN (R30, R233). -/
def roundMode (rn : BitVec 2) : RoundMode :=
  if rn = 0 then .nearest else if rn = 1 then .towardZero else if rn = 2 then .towardPlus else .towardMinus

/-- The FPSCR as the 32-bit word of R31, FX the most significant bit. -/
def Fpscr.toWord (f : Fpscr) : Word :=
  BitVec.ofBool f.fx ++ BitVec.ofBool f.fex ++ BitVec.ofBool f.vx ++ BitVec.ofBool f.ox ++ BitVec.ofBool f.ux ++
  BitVec.ofBool f.zx ++ BitVec.ofBool f.xx ++ BitVec.ofBool f.vxsnan ++ BitVec.ofBool f.vxisi ++
  BitVec.ofBool f.vxidi ++ BitVec.ofBool f.vxzdz ++ BitVec.ofBool f.vximz ++ BitVec.ofBool f.vxvc ++
  BitVec.ofBool f.fr ++ BitVec.ofBool f.fi ++ f.fprf ++ BitVec.ofBool f.reserved ++ BitVec.ofBool f.vxsoft ++
  BitVec.ofBool f.vxsqrt ++ BitVec.ofBool f.vxcvi ++ BitVec.ofBool f.ve ++ BitVec.ofBool f.oe ++
  BitVec.ofBool f.ue ++ BitVec.ofBool f.ze ++ BitVec.ofBool f.xe ++ BitVec.ofBool f.ni ++ f.rn

/-- The FPSCR whose 32-bit word is `w` (R31). -/
def Fpscr.ofWord (w : Word) : Fpscr :=
  { fx := manualBit w 0, fex := manualBit w 1, vx := manualBit w 2, ox := manualBit w 3, ux := manualBit w 4,
    zx := manualBit w 5, xx := manualBit w 6, vxsnan := manualBit w 7, vxisi := manualBit w 8,
    vxidi := manualBit w 9, vxzdz := manualBit w 10, vximz := manualBit w 11, vxvc := manualBit w 12,
    fr := manualBit w 13, fi := manualBit w 14, fprf := w.extractLsb 16 12, reserved := manualBit w 20,
    vxsoft := manualBit w 21, vxsqrt := manualBit w 22, vxcvi := manualBit w 23, ve := manualBit w 24,
    oe := manualBit w 25, ue := manualBit w 26, ze := manualBit w 27, xe := manualBit w 28, ni := manualBit w 29,
    rn := w.extractLsb 1 0 }

/-- FPSCR{0:3}: what a recording floating-point instruction copies into CR1 (R26, R212). -/
def Fpscr.summary (f : Fpscr) : BitVec 4 :=
  BitVec.ofBool f.fx ++ BitVec.ofBool f.fex ++ BitVec.ofBool f.vx ++ BitVec.ofBool f.ox

/-- Every FPSCR exception enable bit is clear (R31, R273). -/
def Fpscr.allDisabled (f : Fpscr) : Bool := !f.ve && !f.oe && !f.ue && !f.ze && !f.xe

/-- The status bits that a floating-point instruction writes and the source does not define, taken from the free
word `w` (93 Part 2): all of them but FR, FI and XX. The enable bits, NI, RN and the reserved bit stay. -/
def Fpscr.withFreeStatus (f : Fpscr) (w : Word) : Fpscr :=
  { Fpscr.ofWord w with
    xx := f.xx, fr := f.fr, fi := f.fi, reserved := f.reserved, ve := f.ve, oe := f.oe, ue := f.ue, ze := f.ze,
    xe := f.xe, ni := f.ni, rn := f.rn }

/-- FR and FI of an instruction that rounds, and XX, sticky, when its result is inexact (R29, R232). -/
def Fpscr.withRounding (f : Fpscr) (fr fi inexact : Bool) : Fpscr :=
  { f with fr := fr, fi := fi, xx := f.xx || inexact }

end Sys2Proof.Machine
end

