-- ==== Sys2Proof/Machine/Sparse.lean ====
section
/-! DEFINITION. Sparse data by number, in one canonical form: numbers strictly rising, no entry equal to what an
unlisted number reads as. Memory, the set of stored bytes and the unnamed special registers are kept so. -/

namespace Sys2Proof.Machine

/-- What number `k` reads as; `z` is what an unlisted number reads as. -/
def sparseGet {α : Type} (z : α) : List (Nat × α) → Nat → α
  | [], _ => z
  | c :: rest, k => if c.1 = k then c.2 else sparseGet z rest k

/-- Writes `v` at number `k`, keeping the canonical form. -/
def sparseSet {α : Type} [DecidableEq α] (z : α) : List (Nat × α) → Nat → α → List (Nat × α)
  | [], k, v => if v = z then [] else [(k, v)]
  | c :: rest, k, v =>
    if k < c.1 then (if v = z then c :: rest else (k, v) :: c :: rest)
    else if k = c.1 then (if v = z then rest else (k, v) :: rest)
    else c :: sparseSet z rest k v

/-- The canonical form, above a bound: every number is at least `low`, numbers strictly rise, no entry is `z`. -/
def sparseWfFrom {α : Type} [DecidableEq α] (z : α) : Nat → List (Nat × α) → Bool
  | _, [] => true
  | low, c :: rest => decide (low ≤ c.1) && decide (c.2 ≠ z) && sparseWfFrom z (c.1 + 1) rest

/-- The canonical form. -/
def sparseWf {α : Type} [DecidableEq α] (z : α) (l : List (Nat × α)) : Bool := sparseWfFrom z 0 l

/-- What a byte of memory that nothing has written reads as: zero. DESIGN CHOICE, unsafe (notes/assumptions/5). -/
def unwrittenByte : Byte := 0

/-- `PhysRead` of R50 on the memory alone: the byte at physical address `a`. -/
def memoryRead (m : Memory) (a : Nat) : Byte := sparseGet unwrittenByte m a

/-- `PhysWrite` of R50 on the memory alone. -/
def memoryWrite (m : Memory) (a : Nat) (v : Byte) : Memory := sparseSet unwrittenByte m a v

/-- The canonical form of memory: addresses strictly rising, no zero byte listed. -/
def Memory.wf (m : Memory) : Bool := sparseWf unwrittenByte m

end Sys2Proof.Machine
end

