-- ==== Sys2Proof/Machine/Ops.lean ====
section
/-! DEFINITION. The named operations over registers and memory, the fetch, the advance of the instruction address,
taking an exception and returning from one (spec/20_memory.md, spec/60_exceptions.md, spec/10_state.md R24). -/

namespace Sys2Proof.Machine

/-! ### Registers -/

/-- `x[r]` (R20): no general register is hardwired. -/
def State.readGpr (s : State) (r : Reg) : Word := s.gpr[r.toNat]'r.isLt

/-- `x[r] <- v` (R20). -/
def State.writeGpr (s : State) (r : Reg) (v : Word) : State := { s with gpr := s.gpr.set r.toNat v r.isLt }

/-- `f[r]` (R22). -/
def State.readFpr (s : State) (r : Reg) : Double := s.fpr[r.toNat]'r.isLt

/-- `f[r] <- v` (R22). -/
def State.writeFpr (s : State) (r : Reg) (v : Double) : State := { s with fpr := s.fpr.set r.toNat v r.isLt }

/-- Writes one field of the condition register (R26). -/
def State.writeCrField (s : State) (k : BitVec 3) (v : BitVec 4) : State := { s with cr := crSetField s.cr k v }

/-- MSR.LE = 1: little-endian mode (R27, R58). -/
def State.littleEndian (s : State) : Bool := msrLe s.msr

/-- SPR numbers. SRR0 and SRR1 are R28's; the others are PRESUMED (the family's), unsafe (notes/assumptions/9). -/
def sprXer : BitVec 10 := 1
def sprLr : BitVec 10 := 8
def sprCtr : BitVec 10 := 9
def sprDsisr : BitVec 10 := 18
def sprDar : BitVec 10 := 19
def sprSrr0 : BitVec 10 := 26
def sprSrr1 : BitVec 10 := 27

/-- `SPR(n)` (R162): the named register of that number, or the unnamed one. -/
def State.readSpr (s : State) (n : BitVec 10) : Word :=
  if n = sprXer then s.xer
  else if n = sprLr then s.lr
  else if n = sprCtr then s.ctr
  else if n = sprDsisr then s.dsisr
  else if n = sprDar then s.dar
  else if n = sprSrr0 then s.srr0
  else if n = sprSrr1 then s.srr1
  else sparseGet 0 s.otherSpr n.toNat

/-- `SPR(n) <- v` (R162). -/
def State.writeSpr (s : State) (n : BitVec 10) (v : Word) : State :=
  if n = sprXer then { s with xer := v }
  else if n = sprLr then { s with lr := v }
  else if n = sprCtr then { s with ctr := v }
  else if n = sprDsisr then { s with dsisr := v }
  else if n = sprDar then { s with dar := v }
  else if n = sprSrr0 then { s with srr0 := v }
  else if n = sprSrr1 then { s with srr1 := v }
  else { s with otherSpr := sparseSet 0 s.otherSpr n.toNat v }

/-- The SPR is supervisor-level (R162): bit 4 of its number is set. PRESUMED (the family's numbering), unsafe
(notes/assumptions/9). -/
def sprSupervisor (n : BitVec 10) : Bool := n.getLsbD 4

/-! ### Physical memory (R50, R57) -/

/-- `PhysRead(a)` (R50). -/
def State.physRead (s : State) (a : Nat) : Byte := memoryRead s.mem a

/-- `PhysWrite(a, v)` (R50); the byte is from now on one that a store has written (D9). -/
def State.physWrite (s : State) (a : Nat) (v : Byte) : State :=
  { s with mem := memoryWrite s.mem a v, stored := sparseSet false s.stored a true }

/-- `PhysRead(a) ‖ PhysRead(a+1) ‖ …`, `n` bytes from physical address `a` on. -/
def State.physBytes (s : State) (a : Nat) : Nat → List Byte
  | 0 => []
  | n + 1 => s.physRead a :: s.physBytes (a + 1) n

/-- `PhysWrite` of each byte of a list, the first at `a`. -/
def State.physWriteBytes (s : State) (a : Nat) : List Byte → State
  | [] => s
  | v :: rest => (s.physWrite a v).physWriteBytes (a + 1) rest

/-- The unsigned integer of a sequence of bytes, the first the most significant (R57, big-endian). -/
def bytesValue : List Byte → Nat
  | [] => 0
  | v :: rest => v.toNat * 256 ^ rest.length + bytesValue rest

/-- The `n` low-order bytes of a value, the most significant first (R57, R67). A byte is one number: no order of the bits
inside it is fixed (R59). -/
def valueBytes {m : Nat} : (n : Nat) → BitVec m → List Byte
  | 0, _ => []
  | n + 1, v => v.extractLsb' (8 * n) 8 :: valueBytes n v

/-- Physical address `a` holds plain memory: it is in `mem_region` (D7). -/
def Platform.mapped (p : Platform) (a : Nat) : Bool :=
  p.memRegion.any fun r => decide (r.base ≤ a) && decide (a < r.base + r.size)

/-- Every one of `n` bytes from `a` on is in `mem_region`. -/
def Platform.mappedRange (p : Platform) (a : Nat) : Nat → Bool
  | 0 => true
  | n + 1 => p.mapped a && p.mappedRange (a + 1) n

/-- A store has written one of the `n` bytes from `a` on (D9). -/
def State.storedInRange (s : State) (a : Nat) : Nat → Bool
  | 0 => false
  | n + 1 => sparseGet false s.stored a || s.storedInRange (a + 1) n

/-! ### Data accesses (R60 to R67) -/

/-- `munge(EA, n)`: Table 3-2, the little-endian modification of an address for an access of `n` bytes (R60). -/
def munge (ea : Word) (n : Nat) : Word := ea ^^^ BitVec.ofNat 32 (8 - n)

/-- `aligned(EA, n)` (R53). -/
def aligned (ea : Word) (n : Nat) : Bool := ea.toNat % n == 0

/-- The physical address of an `n`-byte access at `ea`: modified in little-endian mode only (R60). -/
def State.physicalAddress (s : State) (ea : Word) (n : Nat) : Word := if s.littleEndian then munge ea n else ea

/-- An `n`-byte access at `ea` by the instruction whose word is `w` takes the alignment exception: it is misaligned, and
the mode is little-endian (R63) or big-endian mode does not handle the access (R65). -/
def State.accessRaises (s : State) (w ea : Word) (n : Nat) : Bool :=
  !aligned ea n && (s.littleEndian || !Config.beMisaligned w ea n)

/-- The physical address of an access, with the raise and refuse cases of R66 in its order: alignment, the end of the
address space (R91), `mem_region` (D7, D27). -/
def State.dataAddress (s : State) (w ea : Word) (n : Nat) : Access Word :=
  if s.accessRaises w ea n then .raise (.alignment ea)
  else if (s.physicalAddress ea n).toNat + n > 2 ^ 32 then .refuse (.operandPastEnd ea n)
  else if s.platform.mappedRange (s.physicalAddress ea n).toNat n then .ok (s.physicalAddress ea n)
  else .refuse (.outsideMemRegion (s.physicalAddress ea n))

/-- `MemRead(EA, n)` (R66). -/
def State.memRead (s : State) (w ea : Word) (n : Nat) : Access (BitVec (8 * n)) :=
  match s.dataAddress w ea n with
  | .ok a => .ok (BitVec.ofNat (8 * n) (bytesValue (s.physBytes a.toNat n)))
  | .raise e => .raise e
  | .refuse r => .refuse r

/-- `MemWrite(EA, n, v)`: the `n` low-order bytes of `v`, the most significant at the physical address (R67). A scalar
takes `n` consecutive byte addresses, a 32-bit one four (R59). -/
def State.memWrite {m : Nat} (s : State) (w ea : Word) (n : Nat) (v : BitVec m) : Access State :=
  match s.dataAddress w ea n with
  | .ok a => .ok (s.physWriteBytes a.toNat (valueBytes n v))
  | .raise e => .raise e
  | .refuse r => .refuse r

/-- The physical address of the byte a program reads at little-endian address `b` (R62): what a handler that emulates
a string access uses for each byte (R135), and a host or device for each byte of a stream (R74). -/
def littleEndianByte (b : Word) : Word := b ^^^ 7

/-- The physical address of the `k`-th word of a multiple that a handler emulates in little-endian mode (R128). -/
def emulatedMultipleWord (ea : Word) (k : Nat) : Word := munge (ea + BitVec.ofNat 32 (4 * k)) 4

/-- What the PowerPC architecture defines for a scalar at any little-endian address: its byte of significance `k`
(0 the lowest) at physical `(EA + k) xor 7` (R64). No access of the RCPU performs it when it is misaligned (R63). -/
def architectedByteAddress (ea : Word) (k : Nat) : Word := littleEndianByte (ea + BitVec.ofNat 32 k)

/-! ### Instruction fetch and sequencing (R24, R70, R71) -/

/-- The physical address of the instruction word at instruction address `a` (R71). -/
def State.fetchAddress (s : State) (a : Word) : Word := if s.littleEndian then a ^^^ 4 else a

/-- `Fetch(pc)` (R71), which refuses a word that lies outside `mem_region` (D7) or that a store has written (R85). -/
def State.fetch (s : State) : Fetched :=
  let a := s.fetchAddress s.pc
  if !aligned s.pc 4 then .fault (.unalignedPc s.pc)
  else if !s.platform.mappedRange a.toNat 4 then .refuse (.outsideMemRegion a)
  else if s.storedInRange a.toNat 4 then .refuse (.fetchOfStoredByte s.pc)
  else .word (BitVec.ofNat 32 (bytesValue (s.physBytes a.toNat 4)))

/-- `pc <- a` (R9). -/
def State.withPc (s : State) (a : Word) : State := { s with pc := a }

/-- The end of an instruction that is no taken branch: `pc <- pc + 4`, which does not wrap (R24, D17). -/
def State.advance (s : State) : Host.Outcome State Fault Refusal :=
  if s.pc = 0xFFFFFFFC then .refused (.pcPastEnd s.pc) else .next (s.withPc (s.pc + 4))

/-! ### Exceptions (R280 to R290) -/

/-- The vector base that MSR.IP selects (R289). -/
def TrapTable.base (t : TrapTable) (msr : Word) : Word := if msrIp msr then t.baseHigh else t.baseLow

/-- The vector offset of an exception (R280, R286, R289). An enabled IEEE exception enters the floating-point assist
vector too, which R286 leaves open: DESIGN CHOICE, unsafe (notes/assumptions/44). -/
def TrapTable.offset (t : TrapTable) : Exc → Word
  | .alignment _ => t.alignmentOffset
  | .privileged => t.privilegedOffset
  | .floatAssist => t.floatAssistOffset

/-- Exception entry (R284, R285, R289): the unmodified address of the instruction and the MSR go to the save registers,
the MSR changes, LE a copy of ILE, and the instruction address is the vector, its two low bits 0 (R24). An exception in
a handler enters again and saves over what the first one saved: nesting is not in the spec (R290), DESIGN CHOICE, unsafe
(notes/assumptions/45). -/
def State.enterException (s : State) (offset : Word) : State :=
  { (s.writeSpr s.platform.traps.saveAddress s.pc).writeSpr s.platform.traps.saveMsr s.msr with
    msr := msrAtEntry s.platform.traps.cleared s.msr
    pc := (s.platform.traps.base s.msr + offset) &&& ~~~3 }

/-- What an alignment exception records: the effective address in DAR and bits describing the instruction in DSISR
(R280). -/
def State.recordAlignment (s : State) (w : Word) : Exc → State
  | .alignment ea => { s with dar := ea, dsisr := Config.dsisr w }
  | _ => s

/-- Taking an exception in the instruction whose word is `w`: `s` is the state before the instruction, which has no
other effect (R9 `raise`, R281). -/
def State.takeException (s : State) (w : Word) (e : Exc) : State :=
  (s.recordAlignment w e).enterException (s.platform.traps.offset e)

/-- The launch says that this exception ends the run (D11, D12). -/
def Platform.stopsAt (p : Platform) (e : Exc) : Bool :=
  p.raises == .fault || (e == .floatAssist && p.fpEnvelope == .fault)

/-- `raise` of R9: the exception is taken, or, where the launch says so, it is the fault outcome of R12 and D11. -/
def State.raise (s : State) (w : Word) (e : Exc) : Host.Outcome State Fault Refusal :=
  if s.platform.stopsAt e then .fault (.raised w e) else .next (s.takeException w e)

/-- Return from an exception, what `rfi` does (R290): the MSR from the register that saved it, and so LE, and the
instruction address from the register that saved it, its two low bits 0 (R24). -/
def State.returnFromException (s : State) : State :=
  { s with
    msr := s.readSpr s.platform.traps.saveMsr
    pc := s.readSpr s.platform.traps.saveAddress &&& ~~~3 }

/-- Ends an instruction whose operation on `s` answered `a`: the result's state advances; an exception is raised in
`s`; a refusal stops. `w` is the instruction's word. -/
def State.finish (s : State) (w : Word) : Access State → Host.Outcome State Fault Refusal
  | .ok t => t.advance
  | .raise e => s.raise w e
  | .refuse r => .refused r

end Sys2Proof.Machine
end

