-- ==== Sys2Proof/Machine/Operands.lean ====
section
/-! DEFINITION. Immediates, effective addresses and branch targets of every operand form (spec/30_encoding.md R108). -/

namespace Sys2Proof.Machine

/-- A base register field: 0 means the value 0, not `x[0]` (R20, R108). -/
def State.baseOrZero (s : State) (rA : Reg) : Word := if rA = 0 then 0 else s.readGpr rA

/-- `sext_32` of a 16-bit d or SIMM field (R108). -/
def signedImm (d : BitVec 16) : Word := d.signExtend 32

/-- `zext_32` of a UIMM field (R108). -/
def unsignedImm (d : BitVec 16) : Word := d.setWidth 32

/-- The effective address `d(rA)` (R123, R126, R210). -/
def State.eaDisp (s : State) (rA : Reg) (d : BitVec 16) : Word := s.baseOrZero rA + signedImm d

/-- The effective address of an indexed form that is no update form (R131). -/
def State.eaIndexed (s : State) (rA rB : Reg) : Word := s.baseOrZero rA + s.readGpr rB

/-- The effective address of an update indexed form, whose rA is not 0 (R122). -/
def State.eaUpdateIndexed (s : State) (rA rB : Reg) : Word := s.readGpr rA + s.readGpr rB

/-- The I-form displacement `sext_32(LI ‖ 0b00)` (R108, R151). -/
def branchDispI (li : BitVec 24) : Word := (li ++ 0#2).signExtend 32

/-- The B-form displacement `sext_32(BD ‖ 0b00)` (R108, R152). -/
def branchDispB (bd : BitVec 14) : Word := (bd ++ 0#2).signExtend 32

/-- A relative branch: `a + D`, the addresses unmodified in both byte orders (R73, R150). -/
def State.branchRelative (s : State) (disp : Word) : State := s.withPc (s.pc + disp)

/-- An absolute branch: its target field, unmodified (R73, R154). -/
def State.branchAbsolute (s : State) (target : Word) : State := s.withPc target

/-- The link part of a branch and link, the class of R153: the unmodified address of the next instruction goes to the
link register. -/
def State.linkNext (s : State) : State := { s with lr := s.pc + 4 }

/-! ### The BO and BI fields of a conditional branch (R107, R152)

BO = 0b01100 (branch if the bit that BI names is one, the count register alone) is R152's. Every other value of BO is
PRESUMED (the family's), unsafe (notes/assumptions/51). -/

/-- The test of the condition register: BO{0} leaves it out, else bit BI has the value BO{1} (R152). -/
def branchConditionHolds (bo bi : BitVec 5) (cr : Word) : Bool :=
  bo.getLsbD 4 || manualBit cr bi.toNat == bo.getLsbD 3

/-- The count register counts down by one, but where BO{2} is one, "do not touch the count register" (R152). -/
def State.countDown (s : State) (bo : BitVec 5) : State :=
  if bo.getLsbD 2 then s else { s with ctr := s.ctr - 1 }

/-- The test of the counted-down count register: BO{2} leaves it out, else it is zero exactly if BO{3} is one. -/
def branchCountHolds (bo : BitVec 5) (ctr : Word) : Bool :=
  bo.getLsbD 2 || (ctr == 0) == bo.getLsbD 1

end Sys2Proof.Machine
end

