-- ==== Sys2Proof/Machine/Branch.lean ====
section
/-! DEFINITION. The branches, and the classes of branches without a row
(spec/41_branch_and_other_named_instructions.md R150 to R154). -/

namespace Sys2Proof.Machine

/-- `b target` (R151): a relative branch, its target modulo 2^32. -/
def execB (li : BitVec 24) (s : State) : Host.Outcome State Fault Refusal :=
  .next (s.branchRelative (branchDispI li))

/-- `beq crN, target` (R106, R152): a relative branch if CR{4N+2} is one. -/
def execBeq (crf : BitVec 3) (bd : BitVec 14) (s : State) : Host.Outcome State Fault Refusal :=
  if crEq s.cr crf then .next (s.branchRelative (branchDispB bd)) else s.advance

/-! ### Branches with link, and the branches that BO and BI condition (R153, R154)

The opcode table has no row for them (notes/assumptions/18, 51). -/

/-- How every branch of these classes ends: with link, `LR <- a + 4`, whether or not the branch is taken; then the
instruction address is the target, or the next address (R153). Where `a + 4` is needed and does not exist, it is refused
(R24). -/
def State.endBranch (s : State) (link taken : Bool) (target : Word) : Host.Outcome State Fault Refusal :=
  if s.pc = 0xFFFFFFFC && (link || !taken) then .refused (.pcPastEnd s.pc)
  else .next ((if link then s.linkNext else s).withPc (if taken then target else s.pc + 4))

/-- The class of relative branches with link, `bl` (R150, R153). -/
def branchLinkRelative (disp : Word) (s : State) : Host.Outcome State Fault Refusal :=
  s.endBranch true true (s.pc + disp)

/-- The class of absolute branches with link, `bla` (R153, R154). -/
def branchLinkAbsolute (target : Word) (s : State) : Host.Outcome State Fault Refusal :=
  s.endBranch true true target

/-- The relative branch that BO and BI condition: `bc`, and with link `bcl` (R150, R152, R153). -/
def branchConditionalRelative (link : Bool) (bo bi : BitVec 5) (disp : Word) (s : State) :
    Host.Outcome State Fault Refusal :=
  (s.countDown bo).endBranch link (branchConditionHolds bo bi s.cr && branchCountHolds bo (s.countDown bo).ctr)
    (s.pc + disp)

/-- The absolute branch that BO and BI condition: `bca`, and with link `bcla` (R153, R154). -/
def branchConditionalAbsolute (link : Bool) (bo bi : BitVec 5) (target : Word) (s : State) :
    Host.Outcome State Fault Refusal :=
  (s.countDown bo).endBranch link (branchConditionHolds bo bi s.cr && branchCountHolds bo (s.countDown bo).ctr) target

/-- The branch to the link register, the return to a saved address, and its form with link (R153): the address is
the one the register held before the link, its two low bits 0 (R24). -/
def branchToLinkRegister (link : Bool) (bo bi : BitVec 5) (s : State) : Host.Outcome State Fault Refusal :=
  (s.countDown bo).endBranch link (branchConditionHolds bo bi s.cr && branchCountHolds bo (s.countDown bo).ctr)
    (s.lr &&& ~~~3)

/-- The branch to the count register, and its form with link (R153): it neither counts down nor tests the count.
PRESUMED (the family's), unsafe (notes/assumptions/51). -/
def branchToCountRegister (link : Bool) (bo bi : BitVec 5) (s : State) : Host.Outcome State Fault Refusal :=
  s.endBranch link (branchConditionHolds bo bi s.cr) (s.ctr &&& ~~~3)

end Sys2Proof.Machine
end

