-- ==== Sys2Proof/Machine/Fixed.lean ====
section
/-! DEFINITION. The fixed-point instructions (spec/41_branch_and_other_named_instructions.md R158 to R160). -/

namespace Sys2Proof.Machine

/-- `cmplwi crfD, rA, UIMM` (R158): an unsigned comparison into one condition register field. -/
def execCmplwi (crfD : BitVec 3) (rA : Reg) (uimm : BitVec 16) (s : State) : Host.Outcome State Fault Refusal :=
  (s.writeCrField crfD (compareUnsigned (s.readGpr rA) (unsignedImm uimm) (xerSo s.xer))).advance

/-- `subi rD, rA, value`, that is `addi rD, rA, SIMM` (R160): rA = 0 means the value 0. -/
def execSubi (rD rA : Reg) (simm : BitVec 16) (s : State) : Host.Outcome State Fault Refusal :=
  (s.writeGpr rD (s.baseOrZero rA + signedImm simm)).advance

/-- `add rD, rA, rB` (R159); with the record bit CR0 is the signed comparison of the result with 0. -/
def execAdd (rD rA rB : Reg) (rc : Bool) (s : State) : Host.Outcome State Fault Refusal :=
  let r := s.readGpr rA + s.readGpr rB
  let t := s.writeGpr rD r
  (if rc then t.writeCrField 0 (compareSignedZero r (xerSo s.xer)) else t).advance

end Sys2Proof.Machine
end

