-- ==== Sys2Proof/Decode.lean ====
section
/-! DEFINITION. The decoder, total on words and on bytes, and the encoder
(spec/30_encoding.md R100, R101, R107, R108, R109, R110; spec/opcode_table.json). -/

namespace Sys2Proof

/-- One row of the opcode table: a word `w` is the row's instruction when `w and mask = pattern` (R109). -/
structure Row where
  mnemonic : String
  mask : Word
  pattern : Word

/-- `w[hi:lo]` of R9: bits hi down to lo, bit 0 the least significant. -/
def bits (w : Word) (hi lo : Nat) : BitVec (hi - lo + 1) := w.extractLsb hi lo

/-- `w` matches the row (R109). -/
def Row.selects (r : Row) (w : Word) : Bool := w &&& r.mask == r.pattern

/-- The rD, rS, frD or frS field (R107). -/
def fieldD (w : Word) : Reg := bits w 25 21
/-- The rA field (R107). -/
def fieldA (w : Word) : Reg := bits w 20 16
/-- The rB, NB or frB field (R107). -/
def fieldB (w : Word) : Reg := bits w 15 11
/-- The d, SIMM or UIMM field (R107). -/
def fieldImm (w : Word) : BitVec 16 := bits w 15 0
/-- The Rc bit (R107). -/
def fieldRc (w : Word) : Bool := w.getLsbD 0
/-- The SPR number: the 10-bit field with its two 5-bit halves swapped (R108). -/
def fieldSpr (w : Word) : BitVec 10 := bits w 15 11 ++ bits w 20 16

def rowCmplwi : Row := ⟨"cmplwi", 0xFC600000, 0x28000000⟩
def rowSubi : Row := ⟨"subi", 0xFC000000, 0x38000000⟩
def rowBeq : Row := ⟨"beq", 0xFFE30003, 0x41820000⟩
def rowB : Row := ⟨"b", 0xFC000003, 0x48000000⟩
def rowLwzux : Row := ⟨"lwzux", 0xFC0007FF, 0x7C00006E⟩
def rowAdd : Row := ⟨"add", 0xFC0007FE, 0x7C000214⟩
def rowLscbx : Row := ⟨"lscbx", 0xFC0007FE, 0x7C00022A⟩
def rowMtspr : Row := ⟨"mtspr", 0xFC0007FF, 0x7C0003A6⟩
def rowLswx : Row := ⟨"lswx", 0xFC0007FF, 0x7C00042A⟩
def rowLswi : Row := ⟨"lswi", 0xFC0007FF, 0x7C0004AA⟩
def rowStswx : Row := ⟨"stswx", 0xFC0007FF, 0x7C00052A⟩
def rowStswi : Row := ⟨"stswi", 0xFC0007FF, 0x7C0005AA⟩
def rowStw : Row := ⟨"stw", 0xFC000000, 0x90000000⟩
def rowLmw : Row := ⟨"lmw", 0xFC000000, 0xB8000000⟩
def rowStmw : Row := ⟨"stmw", 0xFC000000, 0xBC000000⟩
def rowLfs : Row := ⟨"lfs", 0xFC000000, 0xC0000000⟩
def rowStfs : Row := ⟨"stfs", 0xFC000000, 0xD0000000⟩
def rowFrsp : Row := ⟨"frsp", 0xFC1F07FE, 0xFC000018⟩

/-- The opcode table (R109). -/
def rows : List Row :=
  [rowCmplwi, rowSubi, rowBeq, rowB, rowLwzux, rowAdd, rowLscbx, rowMtspr, rowLswx, rowLswi, rowStswx, rowStswi,
   rowStw, rowLmw, rowStmw, rowLfs, rowStfs, rowFrsp]

/-- The row an instruction belongs to. -/
def Instr.row : Instr → Row
  | .cmplwi _ _ _ => rowCmplwi
  | .subi _ _ _ => rowSubi
  | .beq _ _ => rowBeq
  | .b _ => rowB
  | .lwzux _ _ _ => rowLwzux
  | .add _ _ _ _ => rowAdd
  | .lscbx _ _ _ _ => rowLscbx
  | .mtspr _ _ => rowMtspr
  | .lswx _ _ _ => rowLswx
  | .lswi _ _ _ => rowLswi
  | .stswx _ _ _ => rowStswx
  | .stswi _ _ _ => rowStswi
  | .stw _ _ _ => rowStw
  | .lmw _ _ _ => rowLmw
  | .stmw _ _ _ => rowStmw
  | .lfs _ _ _ => rowLfs
  | .stfs _ _ _ => rowStfs
  | .frsp _ _ _ => rowFrsp

/-- The instruction a word stands for, if it matches a row of the table (R109, R110). -/
def decodeWord (w : Word) : Option Instr :=
  if rowCmplwi.selects w then some (.cmplwi (bits w 25 23) (fieldA w) (fieldImm w))
  else if rowSubi.selects w then some (.subi (fieldD w) (fieldA w) (fieldImm w))
  else if rowBeq.selects w then some (.beq (bits w 20 18) (bits w 15 2))
  else if rowB.selects w then some (.b (bits w 25 2))
  else if rowLwzux.selects w then some (.lwzux (fieldD w) (fieldA w) (fieldB w))
  else if rowAdd.selects w then some (.add (fieldD w) (fieldA w) (fieldB w) (fieldRc w))
  else if rowLscbx.selects w then some (.lscbx (fieldD w) (fieldA w) (fieldB w) (fieldRc w))
  else if rowMtspr.selects w then some (.mtspr (fieldSpr w) (fieldD w))
  else if rowLswx.selects w then some (.lswx (fieldD w) (fieldA w) (fieldB w))
  else if rowLswi.selects w then some (.lswi (fieldD w) (fieldA w) (fieldB w))
  else if rowStswx.selects w then some (.stswx (fieldD w) (fieldA w) (fieldB w))
  else if rowStswi.selects w then some (.stswi (fieldD w) (fieldA w) (fieldB w))
  else if rowStw.selects w then some (.stw (fieldD w) (fieldA w) (fieldImm w))
  else if rowLmw.selects w then some (.lmw (fieldD w) (fieldA w) (fieldImm w))
  else if rowStmw.selects w then some (.stmw (fieldD w) (fieldA w) (fieldImm w))
  else if rowLfs.selects w then some (.lfs (fieldD w) (fieldA w) (fieldImm w))
  else if rowStfs.selects w then some (.stfs (fieldD w) (fieldA w) (fieldImm w))
  else if rowFrsp.selects w then some (.frsp (fieldD w) (fieldB w) (fieldRc w))
  else none

/-- Why the decoder reads no instruction. -/
inductive DecodeError where
  /-- The word matches no row of the table; the model refuses it (R110). -/
  | noRow (w : Word)
  /-- Fewer than four bytes are left; an instruction is four bytes long (R100). -/
  | tooShort
  deriving DecidableEq, Repr

/-- The decoder on bytes as memory holds them, the most significant byte of the instruction word at the lowest
address (R101): the instruction and the bytes after it. -/
def decode : List Byte → Except DecodeError (Instr × List Byte)
  | b0 :: b1 :: b2 :: b3 :: rest =>
    match decodeWord (b0 ++ b1 ++ b2 ++ b3) with
    | some i => .ok (i, rest)
    | none => .error (.noRow (b0 ++ b1 ++ b2 ++ b3))
  | _ => .error .tooShort

/-- An I-form word: OPCD, LI, AA = 0, LK = 0 (R107). -/
def iForm (opcd : BitVec 6) (li : BitVec 24) : Word := opcd ++ li ++ 0#2
/-- A B-form word: OPCD, BO, BI, BD, AA = 0, LK = 0 (R107). -/
def bForm (opcd : BitVec 6) (bo bi : BitVec 5) (bd : BitVec 14) : Word := opcd ++ bo ++ bi ++ bd ++ 0#2
/-- A D-form word: OPCD, a register, rA, a 16-bit field (R107). -/
def dForm (opcd : BitVec 6) (r rA : Reg) (d : BitVec 16) : Word := opcd ++ r ++ rA ++ d
/-- A compare D-form word: OPCD, crfD, 0, L = 0, rA, UIMM (R107). -/
def cmpForm (opcd : BitVec 6) (crfD : BitVec 3) (rA : Reg) (imm : BitVec 16) : Word :=
  opcd ++ crfD ++ 0#2 ++ rA ++ imm
/-- An X-form word, and with OE = 0 an XO-form word, whose XO is then the low nine of these ten bits (R107). -/
def xForm (opcd : BitVec 6) (r a b : BitVec 5) (xo : BitVec 10) (rc : Bool) : Word :=
  opcd ++ r ++ a ++ b ++ xo ++ BitVec.ofBool rc

/-- The word of an instruction (R107, R108, R109). -/
def encode : Instr → Word
  | .cmplwi crfD rA uimm => cmpForm 10 crfD rA uimm
  | .subi rD rA simm => dForm 14 rD rA simm
  | .beq crf bd => bForm 16 12 (crf ++ 2#2) bd
  | .b li => iForm 18 li
  | .lwzux rD rA rB => xForm 31 rD rA rB 55 false
  | .add rD rA rB rc => xForm 31 rD rA rB 266 rc
  | .lscbx rD rA rB rc => xForm 31 rD rA rB 277 rc
  | .mtspr spr rS => xForm 31 rS (spr.extractLsb 4 0) (spr.extractLsb 9 5) 467 false
  | .lswx rD rA rB => xForm 31 rD rA rB 533 false
  | .lswi rD rA nb => xForm 31 rD rA nb 597 false
  | .stswx rS rA rB => xForm 31 rS rA rB 661 false
  | .stswi rS rA nb => xForm 31 rS rA nb 725 false
  | .stw rS rA d => dForm 36 rS rA d
  | .lmw rD rA d => dForm 46 rD rA d
  | .stmw rS rA d => dForm 47 rS rA d
  | .lfs frD rA d => dForm 48 frD rA d
  | .stfs frS rA d => dForm 52 frS rA d
  | .frsp frD frB rc => xForm 63 frD 0 frB 12 rc

/-- The bytes of a word, the most significant first (R57, R101). -/
def wordBytes (w : Word) : List Byte :=
  [w.extractLsb 31 24, w.extractLsb 23 16, w.extractLsb 15 8, w.extractLsb 7 0]

/-- The instruction the decoder reads from an opcode-table row's bits: the first word is bits 31 to 0 of `w`, the
bits from `nbits` up are 0, and the word is laid out most significant byte first. -/
def decodeTableWord (nbits w : Nat) : Option Instr :=
  match decode (wordBytes (BitVec.ofNat 32 (w % 2 ^ nbits))) with
  | .ok (i, _) => some i
  | .error _ => none

end Sys2Proof
end

