-- ==== Sys2Proof/Machine/FloatFormat.lean ====
section
/-! DEFINITION. The two floating-point formats, the classes and values of their patterns, the NaN rules and the
conversions between the formats (spec/42_fp_data_formats.md R170 to R192; spec/43_fp_data_handling.md R210, R219). -/

namespace Sys2Proof.Machine

/-- The two formats (R170). -/
inductive Format where
  | single
  | double
  deriving DecidableEq, Repr

/-- Table 3-5: the exponent bias (R175). -/
def formatBias : Format → Nat
  | .single => 127
  | .double => 1023

/-- Table 3-5: the fraction width `p` (R175). -/
def formatFraction : Format → Nat
  | .single => 23
  | .double => 52

/-- Table 3-5: the exponent width (R175). -/
def formatExpWidth : Format → Nat
  | .single => 8
  | .double => 11

/-- Table 3-5: the maximum exponent, unbiased (R175). -/
def formatEmax : Format → Int
  | .single => 127
  | .double => 1023

/-- Table 3-5: the minimum exponent, unbiased (R175). -/
def formatEmin : Format → Int
  | .single => -126
  | .double => -1022

/-- `EXPmax`, the biased exponent of all ones (R175, R176). -/
def formatExpMax : Format → Nat
  | .single => 255
  | .double => 2047

/-- The three fields of a value in floating-point format (R171): S, EXP, FRACTION. -/
structure FpFields where
  sign : Bool
  exp : Nat
  frac : Nat
  deriving DecidableEq, Repr

/-- The fields of a double-precision pattern (R172). -/
def doubleFields (d : Double) : FpFields :=
  ⟨d.getLsbD 63, (d.extractLsb 62 52).toNat, (d.extractLsb 51 0).toNat⟩

/-- The fields of a single-precision pattern (R173). -/
def singleFields (s : Word) : FpFields :=
  ⟨s.getLsbD 31, (s.extractLsb 30 23).toNat, (s.extractLsb 22 0).toNat⟩

/-- A double-precision pattern from its fields (R172). -/
def packDouble (sign : Bool) (exp : BitVec 11) (frac : BitVec 52) : Double := BitVec.ofBool sign ++ exp ++ frac

/-- A single-precision pattern from its fields (R173). -/
def packSingle (sign : Bool) (exp : BitVec 8) (frac : BitVec 23) : Word := BitVec.ofBool sign ++ exp ++ frac

/-- The classes of value (R177, R178). -/
inductive FpClass where
  | zero (neg : Bool)
  | denormalized (neg : Bool)
  | normalized (neg : Bool)
  | infinity (neg : Bool)
  | nan
  deriving DecidableEq, Repr

/-- Table 3-6, as R178 reads it: every pattern is in one class. -/
def fpClass (fmt : Format) (x : FpFields) : FpClass :=
  if x.exp = formatExpMax fmt then (if x.frac = 0 then .infinity x.sign else .nan)
  else if x.exp = 0 then (if x.frac = 0 then .zero x.sign else .denormalized x.sign)
  else .normalized x.sign

/-- The class of a double-precision pattern. -/
def doubleClass (d : Double) : FpClass := fpClass .double (doubleFields d)

/-- The class of a single-precision pattern. -/
def singleClass (s : Word) : FpClass := fpClass .single (singleFields s)

/-- The biased exponent's true value, `EXP - bias` (R176). -/
def trueExponent (fmt : Format) (exp : Nat) : Int := (exp : Int) - formatBias fmt

/-- The leading implied bit of the significand (R174): 1 for a normalized number, 0 for the others. -/
def impliedBit (x : FpFields) : Nat := if x.exp = 0 then 0 else 1

/-- The significand `L.FRACTION` as an integer, in units of `2^-p` (R174). -/
def significand (fmt : Format) (x : FpFields) : Nat := impliedBit x * 2 ^ formatFraction fmt + x.frac

/-- The exponent of the last place of the significand: `E - p`, with `E` the true exponent of a normalized number and
Emin for a denormalized one (R179, R182). -/
def lastPlace (fmt : Format) (x : FpFields) : Int :=
  (if x.exp = 0 then formatEmin fmt else trueExponent fmt x.exp) - formatFraction fmt

/-- An exact number, `± num / den`, its sign kept beside a zero (R192). `den` is positive. -/
structure Exact where
  neg : Bool
  num : Nat
  den : Nat
  deriving DecidableEq, Repr

/-- `± q · 2^e`, exactly. -/
def exactScaled (neg : Bool) (q : Nat) (e : Int) : Exact := ⟨neg, q * 2 ^ e.toNat, 2 ^ (-e).toNat⟩

/-- `val` of R192 for a zero, denormalized or normalized pattern (R179, R181, R182). -/
def fpValue (fmt : Format) (x : FpFields) : Exact := exactScaled x.sign (significand fmt x) (lastPlace fmt x)

/-- `val` of a double-precision pattern. -/
def doubleValue (d : Double) : Exact := fpValue .double (doubleFields d)

/-- `val` of a single-precision pattern. -/
def singleValue (s : Word) : Exact := fpValue .single (singleFields s)

/-- `isNaN` of R185 on doubles. -/
def isNaN (d : Double) : Bool := doubleClass d == .nan

/-- `isQNaN`: the high-order fraction bit is one (R185). -/
def isQNaN (d : Double) : Bool := isNaN d && d.getLsbD 51

/-- `isSNaN`: the high-order fraction bit is zero (R185). -/
def isSNaN (d : Double) : Bool := isNaN d && !d.getLsbD 51

/-- The pattern is a denormalized number (R182). -/
def isDenormalized (d : Double) : Bool := (doubleFields d).exp == 0 && (doubleFields d).frac != 0

/-- The generated QNaN (R191). -/
def generatedQNaN : Double := 0x7FF8000000000000

/-- A NaN with its high-order fraction bit set to one (R190, D15). -/
def quieted (d : Double) : Double := d ||| 0x0008000000000000

/-- `nan_result` of R190: frA before frB before frC, a field the instruction does not have being none; else the
generated QNaN. -/
def nanResult (a b c : Option Double) : Double :=
  match (([a, b, c].filterMap id).filter isNaN).head? with
  | some d => quieted d
  | none => generatedQNaN

/-- How two non-NaN values are ordered (R177, R181, R183): by value, +0 equal to -0, the infinities outside; a NaN is
related to nothing. -/
def fpOrder (a b : Double) : Option Ordering :=
  let rank (d : Double) : Int :=
    let magnitude : Int := (d.extractLsb 62 0).toNat
    if d.getLsbD 63 then -magnitude else magnitude
  if isNaN a || isNaN b then none else some (compare (rank a) (rank b))

/-! ### Conversions between the formats (R219) -/

/-- The number of leading zero bits of the 23-bit fraction `f`, which is not zero (R219). -/
def leadingZeros23 (f : BitVec 23) : Nat := 22 - f.toNat.log2

/-- `single_to_double` of R219: exact for every pattern; a NaN keeps its fraction bits. -/
def singleToDouble (s : Word) : Double :=
  let sign := s.getLsbD 31
  let e : BitVec 8 := s.extractLsb 30 23
  let f : BitVec 23 := s.extractLsb 22 0
  if e = 255 then packDouble sign 0x7FF (f ++ 0#29)
  else if e = 0 then
    if f = 0 then packDouble sign 0 0
    else packDouble sign (BitVec.ofNat 11 (896 - leadingZeros23 f)) ((f <<< (leadingZeros23 f + 1)) ++ 0#29)
  else packDouble sign (BitVec.ofNat 11 (e.toNat + 896)) (f ++ 0#29)

/-- `repr_single` of R219: the pattern is one that a single-precision pattern converts to. -/
def reprSingle (d : Double) : Bool :=
  let e := (doubleFields d).exp
  let f := (doubleFields d).frac
  if e = 0 then f == 0
  else if e = 2047 then f == 0 || f % 2 ^ 29 == 0
  else if 897 ≤ e ∧ e ≤ 1150 then f % 2 ^ 29 == 0
  else if 874 ≤ e ∧ e ≤ 896 then f % 2 ^ (29 + (897 - e)) == 0
  else false

/-- `double_to_single` of R219, for a pattern that `reprSingle` accepts; a denormalized result is denormalized without
rounding (R211). -/
def doubleToSingle (d : Double) : Word :=
  let sign := d.getLsbD 63
  let e := (doubleFields d).exp
  let f : BitVec 23 := d.extractLsb 51 29
  if e = 0 then packSingle sign 0 0
  else if e = 2047 then packSingle sign 0xFF f
  else if 897 ≤ e then packSingle sign (BitVec.ofNat 8 (e - 896)) f
  else packSingle sign 0 (((1#1 ++ f) >>> (897 - e)).setWidth 23)

end Sys2Proof.Machine
end

