-- ==== Sys2Proof/Machine/FloatRound.lean ====
section
/-! DEFINITION. Rounding: the function of R240 on exact numbers, and the accumulator with its guard, round and sticky
bits (spec/43_fp_data_handling.md R206 to R208; spec/44_fp_rounding_and_execution_models.md R232 to R240,
R252 to R262). -/

namespace Sys2Proof.Machine

/-- The exponent of the leading bit of a non-zero exact number: `2^E ≤ |Z| < 2^(E+1)`. -/
def Exact.exponent (z : Exact) : Int :=
  let l : Int := (z.num.log2 : Int) - (z.den.log2 : Int)
  if z.den * 2 ^ l.toNat ≤ z.num * 2 ^ (-l).toNat then l else l - 1

/-- `tiny(Z, format)` of R207: `0 < |Z| < 2^Emin`. -/
def isTiny (fmt : Format) (z : Exact) : Bool :=
  decide (0 < z.num) && decide (z.num * 2 ^ (-formatEmin fmt).toNat < z.den)

/-- `|Z|` in units of `2^e`, as a fraction: its numerator. -/
def Exact.scaledNum (z : Exact) (e : Int) : Nat := z.num * 2 ^ (-e).toNat

/-- `|Z|` in units of `2^e`, as a fraction: its denominator. -/
def Exact.scaledDen (z : Exact) (e : Int) : Nat := z.den * 2 ^ e.toNat

/-- A rounded result: `± q · 2^e`, whether the fraction was incremented and whether the result is inexact (R232). -/
structure Rounded where
  neg : Bool
  q : Nat
  e : Int
  incremented : Bool
  inexact : Bool
  deriving DecidableEq, Repr

/-- Which neighbour R235 chooses: true for the one larger in magnitude. The exact magnitude lies `r/d` of the way from
the smaller neighbour, whose significand is `odd` or even, to the larger one. -/
def choosesLarger (mode : RoundMode) (neg odd : Bool) (r d : Nat) : Bool :=
  match mode with
  | .nearest => decide (d < 2 * r) || (decide (2 * r = d) && odd)
  | .towardZero => false
  | .towardPlus => decide (r ≠ 0) && !neg
  | .towardMinus => decide (r ≠ 0) && neg

/-- The exact magnitude rounded to an integer by the mode (R230, R235): a conversion to integer. -/
def roundToInteger (mode : RoundMode) (z : Exact) : Rounded :=
  let q := z.num / z.den
  let up := choosesLarger mode z.neg (q % 2 == 1) (z.num % z.den) z.den
  { neg := z.neg, q := if up then q + 1 else q, e := 0, incremented := up, inexact := decide (z.num % z.den ≠ 0) }

/-- The exponent of the last place of the numbers of the format near `Z`: its leading bit's less `p`, and not below
that of the denormalized numbers (R240, R262). -/
def roundPlace (fmt : Format) (z : Exact) : Int :=
  max (z.exponent - formatFraction fmt) (formatEmin fmt - formatFraction fmt)

/-- `round(Z, fmt, RN)` of R240 for `Z ≠ 0`, computed as if the exponent had no upper bound; a result that then
exceeds the format is `roundOverflows`. -/
def roundExact (fmt : Format) (mode : RoundMode) (z : Exact) : Rounded :=
  let e := roundPlace fmt z
  let q := z.scaledNum e / z.scaledDen e
  let r := z.scaledNum e % z.scaledDen e
  let up := choosesLarger mode z.neg (q % 2 == 1) r (z.scaledDen e)
  { neg := z.neg, q := if up then q + 1 else q, e := e, incremented := up, inexact := decide (r ≠ 0) }

/-- The rounded result exceeds the largest finite magnitude of the format, `(2 - 2^-p) · 2^Emax` (R236). -/
def roundOverflows (fmt : Format) (r : Rounded) : Bool :=
  let top := formatEmax fmt - formatFraction fmt
  decide (top ≤ r.e) && decide (2 ^ (formatFraction fmt + 1) ≤ r.q * 2 ^ (r.e - top).toNat)

/-- Whether an overflow with the overflow exception disabled delivers an infinity (true) or the largest finite number
(false), the sign being Z's: infinity in round to nearest (R261); the other modes as R236 says. -/
def overflowInfinite (mode : RoundMode) (neg : Bool) : Bool :=
  match mode with
  | .nearest => true
  | .towardZero => false
  | .towardPlus => !neg
  | .towardMinus => neg

/-- The double-precision pattern of `± q · 2^e`, a value that the double format represents (R192, R219). -/
def doubleOfScaled (neg : Bool) (q : Nat) (e : Int) : Double :=
  if q = 0 then packDouble neg 0 0
  else
    let l := q.log2
    let lead : Int := l + e
    if lead < -1022 then packDouble neg 0 (BitVec.ofNat 52 (q * 2 ^ (e + 1074).toNat))
    else packDouble neg (BitVec.ofNat 11 (lead + 1023).toNat)
      (BitVec.ofNat 52 (if l ≤ 52 then q * 2 ^ (52 - l) else q / 2 ^ (l - 52)))

/-- The infinity of a sign (R183). -/
def infinityDouble (neg : Bool) : Double := packDouble neg 0x7FF 0

/-- The zero of a sign (R181). -/
def zeroDouble (neg : Bool) : Double := packDouble neg 0 0

/-- The largest finite number of a format, in double format (R180). -/
def largestFinite (fmt : Format) (neg : Bool) : Double :=
  doubleOfScaled neg (2 ^ (formatFraction fmt + 1) - 1) (formatEmax fmt - formatFraction fmt)

/-! ### The accumulator (R252 to R262) -/

/-- The accumulator of R253, `S | C | L | FRACTION | G | R | X`, with the exponent beside it. `sig` holds C, L,
FRACTION, G and R: bit `i` of R258 (L = bit 0) is `sig`'s bit `54 - i`, C is its bit 55, and X is `sticky`. -/
structure Accumulator where
  neg : Bool
  exp : Int
  sig : BitVec 56
  sticky : Bool
  deriving DecidableEq, Repr

/-- Accumulator bit `i` in the numbering of R258: L 0, FRACTION 1 to 52, G 53, R 54, X 55. -/
def Accumulator.bit (a : Accumulator) (i : Nat) : Bool := if i ≤ 54 then a.sig.getLsbD (54 - i) else i == 55 && a.sticky

/-- The exact result in the accumulator, normalized: its first 53 significant bits in L and FRACTION, the next two in G
and R, and X whether anything non-zero follows (R255). -/
def accumulatorOf (z : Exact) : Accumulator :=
  let e := z.exponent - 54
  { neg := z.neg, exp := z.exponent, sig := BitVec.ofNat 56 (z.scaledNum e / z.scaledDen e),
    sticky := decide (z.scaledNum e % z.scaledDen e ≠ 0) }

/-- One step of normalization: a left shift with 0 entering at R, X staying in place (R206). -/
def Accumulator.shiftLeft (a : Accumulator) : Accumulator := { a with exp := a.exp - 1, sig := a.sig <<< 1 }

/-- Normalization: shift left until L is one, at most `fuel` times; 55 are enough (R206). -/
def Accumulator.normalize (a : Accumulator) : Nat → Accumulator
  | 0 => a
  | fuel + 1 => if a.bit 0 || a.sig == 0 then a else a.shiftLeft.normalize fuel

/-- One step of denormalization: a right shift, the bit that leaves R going into X (R208). -/
def Accumulator.shiftRight (a : Accumulator) : Accumulator :=
  { a with exp := a.exp + 1, sig := a.sig >>> 1, sticky := a.sticky || a.sig.getLsbD 0 }

/-- `n` steps of denormalization. -/
def Accumulator.shiftRightBy (a : Accumulator) : Nat → Accumulator
  | 0 => a
  | n + 1 => a.shiftRight.shiftRightBy n

/-- Denormalization for a format: while the exponent is below Emin (R208, R262). -/
def Accumulator.denormalize (a : Accumulator) (fmt : Format) : Accumulator :=
  a.shiftRightBy (formatEmin fmt - a.exp).toNat

/-- The guard bit of Table 3-9 (R257). -/
def Accumulator.guardBit (a : Accumulator) : Format → Bool
  | .double => a.bit 53
  | .single => a.bit 24

/-- The round bit of Table 3-9 (R257). -/
def Accumulator.roundBit (a : Accumulator) : Format → Bool
  | .double => a.bit 54
  | .single => a.bit 25

/-- The sticky bit of Table 3-9: X, and for a single-precision result the OR of bits 26 to 52, G, R and X (R257). -/
def Accumulator.stickyBit (a : Accumulator) : Format → Bool
  | .double => a.sticky
  | .single => (a.sig.extractLsb 28 0 != 0) || a.sticky

/-- The retained significand: C, L and the FRACTION bits of the format (R257, R259). -/
def Accumulator.retained (a : Accumulator) : Format → Nat
  | .double => (a.sig >>> 2).toNat
  | .single => (a.sig >>> 31).toNat

/-- The increment of R260 and R261 from lsb, G, R, X and the sign. -/
def grxIncrement (mode : RoundMode) (neg lsb g r x : Bool) : Bool :=
  match mode with
  | .nearest => g && (r || x || lsb)
  | .towardZero => false
  | .towardPlus => (g || r || x) && !neg
  | .towardMinus => (g || r || x) && neg

/-- Rounding an accumulator by its guard, round and sticky bits (R256, R259, R260, R261). -/
def Accumulator.rounded (a : Accumulator) (fmt : Format) (mode : RoundMode) : Rounded :=
  let q := a.retained fmt
  let up := grxIncrement mode a.neg (q % 2 == 1) (a.guardBit fmt) (a.roundBit fmt) (a.stickyBit fmt)
  { neg := a.neg, q := if up then q + 1 else q, e := a.exp - formatFraction fmt, incremented := up,
    inexact := a.guardBit fmt || a.roundBit fmt || a.stickyBit fmt }

end Sys2Proof.Machine
end

