-- ==== Sys2Proof/Machine/FloatArith.lean ====
section
/-! DEFINITION. What a floating-point instruction delivers: exact arithmetic with its signs, NaNs, infinities, the
classes of arithmetic and multiply-add instructions, tiny results, denormalized operands, overflow, and how the outcome
changes the state (spec/42_fp_data_formats.md R184 to R191; spec/43_fp_data_handling.md R200 to R217;
spec/44_fp_rounding_and_execution_models.md R236, R263 to R273; spec/60_exceptions.md R286, R287). -/

namespace Sys2Proof.Machine

/-- What a floating-point instruction comes to. -/
inductive FpOutcome where
  /-- The result, FR, FI, and whether the result is inexact, which sets XX. -/
  | deliver (d : Double) (fr fi inexact : Bool)
  /-- The signed zero of non-IEEE mode: XX keeps its value, FR and FI are free (R270, R272, 93 Part 2). -/
  | flush (d : Double)
  /-- The result and every status bit are free (R217). -/
  | free
  /-- A result the spec does not state: a free value of the format, with the sign where R201 to R205 give it, and free
  status bits, but XX, which is sticky (R29), stays set (notes/assumptions/22, 23). -/
  | unstated (fmt : Format) (sign : Option Bool)
  /-- The floating-point assist exception (R286). -/
  | assist
  deriving DecidableEq, Repr

/-! ### Exact arithmetic and the sign of the result (R201 to R205) -/

/-- The exact number with its sign inverted. -/
def Exact.negate (z : Exact) : Exact := { z with neg := !z.neg }

/-- The numerator with its sign. -/
def Exact.signedNum (z : Exact) : Int := if z.neg then -(z.num : Int) else z.num

/-- The exact sum. A sum that is not zero has its own sign, that of the operand larger in magnitude (R201); a zero sum
of operands of like sign has that sign, of unlike sign it is positive but in round toward -infinity (R202). -/
def Exact.add (mode : RoundMode) (x y : Exact) : Exact :=
  let n : Int := x.signedNum * y.den + y.signedNum * x.den
  let neg := if n = 0 then (if x.neg = y.neg then x.neg else decide (mode = .towardMinus)) else decide (n < 0)
  ⟨neg, n.natAbs, x.den * y.den⟩

/-- The exact product, its sign the exclusive OR of the operands' (R203). -/
def Exact.mul (x y : Exact) : Exact := ⟨x.neg != y.neg, x.num * y.num, x.den * y.den⟩

/-- The exact quotient by a number that is not zero, its sign the exclusive OR of the operands' (R203). -/
def Exact.div (x y : Exact) : Exact := ⟨x.neg != y.neg, x.num * y.den, x.den * y.num⟩

/-- A datum that is no NaN: a finite number or an infinity, or what an operation on such data gives. -/
inductive Datum where
  | finite (z : Exact)
  | infinite (neg : Bool)
  /-- An invalid operation (R184). -/
  | invalid
  /-- A non-zero number divided by zero, with the sign of the quotient (R203). Its value is not in the spec (R287). -/
  | zeroDivide (neg : Bool)
  deriving DecidableEq, Repr

/-- The datum of a double that is no NaN. -/
def doubleDatum (d : Double) : Datum :=
  match doubleClass d with
  | .infinity neg => .infinite neg
  | _ => .finite (doubleValue d)

/-- The datum with its sign inverted. -/
def Datum.negate : Datum → Datum
  | .finite z => .finite z.negate
  | .infinite neg => .infinite (!neg)
  | .zeroDivide neg => .zeroDivide (!neg)
  | .invalid => .invalid

/-- Addition (R184, R201, R202): infinity minus infinity is invalid. -/
def Datum.add (mode : RoundMode) : Datum → Datum → Datum
  | .finite x, .finite y => .finite (x.add mode y)
  | .infinite p, .infinite q => if p = q then .infinite p else .invalid
  | .infinite p, .finite _ => .infinite p
  | .finite _, .infinite q => .infinite q
  | .zeroDivide n, _ => .zeroDivide n
  | _, .zeroDivide n => .zeroDivide n
  | _, _ => .invalid

/-- Multiplication (R184, R203): infinity times zero is invalid. -/
def Datum.mul : Datum → Datum → Datum
  | .finite x, .finite y => .finite (x.mul y)
  | .infinite p, .infinite q => .infinite (p != q)
  | .infinite p, .finite y => if y.num = 0 then .invalid else .infinite (p != y.neg)
  | .finite x, .infinite q => if x.num = 0 then .invalid else .infinite (x.neg != q)
  | .zeroDivide n, _ => .zeroDivide n
  | _, .zeroDivide n => .zeroDivide n
  | _, _ => .invalid

/-- Division (R184, R203): zero by zero and infinity by infinity are invalid; another number by zero is a zero divide. -/
def Datum.div : Datum → Datum → Datum
  | .finite x, .finite y =>
    if y.num = 0 then (if x.num = 0 then .invalid else .zeroDivide (x.neg != y.neg)) else .finite (x.div y)
  | .infinite _, .infinite _ => .invalid
  | .infinite p, .finite y => .infinite (p != y.neg)
  | .finite x, .infinite q => .finite ⟨x.neg != q, 0, 1⟩
  | .zeroDivide n, _ => .zeroDivide n
  | _, .zeroDivide n => .zeroDivide n
  | _, _ => .invalid

/-- The arithmetic operations Section 3 speaks of (R201, R203, R263, R265). -/
inductive FpOp where
  | add
  | sub
  | mul
  | div
  | madd
  | msub
  | nmadd
  | nmsub
  deriving DecidableEq, Repr

/-- The instruction has an frB operand: every one but a multiplication. -/
def FpOp.usesB : FpOp → Bool
  | .mul => false
  | _ => true

/-- The instruction has an frC operand: a multiplication or a multiply-add (R263). -/
def FpOp.usesC : FpOp → Bool
  | .mul | .madd | .msub | .nmadd | .nmsub => true
  | _ => false

/-- The final result is negated (R265). -/
def FpOp.negates : FpOp → Bool
  | .nmadd | .nmsub => true
  | _ => false

/-- The exact result: a multiply-add is `frA × frC ± frB` with one exact product (R205, R263). That a product reads frA
and frC, and a sum, difference or quotient frA and frB, is not in the spec (91 N26): PRESUMED (the family's), unsafe
(notes/assumptions/43). -/
def FpOp.exact (op : FpOp) (mode : RoundMode) (a b c : Datum) : Datum :=
  match op with
  | .add => a.add mode b
  | .sub => a.add mode b.negate
  | .mul => a.mul c
  | .div => a.div b
  | .madd | .nmadd => (a.mul c).add mode b
  | .msub | .nmsub => (a.mul c).add mode b.negate

/-! ### From an exact result to an outcome -/

/-- What an enabled overflow subtracts from the exponent (R236). -/
def overflowAdjust : Format → Int
  | .single => 192
  | .double => 1536

/-- An exact non-zero result rounded to the format and delivered: overflow with OE = 0 by R236 and R261, FR and FI by
R232. With OE = 1 or, an inexact result, XE = 1 the exception is enabled (R286); under `fp_envelope = ieee` the overflow
delivers the rounded result with the exponent adjusted (R236), and the inexact one is the rounded result
(notes/assumptions/23, 26, 27). That every enabled exception raises the floating-point assist exception, whose vector
R286 leaves open for this cause, is DESIGN CHOICE, unsafe (notes/assumptions/44). -/
def deliverRounded (p : Platform) (f : Fpscr) (fmt : Format) (z : Exact) : FpOutcome :=
  let mode := roundMode f.rn
  let r := roundExact fmt mode z
  if roundOverflows fmt r then
    if f.oe then
      (if p.fpEnvelope = .ieee then
        .deliver (doubleOfScaled r.neg r.q (r.e - overflowAdjust fmt)) r.incremented r.inexact r.inexact
      else .assist)
    else if f.xe && decide (p.fpEnvelope ≠ .ieee) then .assist
    else if overflowInfinite mode z.neg then .deliver (infinityDouble z.neg) true true true
    else .deliver (largestFinite fmt z.neg) false true true
  else if r.inexact && f.xe && decide (p.fpEnvelope ≠ .ieee) then .assist
  else .deliver (doubleOfScaled r.neg r.q r.e) r.incremented r.inexact r.inexact

/-- An exact result of a format delivered: a zero keeps its sign; a tiny result by R270 (the signed zero of non-IEEE
mode, else the assist exception or, under `fp_envelope = ieee`, the IEEE result, which with UE = 1 is not in the
source and is free but for its sign: notes/assumptions/23); any other is rounded. `denormal` says that a source operand
is denormalized, and the zero of R270 is then not delivered (R271). -/
def deliverExact (p : Platform) (f : Fpscr) (fmt : Format) (denormal : Bool) (z : Exact) : FpOutcome :=
  if z.num = 0 then .deliver (zeroDouble z.neg) false false false
  else if isTiny fmt z then
    if f.ni && !f.ue && !denormal then .flush (zeroDouble z.neg)
    else if p.fpEnvelope ≠ .ieee then .assist
    else if f.ue then .unstated fmt (some z.neg)
    else deliverRounded p f fmt z
  else deliverRounded p f fmt z

/-- An invalid operation: with VE = 1 the assist exception (R286, R287), under `fp_envelope = ieee` a result the source
does not state (R186; notes/assumptions/22, 44); with VE = 0 the result `d` (R190, R191), with no rounding. -/
def deliverInvalid (p : Platform) (f : Fpscr) (fmt : Format) (d : Double) : FpOutcome :=
  if f.ve then (if p.fpEnvelope = .ieee then .unstated fmt none else .assist) else .deliver d false false false

/-- A zero divide (R286, R287): with ZE = 1 the assist exception, an enabled IEEE exception; with ZE = 0, and under
`fp_envelope = ieee`, a result the spec does not state, of the sign R203 gives. R287 says that Section 3 does not mention
zero divide: DESIGN CHOICE, unsafe (notes/assumptions/22). -/
def deliverZeroDivide (p : Platform) (f : Fpscr) (fmt : Format) (neg : Bool) : FpOutcome :=
  if f.ze && decide (p.fpEnvelope ≠ .ieee) then .assist else .unstated fmt (some neg)

/-- The outcome with the sign of its result inverted (R265). -/
def FpOutcome.negated : FpOutcome → FpOutcome
  | .deliver d fr fi inexact => .deliver (d ^^^ 0x8000000000000000) fr fi inexact
  | .flush d => .flush (d ^^^ 0x8000000000000000)
  | .unstated fmt sign => .unstated fmt (sign.map (!·))
  | .free => .free
  | .assist => .assist

/-- An arithmetic or multiply-add instruction of a precision (R184 to R191, R200 to R217, R263 to R271), by its
operands' patterns. A NaN result is not negated (R265). The order of the checks, R217 before R271 and R271 before R184,
R187 and R190, is not in the spec: DESIGN CHOICE, unsafe (notes/assumptions/21, 47). -/
def arithOutcome (p : Platform) (f : Fpscr) (fmt : Format) (op : FpOp) (a b c : Double) : FpOutcome :=
  let sources := [a] ++ (if op.usesB then [b] else []) ++ (if op.usesC then [c] else [])
  if fmt = .single ∧ sources.any (fun d => !reprSingle d) = true then .free
  else if sources.any isDenormalized && decide (p.fpEnvelope ≠ .ieee) then .assist
  else if sources.any isNaN then
    let result := nanResult (some a) (if op.usesB then some b else none) (if op.usesC then some c else none)
    if sources.any isSNaN then deliverInvalid p f fmt result else .deliver result false false false
  else
    match op.exact (roundMode f.rn) (doubleDatum a) (doubleDatum b) (doubleDatum c) with
    | .invalid => deliverInvalid p f fmt generatedQNaN
    | .zeroDivide neg => deliverZeroDivide p f fmt neg
    | .infinite neg => if op.negates then .deliver (infinityDouble (!neg)) false false false
                       else .deliver (infinityDouble neg) false false false
    | .finite z =>
      let o := deliverExact p f fmt (sources.any isDenormalized) z
      if op.negates then o.negated else o

/-- `frsp` of a pattern (R212): zeros, infinities and single-precision values are not altered; a NaN loses its 29
low-order fraction bits, an SNaN being an invalid operation and quieted; any other number is rounded to single, a
denormalized operand invoking the envelope first (R271). -/
def frspOutcome (p : Platform) (f : Fpscr) (d : Double) : FpOutcome :=
  match doubleClass d with
  | .zero _ => .deliver d false false false
  | .infinity _ => .deliver d false false false
  | .nan =>
    let cut : Double := d.extractLsb 63 29 ++ 0#29
    if isSNaN d then deliverInvalid p f .single (quieted cut) else .deliver cut false false false
  | .denormalized _ =>
    if p.fpEnvelope ≠ .ieee then .assist else deliverExact p f .single true (doubleValue d)
  | .normalized _ =>
    if reprSingle d then .deliver d false false false else deliverExact p f .single false (doubleValue d)

/-! ### From an outcome to a state -/

/-- The FPSCR after an instruction that delivers a result: FR, FI, XX, and the free status bits. -/
def fpscrDelivered (f : Fpscr) (free : Word) (fr fi inexact : Bool) : Fpscr :=
  (f.withFreeStatus free).withRounding fr fi inexact

/-- The FPSCR after the signed zero of non-IEEE mode: XX is kept, FR and FI are free (R272, 93 Part 2). -/
def fpscrFlushed (f : Fpscr) (free : Word) : Fpscr :=
  { f.withFreeStatus free with fr := manualBit free 13, fi := manualBit free 14 }

/-- The FPSCR after a result that R217 calls undefined: every status bit is free. -/
def fpscrFree (f : Fpscr) (free : Word) : Fpscr :=
  { f.withFreeStatus free with fr := manualBit free 13, fi := manualBit free 14, xx := manualBit free 6 }

/-- The FPSCR after a result that the spec does not state: every status bit is free, XX staying set if it was (R29). -/
def fpscrUnstated (f : Fpscr) (free : Word) : Fpscr :=
  { f.withFreeStatus free with fr := manualBit free 13, fi := manualBit free 14, xx := f.xx || manualBit free 6 }

/-- A free value of a format in an FPR, of this sign if one is given: for single precision one that R218 and R219 allow. -/
def unstatedResult (n : Nat) (fmt : Format) (sign : Option Bool) : Double :=
  match fmt with
  | .single =>
    let w := Config.drawWord n
    singleToDouble (BitVec.ofBool (sign.getD (w.getLsbD 31)) ++ w.extractLsb 30 0)
  | .double =>
    let d := Config.drawDouble n
    BitVec.ofBool (sign.getD (d.getLsbD 63)) ++ d.extractLsb 62 0

/-- The state with a floating-point result, a new FPSCR and, for a recording form, a new CR1. -/
def State.withFpResult (s : State) (frD : Reg) (d : Double) (f : Fpscr) (cr1 : Option (BitVec 4)) : State :=
  let t := s.writeFpr frD d
  let u := match cr1 with
    | some v => t.writeCrField 1 v
    | none => t
  { u with fpscr := f, draws := s.draws + 1 }

/-- What an outcome does: the target register, the FPSCR, and with the record bit CR1 a copy of FPSCR{0:3} (R212), free
where R217 says so. -/
def State.applyFp (s : State) (frD : Reg) (rc : Bool) : FpOutcome → Access State
  | .deliver d fr fi inexact =>
    let f := fpscrDelivered s.fpscr (Config.drawStatus s.draws) fr fi inexact
    .ok (s.withFpResult frD d f (if rc then some f.summary else none))
  | .flush d =>
    let f := fpscrFlushed s.fpscr (Config.drawStatus s.draws)
    .ok (s.withFpResult frD d f (if rc then some f.summary else none))
  | .free =>
    .ok (s.withFpResult frD (Config.drawDouble s.draws) (fpscrFree s.fpscr (Config.drawStatus s.draws))
      (if rc then some (Config.drawField s.draws) else none))
  | .unstated fmt sign =>
    let f := fpscrUnstated s.fpscr (Config.drawStatus s.draws)
    .ok (s.withFpResult frD (unstatedResult s.draws fmt sign) f (if rc then some f.summary else none))
  | .assist => .raise .floatAssist

/-- The class of floating-point arithmetic instructions on registers (R214, R216, R263): `w` is the instruction's word.
The opcode table has no row for them (91 N26). -/
def fpArithmetic (fmt : Format) (op : FpOp) (frD frA frB frC : Reg) (rc : Bool) (w : Word) (s : State) :
    Host.Outcome State Fault Refusal :=
  s.finish w (s.applyFp frD rc
    (arithOutcome s.platform s.fpscr fmt op (s.readFpr frA) (s.readFpr frB) (s.readFpr frC)))

end Sys2Proof.Machine
end

