-- ==== Sys2Proof/Machine/Forms.lean ====
section
/-! DEFINITION. Register sequences and the invalid forms of the update, multiple and string instructions
(spec/40_load_store_single_multiple_string.md R122, R126, R127, R130,
R131). -/

namespace Sys2Proof.Machine

/-- How many registers a string of `n` bytes fills, four bytes to a register (R130). -/
def stringRegCount (n : Nat) : Nat := (n + 3) / 4

/-- Whether `r` is one of the `count` registers that start at `first` and wrap from r31 to r0 (R130). -/
def inStringRange (first : Reg) (count : Nat) (r : Reg) : Bool := decide ((r - first).toNat < count)

/-- Whether `r` is one of the registers `first` to r31 (R126). -/
def inMultipleRange (first r : Reg) : Bool := decide (first.toNat ≤ r.toNat)

/-- The byte count of `lswi` and `stswi`: NB, with 0 meaning 32 (R108). -/
def stringCount (nb : BitVec 5) : Nat := if nb = 0 then 32 else nb.toNat

/-- `lwzux` with rA = 0 or rA = rD is an invalid form (R122). -/
def lwzuxValid (rD rA : Reg) : Bool := rA != 0 && rA != rD

/-- A multiple with rA in the range of its first register to 31 is an invalid form (R126; for `stmw` R127 and 93 Part 3,
notes/assumptions/50). -/
def multipleValid (first rA : Reg) : Bool := !inMultipleRange first rA

/-- `lswi` with rA in the range of registers to be loaded is an invalid form (R130). -/
def lswiValid (rD rA : Reg) (nb : BitVec 5) : Bool :=
  !inStringRange rD (stringRegCount (stringCount nb)) rA

/-- `lswx` (and `lscbx`, which loads bytes as it does) with rA or rB in the range of the registers that `n` bytes
load is an invalid form (R131, R134). -/
def lswxValid (rD rA rB : Reg) (n : Nat) : Bool :=
  !inStringRange rD (stringRegCount n) rA && !inStringRange rD (stringRegCount n) rB

end Sys2Proof.Machine
end

