-- ==== Sys2Proof/Machine/LoadStore.lean ====
section
/-! DEFINITION. Single-register loads and stores, fixed-point and floating-point, and `frsp`
(spec/40_load_store_single_multiple_string.md R120 to R124; spec/43_fp_data_handling.md R210 to R213). -/

namespace Sys2Proof.Machine

/-- How a loaded value is widened to a general register (R120). -/
inductive Widening where
  | zero
  | sign
  deriving DecidableEq, Repr

/-- A loaded value widened to a general register: zero extension for `lbz`, `lhz`, `lwz`, sign extension for `lha`
(R120). -/
def widen {k : Nat} (ext : Widening) (v : BitVec k) : Word :=
  match ext with
  | .zero => v.setWidth 32
  | .sign => v.signExtend 32

/-- A single-register load of `n` bytes into a general register (R120). -/
def State.loadGpr (s : State) (w ea : Word) (n : Nat) (ext : Widening) (rD : Reg) : Access State :=
  match s.memRead w ea n with
  | .ok v => .ok (s.writeGpr rD (widen ext v))
  | .raise e => .raise e
  | .refuse r => .refuse r

/-- The base register an update form writes: the unmodified effective address (R124). A class without a row does not refuse
an update form whose base is its target or register 0, which the spec calls invalid for `lwzux` alone: DESIGN CHOICE,
unsafe (notes/assumptions/49). -/
def State.updateBase (s : State) (base : Option Reg) (ea : Word) : State :=
  match base with
  | some rA => s.writeGpr rA ea
  | none => s

/-- Ends a load or store with its base update, if the form has one. -/
def State.finishUpdate (s : State) (w : Word) (base : Option Reg) (ea : Word) :
    Access State → Host.Outcome State Fault Refusal
  | .ok t => (t.updateBase base ea).advance
  | .raise e => s.raise w e
  | .refuse r => .refused r

/-- The class of single-register loads of 1, 2 and 4 bytes into a general register (R120, R124): `w` is the instruction's
word, `ea` the effective address it computes. With update into its own target the effective address is what stays there:
DESIGN CHOICE, unsafe (notes/assumptions/49). -/
def loadSingle (n : Nat) (ext : Widening) (rD : Reg) (base : Option Reg) (ea w : Word) (s : State) :
    Host.Outcome State Fault Refusal :=
  s.finishUpdate w base ea (s.loadGpr w ea n ext rD)

/-- The class of single-register stores of 1, 2 and 4 bytes: the low-order bytes of a general register (R121, R124). -/
def storeSingle (n : Nat) (rS : Reg) (base : Option Reg) (ea w : Word) (s : State) :
    Host.Outcome State Fault Refusal :=
  s.finishUpdate w base ea (s.memWrite w ea n (s.readGpr rS))

/-- `lwzux rD, rA, rB` (R122): load, then the unmodified effective address to rA (R124); rA = 0 and rA = rD are invalid
forms. -/
def execLwzux (rD rA rB : Reg) (s : State) : Host.Outcome State Fault Refusal :=
  let w := encode (.lwzux rD rA rB)
  let ea := s.eaUpdateIndexed rA rB
  if !lwzuxValid rD rA then .refused (.invalidForm w)
  else s.finishUpdate w (some rA) ea (s.loadGpr w ea 4 .zero rD)

/-- `stw rS, d(rA)` (R123). -/
def execStw (rS rA : Reg) (d : BitVec 16) (s : State) : Host.Outcome State Fault Refusal :=
  let w := encode (.stw rS rA d)
  s.finish w (s.memWrite w (s.eaDisp rA d) 4 (s.readGpr rS))

/-- `lfs frD, d(rA)` (R210): the word converted to double format; no floating-point exception, no FPSCR change (R288). -/
def execLfs (frD rA : Reg) (d : BitVec 16) (s : State) : Host.Outcome State Fault Refusal :=
  let w := encode (.lfs frD rA d)
  match s.memRead w (s.eaDisp rA d) 4 with
  | .ok v => (s.writeFpr frD (singleToDouble v)).advance
  | .raise e => s.finish w (.raise e)
  | .refuse r => s.finish w (.refuse r)

/-- The word `stfs` stores for a pattern (R211): the single of the same value where there is one, else the free word
that the state draws next (D13). -/
def State.stfsWord (s : State) (d : Double) : Word :=
  if reprSingle d then doubleToSingle d else Config.drawWord s.draws

/-- The state after the free word, if one is needed, is drawn (R211). -/
def State.stfsDrawn (s : State) (d : Double) : State := if reprSingle d then s else { s with draws := s.draws + 1 }

/-- `stfs frS, d(rA)` (R211). -/
def execStfs (frS rA : Reg) (d : BitVec 16) (s : State) : Host.Outcome State Fault Refusal :=
  let w := encode (.stfs frS rA d)
  let v := s.readFpr frS
  match s.memWrite w (s.eaDisp rA d) 4 (s.stfsWord v) with
  | .ok t => (t.stfsDrawn v).advance
  | .raise e => s.finish w (.raise e)
  | .refuse r => s.finish w (.refuse r)

/-- `frsp frD, frB` (R212). -/
def execFrsp (frD frB : Reg) (rc : Bool) (s : State) : Host.Outcome State Fault Refusal :=
  s.finish (encode (.frsp frD frB rc)) (s.applyFp frD rc (frspOutcome s.platform s.fpscr (s.readFpr frB)))

/-- The class of double-precision loads, with and without update (R124, R213): the 64 bits unaltered; `w` is the
instruction's word. -/
def loadDouble (frD : Reg) (base : Option Reg) (ea w : Word) (s : State) : Host.Outcome State Fault Refusal :=
  s.finishUpdate w base ea
    (match s.memRead w ea 8 with
    | .ok v => .ok (s.writeFpr frD v)
    | .raise e => .raise e
    | .refuse r => .refuse r)

/-- The class of double-precision stores, with and without update (R124, R213). -/
def storeDouble (frS : Reg) (base : Option Reg) (ea w : Word) (s : State) : Host.Outcome State Fault Refusal :=
  s.finishUpdate w base ea (s.memWrite w ea 8 (s.readFpr frS))

end Sys2Proof.Machine
end

