-- ==== Sys2Proof/Machine/Multiple.lean ====
section
/-! DEFINITION. Load and store multiple (spec/40_load_store_single_multiple_string.md R125 to R127). -/

namespace Sys2Proof.Machine

/-- `count` words from `ea` on into the registers from `r` on (R126). -/
def State.loadWords (s : State) (w ea : Word) (r : Reg) : Nat → Access State
  | 0 => .ok s
  | count + 1 =>
    match s.memRead w ea 4 with
    | .ok v => (s.writeGpr r v).loadWords w (ea + 4) (r + 1) count
    | .raise e => .raise e
    | .refuse x => .refuse x

/-- The registers from `r` on into `count` words from `ea` on (R127). -/
def State.storeWords (s : State) (w ea : Word) (r : Reg) : Nat → Access State
  | 0 => .ok s
  | count + 1 =>
    match s.memWrite w ea 4 (s.readGpr r) with
    | .ok t => t.storeWords w (ea + 4) (r + 1) count
    | .raise e => .raise e
    | .refuse x => .refuse x

/-- How many registers a multiple instruction moves: `first` to r31 (R126). -/
def multipleCount (first : Reg) : Nat := 32 - first.toNat

/-- The checks of a multiple instruction whose first register is `first`, and then its transfer (R126, R127): always the
alignment exception in little-endian mode; in big-endian mode the invalid form, the alignment exception at an address that
is not a multiple of four, the end of the address space. The order is notes/assumptions/29. -/
def State.finishMultiple (s : State) (w ea : Word) (first rA : Reg) (transfer : Access State) :
    Host.Outcome State Fault Refusal :=
  if s.littleEndian then s.finish w (.raise (.alignment ea))
  else if !multipleValid first rA then .refused (.invalidForm w)
  else if !aligned ea 4 then s.finish w (.raise (.alignment ea))
  else if ea.toNat + 4 * multipleCount first > 2 ^ 32 then .refused (.operandPastEnd ea (4 * multipleCount first))
  else s.finish w transfer

/-- `lmw rD, d(rA)` (R126); rA in the range rD to 31 is an invalid form. -/
def execLmw (rD rA : Reg) (d : BitVec 16) (s : State) : Host.Outcome State Fault Refusal :=
  let w := encode (.lmw rD rA d)
  let ea := s.eaDisp rA d
  s.finishMultiple w ea rD rA (s.loadWords w ea rD (multipleCount rD))

/-- `stmw rS, d(rA)` (R127), its corner cases those of R126: rA in the range rS to 31 is an invalid form, R126's rD being
rS here (DEDUCED, notes/assumptions/50). -/
def execStmw (rS rA : Reg) (d : BitVec 16) (s : State) : Host.Outcome State Fault Refusal :=
  let w := encode (.stmw rS rA d)
  let ea := s.eaDisp rA d
  s.finishMultiple w ea rS rA (s.storeWords w ea rS (multipleCount rS))

end Sys2Proof.Machine
end

