-- ==== Sys2Proof/Machine/StringOps.lean ====
section
/-! DEFINITION. The string (move assist) instructions (spec/40_load_store_single_multiple_string.md R129 to R135). -/

namespace Sys2Proof.Machine

/-- One byte of a string at the unwrapped address `a` (R66 with n = 1, R91). -/
def State.stringByte (s : State) (w : Word) (a : Nat) : Access Byte :=
  if 2 ^ 32 ≤ a then .refuse (.operandPastEnd (BitVec.ofNat 32 a) 1) else s.memRead w (BitVec.ofNat 32 a) 1

/-- `n` bytes from address `a` on, in order (R130). -/
def State.readString (s : State) (w : Word) (a : Nat) : Nat → Access (List Byte)
  | 0 => .ok []
  | n + 1 =>
    match s.stringByte w a with
    | .ok v =>
      match s.readString w (a + 1) n with
      | .ok rest => .ok (v :: rest)
      | .raise e => .raise e
      | .refuse r => .refuse r
    | .raise e => .raise e
    | .refuse r => .refuse r

/-- Up to `n` bytes from address `a` on, ending after a byte equal to `key` (R134). -/
def State.readStringUntil (s : State) (w : Word) (key : Byte) (a : Nat) : Nat → Access (List Byte)
  | 0 => .ok []
  | n + 1 =>
    match s.stringByte w a with
    | .ok v =>
      if v = key then .ok [v]
      else
        match s.readStringUntil w key (a + 1) n with
        | .ok rest => .ok (v :: rest)
        | .raise e => .raise e
        | .refuse r => .refuse r
    | .raise e => .raise e
    | .refuse r => .refuse r

/-- `x[r][31-8i : 24-8i] <- v` (R130): byte `i` of a register, 0 the most significant, the other bytes kept. -/
def setRegByte (x : Word) (i : Nat) (v : Byte) : Word :=
  (x &&& ~~~((0xFF : Word) <<< (24 - 8 * i))) ||| (v.setWidth 32 <<< (24 - 8 * i))

/-- `x[r][31-8i : 24-8i]` (R132): byte `i` of a register, 0 the most significant. -/
def regByte (x : Word) (i : Nat) : Byte := x.extractLsb' (24 - 8 * i) 8

/-- The loop of R130 over the bytes of a string: `r` is the current register and `i` the byte inside it; a register is
cleared when its first byte arrives, and the sequence wraps from r31 to r0. -/
def State.fillRegs (s : State) (r : Reg) (i : Nat) : List Byte → State
  | [] => s
  | v :: rest =>
    let r' := if i = 0 then r + 1 else r
    let x := if i = 0 then 0 else s.readGpr r'
    (s.writeGpr r' (setRegByte x i v)).fillRegs r' ((i + 1) % 4) rest

/-- A string's bytes into the registers from rD on (R130: `r <- rD - 1; i <- 0`). -/
def State.loadString (s : State) (rD : Reg) (bytes : List Byte) : State := s.fillRegs (rD - 1) 0 bytes

/-- Byte `k` of the string in the registers from rS on (R132). -/
def State.stringSource (s : State) (rS : Reg) (k : Nat) : Byte :=
  regByte (s.readGpr (rS + BitVec.ofNat 5 (k / 4))) (k % 4)

/-- The loop of R132: bytes `k` to `k + n - 1` of `src`'s registers stored from address `a` on. -/
def State.writeString (s : State) (w : Word) (src : State) (rS : Reg) (k a : Nat) : Nat → Access State
  | 0 => .ok s
  | n + 1 =>
    if 2 ^ 32 ≤ a then .refuse (.operandPastEnd (BitVec.ofNat 32 a) 1)
    else
      match s.memWrite w (BitVec.ofNat 32 a) 1 (src.stringSource rS k) with
      | .ok t => t.writeString w src rS (k + 1) (a + 1) n
      | .raise e => .raise e
      | .refuse r => .refuse r

/-- `lswi rD, rA, NB` (R130). -/
def execLswi (rD rA : Reg) (nb : BitVec 5) (s : State) : Host.Outcome State Fault Refusal :=
  let w := encode (.lswi rD rA nb)
  let ea := s.baseOrZero rA
  if s.littleEndian then s.finish w (.raise (.alignment ea))
  else if !lswiValid rD rA nb then .refused (.invalidForm w)
  else
    match s.readString w ea.toNat (stringCount nb) with
    | .ok bytes => (s.loadString rD bytes).advance
    | .raise e => s.finish w (.raise e)
    | .refuse r => s.finish w (.refuse r)

/-- The target of an indexed string load of no bytes: rD is undefined, a free value (R131). -/
def State.loadNothing (s : State) (rD : Reg) : State :=
  { s.writeGpr rD (Config.drawWord s.draws) with draws := s.draws + 1 }

/-- `lswx rD, rA, rB` (R131): as `lswi`, the count in XER{25:31}. -/
def execLswx (rD rA rB : Reg) (s : State) : Host.Outcome State Fault Refusal :=
  let w := encode (.lswx rD rA rB)
  let ea := s.eaIndexed rA rB
  let n := xerCount s.xer
  if s.littleEndian then s.finish w (.raise (.alignment ea))
  else if n = 0 then (s.loadNothing rD).advance
  else if !lswxValid rD rA rB n then .refused (.invalidForm w)
  else
    match s.readString w ea.toNat n with
    | .ok bytes => (s.loadString rD bytes).advance
    | .raise e => s.finish w (.raise e)
    | .refuse r => s.finish w (.refuse r)

/-- `stswi rS, rA, NB` (R132). -/
def execStswi (rS rA : Reg) (nb : BitVec 5) (s : State) : Host.Outcome State Fault Refusal :=
  let w := encode (.stswi rS rA nb)
  let ea := s.baseOrZero rA
  if s.littleEndian then s.finish w (.raise (.alignment ea))
  else s.finish w (s.writeString w s rS 0 ea.toNat (stringCount nb))

/-- `stswx rS, rA, rB` (R133): as `stswi`, the count in XER{25:31}; a count of 0 stores nothing. -/
def execStswx (rS rA rB : Reg) (s : State) : Host.Outcome State Fault Refusal :=
  let w := encode (.stswx rS rA rB)
  let ea := s.eaIndexed rA rB
  if s.littleEndian then s.finish w (.raise (.alignment ea))
  else s.finish w (s.writeString w s rS 0 ea.toNat (xerCount s.xer))

/-- What `lscbx` writes beside the loaded registers (R134): the number of bytes loaded to XER{25:31}, and with the
record bit the equal bit of CR0 to whether a byte matched. -/
def State.lscbxResult (s : State) (count : Nat) (found rc : Bool) : State :=
  let t := { s with xer := xerSetCount s.xer count }
  if rc then
    t.writeCrField 0 (crBits ((crField s.cr 0).getLsbD 3) ((crField s.cr 0).getLsbD 2) found ((crField s.cr 0).getLsbD 0))
  else t

/-- `lscbx rD, rA, rB` (R134): in little-endian mode the alignment exception; in big-endian mode, where the processor
has the instruction, bytes are loaded as `lswx` does, ending after one equal to XER{16:23}. -/
def execLscbx (rD rA rB : Reg) (rc : Bool) (s : State) : Host.Outcome State Fault Refusal :=
  let w := encode (.lscbx rD rA rB rc)
  let ea := s.eaIndexed rA rB
  let n := xerCount s.xer
  let key := xerCompareByte s.xer
  if s.littleEndian then s.finish w (.raise (.alignment ea))
  else if !s.platform.lscbxPresent then .refused .lscbxAbsent
  else if n = 0 then ((s.loadNothing rD).lscbxResult 0 false rc).advance
  else if !lswxValid rD rA rB n then .refused (.invalidForm w)
  else
    match s.readStringUntil w key ea.toNat n with
    | .ok bytes => ((s.loadString rD bytes).lscbxResult bytes.length (bytes.contains key) rc).advance
    | .raise e => s.finish w (.raise e)
    | .refuse r => s.finish w (.refuse r)

end Sys2Proof.Machine
end

