-- ==== Sys2Proof/Machine/System.lean ====
section
/-! DEFINITION. Special-register and machine-state instructions (spec/41_branch_and_other_named_instructions.md R162;
spec/60_exceptions.md R290; spec/70_reset_and_hazards.md R301). -/

namespace Sys2Proof.Machine

/-- The processor is at user level: MSR.PR = 1, where the launch has levels at all (R294, D18). -/
def State.userLevel (s : State) : Bool := s.platform.privilegeLevels && msrPr s.msr

/-- FPSCR access is denied: MSR.FP = 0, where the launch has the check (R294, D18). -/
def State.fpscrDenied (s : State) : Bool := s.platform.privilegeLevels && !msrFp s.msr

/-- `mtspr SPR, rS` (R162): `SPR(n) <- x[rS]`; at user level a supervisor-level SPR takes the
privileged-instruction program exception. -/
def execMtspr (spr : BitVec 10) (rS : Reg) (s : State) : Host.Outcome State Fault Refusal :=
  let w := encode (.mtspr spr rS)
  if s.userLevel && sprSupervisor spr then s.finish w (.raise .privileged)
  else (s.writeSpr spr (s.readGpr rS)).advance

/-! ### Classes that no row of the opcode table names (C5, R290, R299; notes/assumptions/18) -/

/-- What `mtmsr rS` does (R162, R301): the MSR from a register, at supervisor level. A write that would change LE is
refused where the launch fixes the byte order (R90, R313, D10); else it governs the next fetch. -/
def moveToMsr (rS : Reg) (w : Word) (s : State) : Host.Outcome State Fault Refusal :=
  if s.userLevel then s.finish w (.raise .privileged)
  else if msrLe (s.readGpr rS) != msrLe s.msr && !s.platform.leWritable then
    .refused (.littleEndianChange (s.readGpr rS))
  else ({ s with msr := s.readGpr rS } : State).advance

/-- What `mfmsr rD` does (R162). -/
def moveFromMsr (rD : Reg) (w : Word) (s : State) : Host.Outcome State Fault Refusal :=
  if s.userLevel then s.finish w (.raise .privileged) else (s.writeGpr rD s.msr).advance

/-- What `rfi` does (R290), at supervisor level: it writes the MSR (R294). -/
def returnFromInterrupt (w : Word) (s : State) : Host.Outcome State Fault Refusal :=
  if s.userLevel then s.finish w (.raise .privileged) else .next s.returnFromException

/-- The class of moves from the FPSCR (R299): its word in the low half of an FPR, the high half free
(notes/assumptions/46). -/
def moveFromFpscr (frD : Reg) (s : State) : Host.Outcome State Fault Refusal :=
  if s.fpscrDenied then .refused .fpscrUnavailable
  else
    ({ s.writeFpr frD (Config.drawWord s.draws ++ s.fpscr.toWord) with draws := s.draws + 1 } : State).advance

/-- The class of moves to the FPSCR (R299): the bits of `mask` from `v`, the others kept (notes/assumptions/46). -/
def moveToFpscr (mask v : Word) (s : State) : Host.Outcome State Fault Refusal :=
  if s.fpscrDenied then .refused .fpscrUnavailable
  else ({ s with fpscr := Fpscr.ofWord ((s.fpscr.toWord &&& ~~~mask) ||| (v &&& mask)) } : State).advance

end Sys2Proof.Machine
end

