-- ==== Sys2Proof/Machine/Dispatch.lean ====
section
/-! DEFINITION. The dispatch: one arm per instruction, each one call of its meaning. -/

namespace Sys2Proof.Machine

def exec (i : Instr) (s : State) : Host.Outcome State Fault Refusal :=
  match i with
  | .cmplwi crfD rA uimm => Sys2Proof.Machine.execCmplwi crfD rA uimm s
  | .subi rD rA simm => Sys2Proof.Machine.execSubi rD rA simm s
  | .beq crf bd => Sys2Proof.Machine.execBeq crf bd s
  | .b li => Sys2Proof.Machine.execB li s
  | .lwzux rD rA rB => Sys2Proof.Machine.execLwzux rD rA rB s
  | .add rD rA rB rc => Sys2Proof.Machine.execAdd rD rA rB rc s
  | .lscbx rD rA rB rc => Sys2Proof.Machine.execLscbx rD rA rB rc s
  | .mtspr spr rS => Sys2Proof.Machine.execMtspr spr rS s
  | .lswx rD rA rB => Sys2Proof.Machine.execLswx rD rA rB s
  | .lswi rD rA nb => Sys2Proof.Machine.execLswi rD rA nb s
  | .stswx rS rA rB => Sys2Proof.Machine.execStswx rS rA rB s
  | .stswi rS rA nb => Sys2Proof.Machine.execStswi rS rA nb s
  | .stw rS rA d => Sys2Proof.Machine.execStw rS rA d s
  | .lmw rD rA d => Sys2Proof.Machine.execLmw rD rA d s
  | .stmw rS rA d => Sys2Proof.Machine.execStmw rS rA d s
  | .lfs frD rA d => Sys2Proof.Machine.execLfs frD rA d s
  | .stfs frS rA d => Sys2Proof.Machine.execStfs frS rA d s
  | .frsp frD frB rc => Sys2Proof.Machine.execFrsp frD frB rc s

end Sys2Proof.Machine
end

