-- ==== Sys2Proof/Machine/Launch.lean ====
section
/-! DEFINITION. Placing a program and launching a run from outside the machine (spec/20_memory.md R72, R74;
spec/70_reset_and_hazards.md R303; 92_eei_decisions.md D16, D19). -/

namespace Sys2Proof.Machine

/-- A byte that the host, or a device, writes at physical address `a`: no store of the machine's, so it does not count
as stored, and `mem_region` is made to hold it (R74, R303). -/
def State.hostByte (s : State) (a : Nat) (v : Byte) : State :=
  { s with
    mem := memoryWrite s.mem a v,
    stored := sparseSet false s.stored a false,
    platform := if s.platform.mapped a then s.platform
      else { s.platform with memRegion := ⟨a, 1⟩ :: s.platform.memRegion } }

/-- Bytes the host writes from physical address `a` on. -/
def State.hostBytes (s : State) (a : Nat) : List Byte → State
  | [] => s
  | v :: rest => (s.hostByte a v).hostBytes (a + 1) rest

/-- The host places a byte stream for the program address `b`, byte by byte: at `b + i` in big-endian mode, at
`(b + i) xor 7` in little-endian mode (R74, D19). -/
def State.placeStream (s : State) (b : Word) : List Byte → State
  | [] => s
  | v :: rest => (s.hostByte (if s.littleEndian then littleEndianByte b else b).toNat v).placeStream (b + 1) rest

/-- The host places an instruction word for the instruction address `a`: at `a`, or at `a xor 4` in little-endian mode,
the most significant byte first (R72, D19). -/
def State.placeWord (s : State) (a w : Word) : State := s.hostBytes (s.fetchAddress a).toNat (wordBytes w)

/-- The launch state a caller gives (R303, D16): a word address for `pc` and for the end, which are multiples of four,
the byte order, the MSR, the FPSCR, whichever registers the caller declares, the parameters, and what the host places in
memory. A register not declared holds its reset value (notes/assumptions/1). -/
structure Launch where
  pcWord : BitVec 30
  endWord : BitVec 30
  littleEndian : Bool
  ile : Bool
  /-- The other bits of the MSR (91 N18); its bits 31 and 15, LE and ILE, are the two fields above. -/
  msr : Word
  fpscr : Fpscr
  cr : Word
  regs : List (Reg × Word)
  fregs : List (Reg × Double)
  /-- Special-purpose registers by number: XER, LR, CTR, SRR0, SRR1 among them (91 N18). -/
  sprs : List (BitVec 10 × Word)
  platform : Platform
  words : List (Word × Word)
  streams : List (Word × List Byte)

/-- The MSR a launch gives: LE and ILE by their own fields, the other bits as declared (R303, 91 N18). -/
def Launch.msrValue (l : Launch) : Word :=
  (l.msr &&& ~~~0x00010001) ||| (if l.littleEndian then 1 else 0) ||| (if l.ile then 0x00010000 else 0)

/-- The address whose word number is `n` (R24, R303). -/
def wordAddress (n : BitVec 30) : Word := n ++ 0#2

/-- The state a launch starts from: the given fields over the reset state (R303). -/
def Launch.state (l : Launch) : State :=
  let base : State :=
    { State.reset with
      pc := wordAddress l.pcWord,
      msr := l.msrValue,
      fpscr := l.fpscr,
      cr := l.cr,
      platform := l.platform }
  let withRegs := l.regs.foldl (fun s p => s.writeGpr p.1 p.2) base
  let withFregs := l.fregs.foldl (fun s p => s.writeFpr p.1 p.2) withRegs
  let withSprs := l.sprs.foldl (fun s p => s.writeSpr p.1 p.2) withFregs
  let withStreams := l.streams.foldl (fun s p => s.placeStream p.1 p.2) withSprs
  l.words.foldl (fun s p => s.placeWord p.1 p.2) withStreams

end Sys2Proof.Machine
end

