-- ==== Sys2Proof/Machine/Step.lean ====
section
/-! DEFINITION. One step: fetch, decode, execute (spec/20_memory.md R70, R71; spec/30_encoding.md R101, R110). -/

namespace Sys2Proof.Machine

/-- One step of the machine. -/
def step (s : State) : Host.Outcome State Fault Refusal :=
  match s.fetch with
  | .fault f => .fault f
  | .refuse r => .refused r
  | .word w =>
    match decodeWord w with
    | some i => exec i s
    | none => .refused (.notInTable w)

/-- `s` with the instruction whose bits are `w` (the bits from `nbits` up are 0) where the next step fetches. -/
def State.withFetchWord (s : State) (nbits w : Nat) : State := s.placeWord s.pc (BitVec.ofNat 32 (w % 2 ^ nbits))

end Sys2Proof.Machine
end

