-- ==== Sys2Proof/Machine/FloatConvert.lean ====
section
/-! DEFINITION. The classes of floating-point comparisons and of conversions to and from integer, which Section 3 names
and no row of the opcode table holds (spec/30_encoding.md R103; spec/42_fp_data_formats.md R177, R184, R187;
spec/43_fp_data_handling.md R204; spec/44_fp_rounding_and_execution_models.md R230, R231). What the spec does not say of
them is notes/assumptions/48. -/

namespace Sys2Proof.Machine

/-! ### Comparisons -/

/-- What a comparison comes to. -/
inductive CompareOutcome where
  /-- Less, greater, equal, and whether the invalid operation exception is signaled. -/
  | field (lt gt eq invalid : Bool)
  /-- A comparison the spec gives no result: all four bits of the field are free. -/
  | unstated
  | assist
  deriving DecidableEq, Repr

/-- A comparison of two patterns: by value (R177, R181, R183); a NaN is related to nothing. An SNaN signals the invalid
operation exception, and so does a QNaN in an ordered comparison (R184, R186, R187). Enabled, it invokes the envelope (R286); under
`fp_envelope = ieee` what the field then holds is not in the source (R186, 91 N10, N28) and free: DESIGN CHOICE
(notes/assumptions/48). Disabled, the field says that no relation holds: DESIGN CHOICE, unsafe (notes/assumptions/48). -/
def compareOutcome (p : Platform) (f : Fpscr) (ordered : Bool) (a b : Double) : CompareOutcome :=
  let invalid := isSNaN a || isSNaN b || (ordered && (isNaN a || isNaN b))
  if invalid && f.ve then (if p.fpEnvelope = .ieee then .unstated else .assist)
  else .field (fpOrder a b == some .lt) (fpOrder a b == some .gt) (fpOrder a b == some .eq) invalid

/-- The state with a comparison's field, the FPSCR status bits free but for FR, FI and XX, which stay (R231). -/
def State.withComparison (s : State) (crfD : BitVec 3) (v : BitVec 4) : State :=
  { s.writeCrField crfD v with
    fpscr := s.fpscr.withFreeStatus (Config.drawStatus s.draws)
    draws := s.draws + 1 }

/-- The class of comparisons: field CR`crfD` gets less, greater, equal, and a free fourth bit. -/
def fpCompare (ordered : Bool) (crfD : BitVec 3) (frA frB : Reg) (w : Word) (s : State) :
    Host.Outcome State Fault Refusal :=
  let free := Config.drawField s.draws
  match compareOutcome s.platform s.fpscr ordered (s.readFpr frA) (s.readFpr frB) with
  | .field lt gt eq _ => (s.withComparison crfD (crBits lt gt eq (free.getLsbD 0))).advance
  | .unstated => (s.withComparison crfD free).advance
  | .assist => s.finish w (.raise .floatAssist)

/-! ### Conversions -/

/-- What a conversion to integer comes to. -/
inductive ConvertOutcome where
  /-- The 32-bit integer, FR, FI, and whether the result is inexact. -/
  | deliver (v : Word) (fr fi inexact : Bool)
  /-- An invalid conversion with its exception disabled: an integer the spec does not state, of the operand's sign. -/
  | invalid (sign : Option Bool)
  | assist
  deriving DecidableEq, Repr

/-- The rounded number as a 32-bit two's complement integer, if it is one. -/
def integerOf (r : Rounded) : Option Word :=
  if r.neg then (if r.q ≤ 2 ^ 31 then some (-(BitVec.ofNat 32 r.q)) else none)
  else (if r.q < 2 ^ 31 then some (BitVec.ofNat 32 r.q) else none)

/-- An invalid conversion to integer (R184): with VE = 1 the envelope (R286), with VE = 0, and under `fp_envelope = ieee`,
an integer the spec does not state. -/
def convertInvalid (p : Platform) (f : Fpscr) (sign : Option Bool) : ConvertOutcome :=
  if f.ve && decide (p.fpEnvelope ≠ .ieee) then .assist else .invalid sign

/-- A conversion to integer: a NaN, an infinity and a number that rounds outside the 32-bit integers are invalid (R184,
R187); a denormalized operand invokes the envelope (R271); any other number is rounded (R230, R235), its sign that of
the operand (R204); an inexact result with XE = 1 invokes the envelope (R286). -/
def convertOutcome (p : Platform) (f : Fpscr) (mode : RoundMode) (d : Double) : ConvertOutcome :=
  match doubleClass d with
  | .nan => convertInvalid p f none
  | .infinity neg => convertInvalid p f (some neg)
  | _ =>
    if isDenormalized d && decide (p.fpEnvelope ≠ .ieee) then .assist
    else
      let r := roundToInteger mode (doubleValue d)
      match integerOf r with
      | none => convertInvalid p f (some r.neg)
      | some v =>
        if r.inexact && f.xe && decide (p.fpEnvelope ≠ .ieee) then .assist
        else .deliver v r.incremented r.inexact r.inexact

/-- The class of conversions to integer, by the rounding mode in the FPSCR or toward zero: the integer in the low half of
frD, the high half free. -/
def convertToInteger (towardZero : Bool) (frD frB : Reg) (rc : Bool) (w : Word) (s : State) :
    Host.Outcome State Fault Refusal :=
  let mode := if towardZero then .towardZero else roundMode s.fpscr.rn
  let high : Word := (Config.drawDouble s.draws).extractLsb 63 32
  let done (v : Word) (f : Fpscr) : Access State :=
    .ok (s.withFpResult frD (high ++ v) f (if rc then some f.summary else none))
  s.finish w
    (match convertOutcome s.platform s.fpscr mode (s.readFpr frB) with
    | .deliver v fr fi inexact => done v (fpscrDelivered s.fpscr (Config.drawStatus s.draws) fr fi inexact)
    | .invalid sign =>
      let v := Config.drawWord s.draws
      done (BitVec.ofBool (sign.getD (v.getLsbD 31)) ++ v.extractLsb 30 0)
        (fpscrDelivered s.fpscr (Config.drawStatus s.draws) false false false)
    | .assist => .raise .floatAssist)

/-- The exact number a 32-bit two's complement integer is. -/
def integerValue (v : Word) : Exact := ⟨v.msb, v.toInt.natAbs, 1⟩

/-- The class of conversions from integer: the low half of frB as a 32-bit integer, exactly, with its sign (R204). -/
def convertFromInteger (frD frB : Reg) (rc : Bool) (w : Word) (s : State) : Host.Outcome State Fault Refusal :=
  let z := integerValue ((s.readFpr frB).extractLsb 31 0)
  s.finish w (s.applyFp frD rc (.deliver (doubleOfScaled z.neg z.num 0) false false false))

end Sys2Proof.Machine
end

