-- ==== Sys2Proof/Safety.lean ====
section
/-! DEFINITION. What a run, its end and a safe run are (92_eei_decisions.md D24; spec/70_reset_and_hazards.md R303,
R304; spec/44_fp_rounding_and_execution_models.md R273), and the invariant every step keeps. -/

namespace Sys2Proof

/-- A run of at most `fuel` steps to an end address (D24): it ends in a final state when `pc` equals the end address,
before that word is fetched; none if a step stops or the fuel runs out. -/
def runTo (endAddr : Word) : Nat → Machine.State → Option Machine.State
  | 0, s => if s.pc = endAddr then some s else none
  | fuel + 1, s =>
    if s.pc = endAddr then some s
    else
      match Machine.step s with
      | .next t => runTo endAddr fuel t
      | .fault _ => none
      | .refused _ => none

/-- The run of a launch to the end address it gives (R303, D24). -/
def Machine.Launch.run (l : Machine.Launch) (fuel : Nat) : Option Machine.State :=
  runTo (Machine.wordAddress l.endWord) fuel l.state

/-- The numbers of the special-purpose registers that State holds under their own names (R162). -/
def namedSprNumbers : List Nat := [1, 8, 9, 18, 19, 26, 27]

/-- The state's own invariant: the instruction address is a multiple of four (R24); memory lists addresses of the
address space in canonical form (R32); the stored bytes are so too; the unnamed special registers are listed in
canonical form, under 10-bit numbers that no named register has. -/
def Machine.State.wf (s : Machine.State) : Bool :=
  Machine.aligned s.pc 4 &&
  (Machine.Memory.wf s.mem && s.mem.all (fun c => decide (c.1 < 2 ^ 32))) &&
  (Machine.sparseWf false s.stored && s.stored.all (fun c => decide (c.1 < 2 ^ 32))) &&
  (Machine.sparseWf 0 s.otherSpr && s.otherSpr.all (fun c => decide (c.1 < 2 ^ 10) && !namedSprNumbers.contains c.1))

/-- The condition of R273 under which the software envelope is never invoked, on the FPSCR: non-IEEE mode and every
exception disabled. -/
def Machine.State.envelopeFree (s : Machine.State) : Bool := s.fpscr.ni && s.fpscr.allDisabled

/-! ### The terms of the statements about instructions -/

/-- The general registers that `keep` holds of are unchanged. -/
def SameGprs (keep : Reg → Prop) (s t : Machine.State) : Prop := ∀ r, keep r → t.readGpr r = s.readGpr r

/-- The floating-point registers that `keep` holds of are unchanged. -/
def SameFprs (keep : Reg → Prop) (s t : Machine.State) : Prop := ∀ r, keep r → t.readFpr r = s.readFpr r

/-- Every bit of the condition register outside field CR`k` is unchanged (R26). -/
def SameCrBut (k : BitVec 3) (s t : Machine.State) : Prop :=
  ∀ i, i < 32 → i / 4 ≠ k.toNat → Machine.manualBit t.cr i = Machine.manualBit s.cr i

/-- Field CR`k` holds these four bits, LT, GT, EQ, SO from the left (R26, R158). -/
def CrFieldIs (t : Machine.State) (k : BitVec 3) (b0 b1 b2 b3 : Bool) : Prop :=
  Machine.manualBit t.cr (4 * k.toNat) = b0 ∧ Machine.manualBit t.cr (4 * k.toNat + 1) = b1 ∧
  Machine.manualBit t.cr (4 * k.toNat + 2) = b2 ∧ Machine.manualBit t.cr (4 * k.toNat + 3) = b3

/-- The link and count registers, the MSR, the exception registers, every unnamed special register and the launch
parameters are unchanged. -/
def SameSystem (s t : Machine.State) : Prop :=
  t.lr = s.lr ∧ t.ctr = s.ctr ∧ t.msr = s.msr ∧ t.srr0 = s.srr0 ∧ t.srr1 = s.srr1 ∧ t.dar = s.dar ∧
  t.dsisr = s.dsisr ∧ t.otherSpr = s.otherSpr ∧ t.platform = s.platform

/-- The test of the condition register by BO and BI, in the manual's numbering: BO{0} leaves it out, else CR{BI} equals
BO{1} (R152; notes/assumptions/51). -/
def ConditionMet (bo bi : BitVec 5) (cr : Word) : Prop :=
  bo.getLsbD 4 = true ∨ Machine.manualBit cr bi.toNat = bo.getLsbD 3

/-- The condition of a branch with BO and BI, on the count register after it counted down: the condition register passes
its test, and, unless BO{2} leaves it out, the count is zero exactly if BO{3} is one (R152; notes/assumptions/51). -/
def BranchTaken (bo bi : BitVec 5) (cr ctr : Word) : Prop :=
  ConditionMet bo bi cr ∧ (bo.getLsbD 2 = true ∨ (ctr = 0 ↔ bo.getLsbD 1 = true))

/-- The outcome `o` of a branch from `s`: to the target where it is taken, else to the next address; with link LR gets
the next address either way; CTR gets `ctr`; nothing else changes (R153). It is refused exactly where it needs the next
address at the last instruction address (R24, D17). -/
def GoesTo (s : Machine.State) (link : Bool) (ctr : Word) (taken : Prop) (target : Word)
    (o : Host.Outcome Machine.State Machine.Fault Machine.Refusal) : Prop :=
  (s.pc ≠ 0xFFFFFFFC ∨ (link = false ∧ taken) → ∃ t, o = .next t ∧ t.lr = (if link then s.pc + 4 else s.lr) ∧
    t.ctr = ctr ∧ (taken → t.pc = target) ∧ (¬ taken → t.pc = s.pc + 4) ∧
    t = { s with lr := t.lr, ctr := t.ctr, pc := t.pc }) ∧
  (s.pc = 0xFFFFFFFC ∧ (link = true ∨ ¬ taken) → o = .refused (.pcPastEnd s.pc))

/-- Every byte of memory outside the `n` bytes from `a` on reads as before. -/
def SameMemoryBut (a n : Nat) (s t : Machine.State) : Prop :=
  ∀ b, (b < a ∨ a + n ≤ b) → t.physRead b = s.physRead b

/-- Every byte of memory reads as before, and none has been stored to. -/
def SameMemory (s t : Machine.State) : Prop := (∀ b, t.physRead b = s.physRead b) ∧ t.stored = s.stored

/-- What an exception entry leaves alone beside special-purpose registers: every register, and memory (R281, D11). -/
def SameUnderException (s t : Machine.State) : Prop :=
  t.gpr = s.gpr ∧ t.fpr = s.fpr ∧ t.cr = s.cr ∧ t.fpscr = s.fpscr ∧ t.mem = s.mem ∧ t.stored = s.stored ∧
  t.draws = s.draws ∧ t.platform = s.platform

/-- The instruction address is the vector of one of the three exceptions, from the base MSR.IP selects (R289). -/
def AtVector (s t : Machine.State) : Prop :=
  ∃ o ∈ [s.platform.traps.alignmentOffset, s.platform.traps.privilegedOffset, s.platform.traps.floatAssistOffset],
    t.pc = ((if Machine.manualBit s.msr 25 then s.platform.traps.baseHigh else s.platform.traps.baseLow) + o) &&& ~~~3

/-- `t` is `s` after an exception entry, which the launch allows (R289, D11). -/
def EntersException (s t : Machine.State) : Prop :=
  ∃ w e, s.platform.stopsAt e = false ∧ t = s.takeException w e

/-- Register number `n` is one that exception entry saves into. -/
def SavedInto (s : Machine.State) (n : BitVec 10) : Prop :=
  n = s.platform.traps.saveAddress ∨ n = s.platform.traps.saveMsr

/-- The FPSCR fields that no instruction of the table writes: the enable bits, NI and RN (R29, R31). -/
def SameFpscrControls (s t : Machine.State) : Prop :=
  t.fpscr.ve = s.fpscr.ve ∧ t.fpscr.oe = s.fpscr.oe ∧ t.fpscr.ue = s.fpscr.ue ∧ t.fpscr.ze = s.fpscr.ze ∧
  t.fpscr.xe = s.fpscr.xe ∧ t.fpscr.ni = s.fpscr.ni ∧ t.fpscr.rn = s.fpscr.rn ∧ t.fpscr.reserved = s.fpscr.reserved

/-- What a floating-point instruction on registers leaves alone, and what its record bit does: with it CR1 holds
FPSCR{0:3}, without it the condition register is unchanged (R26, R212). -/
def FpFrame (frD : Reg) (rc : Bool) (s t : Machine.State) : Prop :=
  SameFprs (· ≠ frD) s t ∧ SameGprs (fun _ => True) s t ∧ SameFpscrControls s t ∧ t.xer = s.xer ∧
  (rc = false → t.cr = s.cr) ∧
  (rc = true → CrFieldIs t 1 t.fpscr.fx t.fpscr.fex t.fpscr.vx t.fpscr.ox ∧ SameCrBut 1 s t) ∧
  t.pc = s.pc + 4 ∧ SameSystem s t ∧ SameMemory s t

/-- The word at physical address `a`, its first byte the most significant (R57). -/
def wordAt (s : Machine.State) (a : Nat) : Word :=
  s.physRead a ++ s.physRead (a + 1) ++ s.physRead (a + 2) ++ s.physRead (a + 3)

/-- An access of `n` bytes at `ea` by the instruction whose word is `w` goes through: it takes no exception (R63, R65)
and lies inside the address space (R91) and `mem_region` (D7). -/
def accessible (s : Machine.State) (w ea : Word) (n : Nat) : Bool :=
  !s.accessRaises w ea n && decide ((s.physicalAddress ea n).toNat + n ≤ 2 ^ 32) &&
  s.platform.mappedRange (s.physicalAddress ea n).toNat n

/-- The `n` bytes from address `a` on lie inside the address space (R91) and `mem_region` (D7). -/
def plainBytes (s : Machine.State) (a n : Nat) : Bool := decide (a + n ≤ 2 ^ 32) && s.platform.mappedRange a n

/-- Register `r` is one that a string of `n` bytes starting at register `first` fills, in whole or in part (R130). -/
def StringFills (first : Reg) (n : Nat) (r : Reg) : Prop := ∃ j, j < n ∧ r = first + BitVec.ofNat 5 (j / 4)

/-- Byte `i` of a register, 0 the most significant: `x[31-8i : 24-8i]` (R130, R132). -/
def byteOf (x : Word) (i : Nat) : Byte := (x >>> (24 - 8 * i)).setWidth 8

/-- The registers from `first` on hold the string `l`, four bytes to a register, the last one filled with zeros
(R130). -/
def HoldsString (t : Machine.State) (first : Reg) (n : Nat) (l : Nat → Byte) : Prop :=
  ∀ j, j < 4 * ((n + 3) / 4) →
    byteOf (t.readGpr (first + BitVec.ofNat 5 (j / 4))) (j % 4) = if j < n then l j else 0

/-- Whether `frsp` increments a double pattern `d`, read off its bits: guard `d[28]`, round `d[27]`,
sticky the OR of `d[26:0]`, low-order retained bit `d[29]`, sign `d[63]` (R257, R260, R261; Table 3-7 for `rn`). -/
def frspIncrements (rn : BitVec 2) (d : Double) : Bool :=
  let g := d.getLsbD 28
  let r := d.getLsbD 27
  let x := d.toNat % 2 ^ 27 != 0
  if rn = 0 then g && (r || x || d.getLsbD 29)
  else if rn = 1 then false
  else if rn = 2 then (g || r || x) && !d.getLsbD 63
  else (g || r || x) && d.getLsbD 63

/-- `d` with its 29 low-order fraction bits dropped, and one unit of the bit above them added where the rounding
increments; a carry runs into the exponent field (R256, R218). -/
def frspRounded (rn : BitVec 2) (d : Double) : Double :=
  (d &&& 0xFFFFFFFFE0000000) + (if frspIncrements rn d then 0x20000000 else 0)

/-- The exponent field EXP of a double-precision pattern (R172). -/
def expField (d : Double) : Nat := d.toNat / 2 ^ 52 % 2 ^ 11

/-- The fraction field FRACTION of a double-precision pattern (R172). -/
def fracField (d : Double) : Nat := d.toNat % 2 ^ 52

/-- The value of a finite double-precision pattern is `± q · 2^e`, exactly (R192). -/
def ValueIs (d : Double) (neg : Bool) (q : Nat) (e : Int) : Prop :=
  d.getLsbD 63 = neg ∧
  (Machine.doubleValue d).num * 2 ^ (-e).toNat = q * 2 ^ e.toNat * (Machine.doubleValue d).den

end Sys2Proof
end

