-- ==== Sys2Proof/Certificates/Slice0/Obligations.lean ====
section
/-! DEFINITION. The statements for the provers. Hypotheses speak of the state and the operands alone; the frame of an
instruction is said with the terms of Safety.lean. -/

open Sys2Proof Sys2Proof.Machine

/-! ### Encoding and decoding -/

/-- R107, R108, R109: every instruction, with every operand at every value, is read back from its own word, as a word
and as the four bytes memory holds (R101). -/
def Obligations.DecodeOfEncode : Prop :=
  ∀ (i : Instr) (rest : List Byte),
    decodeWord (encode i) = some i ∧ decode (wordBytes (encode i) ++ rest) = .ok (i, rest)

/-- R109: a word that decodes has no bit beside those of its instruction's row and fields. -/
def Obligations.EncodeOfDecode : Prop :=
  ∀ (w : Word) (i : Instr), decodeWord w = some i → encode i = w ∧ i.row.selects w = true

/-- R109, R110: exactly the words that match a row of the table decode, and no word matches two rows. -/
def Obligations.DecodesExactlyTheRows : Prop :=
  (∀ w : Word, (decodeWord w).isSome = true ↔ ∃ r ∈ rows, r.selects w = true) ∧
  (∀ (w : Word), ∀ r ∈ rows, ∀ r' ∈ rows, r.selects w = true → r'.selects w = true → r = r')

/-- Words the spec writes out (R151, R152, R160, 95_test_vectors.md P1 to P4). -/
def Obligations.ListingWordsDecode : Prop :=
  decodeWord 0x28050000 = some (.cmplwi 0 5 0) ∧
  decodeWord 0x41820014 = some (.beq 0 5) ∧
  decodeWord 0x7C83306E = some (.lwzux 4 3 6) ∧
  decodeWord 0x7CE72214 = some (.add 7 7 4 false) ∧
  decodeWord 0x38A5FFFF = some (.subi 5 5 0xFFFF) ∧
  decodeWord 0x4BFFFFEC = some (.b 0xFFFFFB) ∧
  decodeWord 0x90E00200 = some (.stw 7 0 0x200) ∧
  decodeWord 0x7D0414AA = some (.lswi 8 4 2) ∧
  decodeWord 0x7D041DAA = some (.stswi 8 4 3) ∧
  decodeWord 0xBFA10000 = some (.stmw 29 1 0) ∧
  decodeWord 0xBBC10004 = some (.lmw 30 1 4) ∧
  decodeWord 0xC0200100 = some (.lfs 1 0 0x100) ∧
  decodeWord 0xFC400818 = some (.frsp 2 1 false) ∧
  decodeWord 0xD0400104 = some (.stfs 2 0 0x104)

/-- R108: how displacements, immediates, base registers and byte counts are assembled. -/
def Obligations.OperandAssembly : Prop :=
  (∀ (s : State) (rA : Reg) (d : BitVec 16),
    s.eaDisp rA d = (if rA = 0 then 0 else s.readGpr rA) + BitVec.ofInt 32 d.toInt) ∧
  (∀ (s : State) (rA rB : Reg), s.eaIndexed rA rB = (if rA = 0 then 0 else s.readGpr rA) + s.readGpr rB) ∧
  (∀ d : BitVec 16, (signedImm d).toInt = d.toInt ∧ (unsignedImm d).toNat = d.toNat) ∧
  (∀ li : BitVec 24, (branchDispI li).toInt = 4 * li.toInt) ∧
  (∀ bd : BitVec 14, (branchDispB bd).toInt = 4 * bd.toInt) ∧
  (∀ nb : BitVec 5, stringCount nb = if nb.toNat = 0 then 32 else nb.toNat)

/-! ### Reset, fetch and the step -/

/-- R300: after a hard reset MSR.LE and MSR.ILE are 0, and instructions and data are accessed at unmodified addresses.
The spec marks the two values as its own inference ("derived"), and the bit positions as general knowledge (R27). -/
def Obligations.ResetByteOrder : Prop :=
  manualBit State.reset.msr 31 = false ∧ manualBit State.reset.msr 15 = false ∧
  (∀ a, State.reset.fetchAddress a = a) ∧ (∀ ea n, State.reset.physicalAddress ea n = ea)

/-- The model's choices where R35 says unspecified (assumption-log entries 1, 2 and 5): every register and every byte
of memory reads 0, and the instruction address is 0x100. -/
def Obligations.ResetValues : Prop :=
  (∀ r, State.reset.readGpr r = 0) ∧ (∀ r, State.reset.readFpr r = 0) ∧ (∀ n, State.reset.readSpr n = 0) ∧
  (∀ a, State.reset.physRead a = 0) ∧ State.reset.cr = 0 ∧ State.reset.msr = 0 ∧ State.reset.fpscr.toWord = 0 ∧
  State.reset.pc = 0x100

/-- The invariant of StepKeepsInvariant holds after reset. -/
def Obligations.ResetInvariant : Prop := State.reset.wf = true

/-- R24, R32: every step keeps the instruction address a multiple of four, and memory, the stored bytes and the unnamed
special registers in their canonical forms, inside the address space and the SPR numbers. -/
def Obligations.StepKeepsInvariant : Prop := ∀ s t : State, s.wf = true → step s = .next t → t.wf = true

/-- R71: an instruction fetch reads the four bytes at the address, XORed with 0b100 in little-endian mode, and equals a
word load at the same address, which R71 derives from R66. The premises are those of the fetch (R56, D7, D9). -/
def Obligations.FetchReadsAWordLoad : Prop :=
  ∀ (s : State) (w A : Word), A = (if manualBit s.msr 31 then s.pc ^^^ 4 else s.pc) → s.pc.toNat % 4 = 0 →
    s.platform.mappedRange A.toNat 4 = true →
      (s.storedInRange A.toNat 4 = false → s.fetch = .word (wordAt s A.toNat)) ∧
      s.memRead w s.pc 4 = .ok (wordAt s A.toNat)

/-- R70, R71, R101: where the bytes the instruction address names decode to an instruction, the step is that
instruction's meaning, which itself moves the instruction address. -/
def Obligations.StepRunsDecodedInstruction : Prop :=
  ∀ (s : State) (i : Instr), s.pc.toNat % 4 = 0 →
    s.platform.mappedRange (if manualBit s.msr 31 then s.pc ^^^ 4 else s.pc).toNat 4 = true →
    s.storedInRange (if manualBit s.msr 31 then s.pc ^^^ 4 else s.pc).toNat 4 = false →
    decode (s.physBytes (if manualBit s.msr 31 then s.pc ^^^ 4 else s.pc).toNat 4) = .ok (i, []) →
    step s = exec i s

/-- R85, R110 (D7, D9, D23): a word outside `mem_region`, a word a store has written and a word no row matches are
refused, each by name. -/
def Obligations.FetchRefusals : Prop :=
  ∀ (s : State) (A : Word), A = (if manualBit s.msr 31 then s.pc ^^^ 4 else s.pc) → s.pc.toNat % 4 = 0 →
    (s.platform.mappedRange A.toNat 4 = false → step s = .refused (.outsideMemRegion A)) ∧
    (s.platform.mappedRange A.toNat 4 = true → s.storedInRange A.toNat 4 = true →
      step s = .refused (.fetchOfStoredByte s.pc)) ∧
    (s.platform.mappedRange A.toNat 4 = true → s.storedInRange A.toNat 4 = false →
      decodeWord (wordAt s A.toNat) = none → step s = .refused (.notInTable (wordAt s A.toNat)))

/-- R72, R74: a word the host places for the instruction address, in either byte order, is what the next step runs;
every register and all other bytes are unchanged. -/
def Obligations.PlacedWordRuns : Prop :=
  ∀ (s : State) (nbits w : Nat) (i : Instr), s.wf = true → decodeTableWord nbits w = some i →
    step (s.withFetchWord nbits w) = exec i (s.withFetchWord nbits w) ∧
    (s.withFetchWord nbits w).gpr = s.gpr ∧ (s.withFetchWord nbits w).fpr = s.fpr ∧
    (s.withFetchWord nbits w).pc = s.pc ∧ (s.withFetchWord nbits w).msr = s.msr ∧
    (s.withFetchWord nbits w).cr = s.cr ∧ (s.withFetchWord nbits w).fpscr = s.fpscr ∧
    (∀ n, (s.withFetchWord nbits w).readSpr n = s.readSpr n) ∧ (s.withFetchWord nbits w).draws = s.draws ∧
    SameMemoryBut (s.fetchAddress s.pc).toNat 4 s (s.withFetchWord nbits w)

/-! ### Rules about every instruction -/

/-- R24, R70, R150, R289: after an instruction the instruction address is the next word's, or the target of `b` or of a
taken `beq`, or an exception's vector, the step being an exception entry (ExceptionEntryAndReturn). The bit MSR.IP is the
model's (log entry 10), and so is the entry of handlers (log entry 4). -/
def Obligations.NextInstructionAddress : Prop :=
  ∀ (i : Instr) (s t : State), exec i s = .next t →
    (s.pc ≠ 0xFFFFFFFC ∧ t.pc = s.pc + 4) ∨
    (∃ li, i = .b li ∧ t.pc = s.pc + BitVec.ofInt 32 (4 * li.toInt)) ∨
    (∃ k bd, i = .beq k bd ∧ manualBit s.cr (4 * k.toNat + 2) = true ∧
      t.pc = s.pc + BitVec.ofInt 32 (4 * bd.toInt)) ∨
    (EntersException s t ∧ AtVector s t)

/-- R27, R284: the only step that changes the MSR is an exception entry, which saves the old MSR and the address of the
instruction in the save registers and copies ILE into LE. That it keeps the other bits is log entry 34, that it saves
all 32 log entry 4, the position of MSR.IP log entry 10. -/
def Obligations.MsrChangesOnlyByExceptionEntry : Prop :=
  ∀ s t : State, s.wf = true → step s = .next t → t.msr ≠ s.msr →
    t.readSpr s.platform.traps.saveMsr = s.msr ∧
    (s.platform.traps.saveAddress ≠ s.platform.traps.saveMsr → t.readSpr s.platform.traps.saveAddress = s.pc) ∧
    manualBit t.msr 31 = manualBit s.msr 15 ∧ t.msr = msrAtEntry s.platform.traps.cleared s.msr ∧
    EntersException s t ∧ AtVector s t ∧
    (∀ n, ¬ SavedInto s n → n ≠ 18 → n ≠ 19 → t.readSpr n = s.readSpr n) ∧
    SameGprs (fun _ => True) s t ∧ SameFprs (fun _ => True) s t ∧ t.cr = s.cr ∧ t.fpscr = s.fpscr ∧ SameMemory s t

/-- R162: where the processor has the user level, at it no instruction writes a supervisor-level special register (log
entries 9, 10 and 16); what changes one is an exception entry, which changes the save registers, DSISR and DAR only. -/
def Obligations.UserModeProtectsSupervisorRegisters : Prop :=
  ∀ (s t : State) (n : BitVec 10), s.wf = true → step s = .next t → s.platform.privilegeLevels = true →
    manualBit s.msr 17 = true → sprSupervisor n = true → t.readSpr n = s.readSpr n ∨
      (EntersException s t ∧ (SavedInto s n ∨ n = 18 ∨ n = 19))

/-- R29, R233, R303: no step changes the rounding mode, NI, an exception enable bit or a launch parameter, and a load,
a store or a fixed-point instruction changes no FPSCR bit at all (R231, R288). -/
def Obligations.StepKeepsControls : Prop :=
  (∀ s t : State, step s = .next t → SameFpscrControls s t ∧ t.platform = s.platform) ∧
  (∀ (i : Instr) (s t : State), exec i s = .next t → t.fpscr = s.fpscr ∨ ∃ frD frB rc, i = .frsp frD frB rc)

/-- R24, R56, R12: a step faults only at an unaligned instruction address, which the spec says does not exist (that the
model faults there is DEDUCED, log entry 42), or where the launch says that an exception ends the run (D11, D12). -/
def Obligations.FaultsOnlyAtUnalignedPcOrEndingException : Prop :=
  ∀ (s : State) (f : Fault), step s = .fault f →
    (s.pc.toNat % 4 ≠ 0 ∧ f = .unalignedPc s.pc) ∨ (∃ w e, f = .raised w e ∧ s.platform.stopsAt e = true)

/-! ### Memory -/

/-- R60: Table 3-2, in little-endian mode only; an aligned access stays inside its aligned double word. -/
def Obligations.LittleEndianAddressModification : Prop :=
  (∀ ea : Word, munge ea 8 = ea ∧ munge ea 4 = ea ^^^ 4 ∧ munge ea 2 = ea ^^^ 6 ∧ munge ea 1 = ea ^^^ 7) ∧
  (∀ (s : State) (ea : Word) (n : Nat),
    s.physicalAddress ea n = if manualBit s.msr 31 then munge ea n else ea) ∧
  (∀ (s : State) (w ea a : Word) (n : Nat), s.dataAddress w ea n = .ok a → a = s.physicalAddress ea n) ∧
  (∀ ea : Word, ∀ n ∈ [1, 2, 4, 8], (munge ea n).toNat / 8 = ea.toNat / 8 ∧
    (ea.toNat % n = 0 → ((munge ea n).toNat + (n - 1)) / 8 = ea.toNat / 8))

/-- R66 (R63, R65, R91, D7): the cases of `MemRead`: raise, the two refusals, and the value. -/
def Obligations.LoadCases : Prop :=
  ∀ (s : State) (w ea : Word), ∀ n ∈ [1, 2, 4, 8],
    (ea.toNat % n ≠ 0 → (manualBit s.msr 31 = true ∨ Config.beMisaligned w ea n = false) →
      s.memRead w ea n = .raise (.alignment ea)) ∧
    ((ea.toNat % n = 0 ∨ (manualBit s.msr 31 = false ∧ Config.beMisaligned w ea n = true)) →
      ((s.physicalAddress ea n).toNat + n > 2 ^ 32 → s.memRead w ea n = .refuse (.operandPastEnd ea n)) ∧
      ((s.physicalAddress ea n).toNat + n ≤ 2 ^ 32 →
        s.platform.mappedRange (s.physicalAddress ea n).toNat n = false →
        s.memRead w ea n = .refuse (.outsideMemRegion (s.physicalAddress ea n))) ∧
      ((s.physicalAddress ea n).toNat + n ≤ 2 ^ 32 →
        s.platform.mappedRange (s.physicalAddress ea n).toNat n = true →
        ∃ v, s.memRead w ea n = .ok v ∧ ∀ i, i < n →
          v.extractLsb' (8 * (n - 1 - i)) 8 = s.physRead ((s.physicalAddress ea n).toNat + i)))

/-- R59, R67: a store computes its address as a load does, with the same raise and refuse cases, and puts the most
significant of the `n` low-order bytes at it and the others at the consecutive byte addresses after it, a 32-bit scalar
at four; no other byte changes. -/
def Obligations.StoreLayout : Prop :=
  ∀ (s : State) (w ea : Word) (n k : Nat) (v : BitVec k), n ∈ [1, 2, 4, 8] → Memory.wf s.mem = true →
    (∀ e, s.memRead w ea n = .raise e ↔ s.memWrite w ea n v = .raise e) ∧
    (∀ r, s.memRead w ea n = .refuse r ↔ s.memWrite w ea n v = .refuse r) ∧
    (∀ u, s.memRead w ea n = .ok u → ∃ t, s.memWrite w ea n v = .ok t ∧
      (∀ i, i < n →
        t.physRead ((s.physicalAddress ea n).toNat + i) = v.extractLsb' (8 * (n - 1 - i)) 8) ∧
      SameMemoryBut (s.physicalAddress ea n).toNat n s t)

/-- R83: a load returns the value of the last store to the same bytes. -/
def Obligations.LoadAfterStore : Prop :=
  ∀ (s t : State) (w w' ea : Word) (n : Nat) (v : BitVec (8 * n)), n ∈ [1, 2, 4, 8] → Memory.wf s.mem = true →
    s.memWrite w ea n v = .ok t → t.accessRaises w' ea n = false → t.memRead w' ea n = .ok v

/-- R62 (derived there from R60 and R61): the program's view in little-endian mode. The byte at little-endian address B
is at B xor 7, and every aligned part of a stored scalar is read at the little-endian address of its lowest byte. -/
def Obligations.LittleEndianView : Prop :=
  (∀ (s : State) (w b : Word), manualBit s.msr 31 = true → s.platform.mapped (b ^^^ 7).toNat = true →
    s.memRead w b 1 = .ok (s.physRead (b ^^^ 7).toNat)) ∧
  (∀ (s t : State) (w w' ea : Word) (n m k : Nat) (v : BitVec (8 * n)), n ∈ [1, 2, 4, 8] → m ∈ [1, 2, 4, 8] →
    k % m = 0 → k + m ≤ n → manualBit s.msr 31 = true → Memory.wf s.mem = true → s.memWrite w ea n v = .ok t →
    t.memRead w' (ea + BitVec.ofNat 32 k) m = .ok (v.extractLsb' (8 * k) (8 * m)))

/-- R57, R68: the views in big-endian mode, and of a scalar written in big-endian mode and read in little-endian mode
(`m` is an MSR with LE set): the same value at the modified address. -/
def Obligations.BigEndianAndMixedViews : Prop :=
  (∀ (s t : State) (w w' ea : Word) (n m k : Nat) (v : BitVec (8 * n)), n ∈ [1, 2, 4, 8] → m ∈ [1, 2, 4, 8] →
    ea.toNat % n = 0 → k % m = 0 → k + m ≤ n → manualBit s.msr 31 = false → Memory.wf s.mem = true →
    s.memWrite w ea n v = .ok t →
    t.memRead w' (ea + BitVec.ofNat 32 k) m = .ok (v.extractLsb' (8 * (n - m - k)) (8 * m))) ∧
  (∀ (s t : State) (w w' ea msr : Word) (n : Nat) (v : BitVec (8 * n)), n ∈ [1, 2, 4, 8] → ea.toNat % n = 0 →
    manualBit s.msr 31 = false → manualBit msr 31 = true → Memory.wf s.mem = true → s.memWrite w ea n v = .ok t →
    ({ t with msr := msr } : State).memRead w' (munge ea n) n = .ok v)

/-- R74: a byte stream placed for a little-endian-mode program has byte `i` at physical address `(B + i) xor 7`. -/
def Obligations.HostStreamPlacement : Prop :=
  ∀ (s : State) (b : Word) (l : List Byte), manualBit s.msr 31 = true → Memory.wf s.mem = true →
    l.length ≤ 2 ^ 32 → ∀ (i : Nat) (h : i < l.length),
      (s.placeStream b l).physRead ((b + BitVec.ofNat 32 i) ^^^ 7).toNat = l[i]

/-! ### Exceptions -/

/-- R12, R280, R284, R285, R289, R290: what raising an exception does, what an entry saves and where it goes, and what
the return restores, for every table of entry parameters (R289, N12); and what that is by the family's table. The bit
positions other than LE and ILE and the vector 0x700 are log entries 3 and 10; that every MSR bit not cleared stays is
log entry 34 (DESIGN CHOICE); that all 32 MSR bits are saved, and that handlers are entered at all, log entry 4. -/
def Obligations.ExceptionEntryAndReturn : Prop :=
  ∀ (s u : State) (w : Word) (e : Exc) (p : TrapTable), p = s.platform.traps → u = s.takeException w e →
    (s.platform.stopsAt e = false → s.raise w e = .next u) ∧
    (s.platform.stopsAt e = true → s.raise w e = .fault (.raised w e)) ∧
    (sparseWf 0 s.otherSpr = true → u.readSpr p.saveMsr = s.msr ∧
      (p.saveAddress ≠ p.saveMsr → u.readSpr p.saveAddress = s.pc ∧ u.returnFromException.msr = s.msr ∧
        (s.pc.toNat % 4 = 0 → u.returnFromException.pc = s.pc))) ∧
    (∀ i, i < 32 → manualBit u.msr i =
      if i = 31 then manualBit s.msr 15 else manualBit s.msr i && !manualBit p.cleared i) ∧
    u.pc = ((if manualBit s.msr 25 then p.baseHigh else p.baseLow) +
      (match e with
        | .alignment _ => p.alignmentOffset
        | .privileged => p.privilegedOffset
        | .floatAssist => p.floatAssistOffset)) &&& ~~~3 ∧
    (∀ ea, e = .alignment ea → ¬ SavedInto s 19 → u.dar = ea) ∧
    (∀ ea, e = .alignment ea → ¬ SavedInto s 18 → u.dsisr = Config.dsisr w) ∧
    (∀ n, ¬ SavedInto s n → ((n ≠ 18 ∧ n ≠ 19) ∨ ∀ ea, e ≠ .alignment ea) → u.readSpr n = s.readSpr n) ∧
    SameUnderException s u ∧
    (p = TrapTable.family → u.srr0 = s.pc ∧ u.srr1 = s.msr ∧
      (∀ i, i < 32 → manualBit u.msr i =
        if i = 31 then manualBit s.msr 15 else if i ∈ [16, 17, 26, 27] then false else manualBit s.msr i) ∧
      u.pc = (if manualBit s.msr 25 then 0xFFF00000 else 0) +
        (match e with
          | .alignment _ => 0x600
          | .privileged => 0x700
          | .floatAssist => 0xE00))

/-- R284: every exception entry copies ILE into LE, and the handler's fetches and data accesses follow the new LE. That
the old LE is saved and comes back with the return is R284's general knowledge and log entries 4 and 18. -/
def Obligations.ExceptionEntryByteOrder : Prop :=
  ∀ (s : State) (w : Word) (e : Exc),
    manualBit (s.takeException w e).msr 31 = manualBit s.msr 15 ∧
    (∀ a, (s.takeException w e).fetchAddress a = if manualBit s.msr 15 then a ^^^ 4 else a) ∧
    (∀ ea n, (s.takeException w e).physicalAddress ea n = if manualBit s.msr 15 then munge ea n else ea) ∧
    (sparseWf 0 s.otherSpr = true →
      manualBit ((s.takeException w e).readSpr s.platform.traps.saveMsr) 31 = manualBit s.msr 31 ∧
      (s.takeException w e).returnFromException.littleEndian = manualBit s.msr 31)

/-- R69: in little-endian mode the seven string and multiple instructions raise the alignment exception (`State.raise`,
which ExceptionEntryAndReturn says), whatever their operands and effective address. -/
def Obligations.StringAndMultipleInLittleEndianMode : Prop :=
  ∀ s : State, manualBit s.msr 31 = true →
    (∀ rD rA d, exec (.lmw rD rA d) s =
      s.raise (encode (.lmw rD rA d)) (.alignment (s.eaDisp rA d))) ∧
    (∀ rS rA d, exec (.stmw rS rA d) s =
      s.raise (encode (.stmw rS rA d)) (.alignment (s.eaDisp rA d))) ∧
    (∀ rD rA nb, exec (.lswi rD rA nb) s =
      s.raise (encode (.lswi rD rA nb)) (.alignment (s.baseOrZero rA))) ∧
    (∀ rD rA rB, exec (.lswx rD rA rB) s =
      s.raise (encode (.lswx rD rA rB)) (.alignment (s.eaIndexed rA rB))) ∧
    (∀ rS rA nb, exec (.stswi rS rA nb) s =
      s.raise (encode (.stswi rS rA nb)) (.alignment (s.baseOrZero rA))) ∧
    (∀ rS rA rB, exec (.stswx rS rA rB) s =
      s.raise (encode (.stswx rS rA rB)) (.alignment (s.eaIndexed rA rB))) ∧
    (∀ rD rA rB rc, exec (.lscbx rD rA rB rc) s =
      s.raise (encode (.lscbx rD rA rB rc)) (.alignment (s.eaIndexed rA rB)))

/-- R63, R65, R126, R127, R281: a misaligned word access takes the alignment exception in little-endian mode, and in
big-endian mode where `be_misaligned` says so; a multiple of a valid form always (an invalid one is InvalidFormsRefused's
in big-endian mode, StringAndMultipleInLittleEndianMode's in little-endian mode). The exception is raised (`State.raise`)
and nothing else happens: no store, no base update. -/
def Obligations.MisalignedAccessTakesException : Prop :=
  ∀ s : State,
    (∀ rD rA rB, rA ≠ 0 → rA ≠ rD → (s.readGpr rA + s.readGpr rB).toNat % 4 ≠ 0 →
      (manualBit s.msr 31 = true ∨
        Config.beMisaligned (encode (.lwzux rD rA rB)) (s.readGpr rA + s.readGpr rB) 4 = false) →
      exec (.lwzux rD rA rB) s =
        s.raise (encode (.lwzux rD rA rB)) (.alignment (s.readGpr rA + s.readGpr rB))) ∧
    (∀ rS rA d, (s.eaDisp rA d).toNat % 4 ≠ 0 →
      (manualBit s.msr 31 = true ∨ Config.beMisaligned (encode (.stw rS rA d)) (s.eaDisp rA d) 4 = false) →
      exec (.stw rS rA d) s = s.raise (encode (.stw rS rA d)) (.alignment (s.eaDisp rA d))) ∧
    (∀ frD rA d, (s.eaDisp rA d).toNat % 4 ≠ 0 →
      (manualBit s.msr 31 = true ∨ Config.beMisaligned (encode (.lfs frD rA d)) (s.eaDisp rA d) 4 = false) →
      exec (.lfs frD rA d) s = s.raise (encode (.lfs frD rA d)) (.alignment (s.eaDisp rA d))) ∧
    (∀ frS rA d, (s.eaDisp rA d).toNat % 4 ≠ 0 →
      (manualBit s.msr 31 = true ∨ Config.beMisaligned (encode (.stfs frS rA d)) (s.eaDisp rA d) 4 = false) →
      exec (.stfs frS rA d) s = s.raise (encode (.stfs frS rA d)) (.alignment (s.eaDisp rA d))) ∧
    (∀ rD rA d, rA.toNat < rD.toNat → (s.eaDisp rA d).toNat % 4 ≠ 0 →
      exec (.lmw rD rA d) s = s.raise (encode (.lmw rD rA d)) (.alignment (s.eaDisp rA d))) ∧
    (∀ rS rA d, rA.toNat < rS.toNat → (s.eaDisp rA d).toNat % 4 ≠ 0 →
      exec (.stmw rS rA d) s = s.raise (encode (.stmw rS rA d)) (.alignment (s.eaDisp rA d)))

/-- R122, R126, R127, R130, R131, R134: the invalid forms are refused by name, and so is `lscbx` in big-endian mode where
the processor does not have it (D26). R127 gives `stmw` the corner cases of R126: that its range is rS to 31 is DEDUCED
(log entry 50). R134 names no invalid form: that `lscbx` has `lswx`'s, on the range of XER's count, is DEDUCED (log entry
24); the order of the checks is log entry 29, and that field 0 counts log entry 30. -/
def Obligations.InvalidFormsRefused : Prop :=
  (∀ (s : State) (rD rA rB : Reg), rA = 0 ∨ rA = rD →
    exec (.lwzux rD rA rB) s = .refused (.invalidForm (encode (.lwzux rD rA rB)))) ∧
  (∀ (s : State) (rD rA : Reg) (d : BitVec 16), manualBit s.msr 31 = false → rD.toNat ≤ rA.toNat →
    exec (.lmw rD rA d) s = .refused (.invalidForm (encode (.lmw rD rA d)))) ∧
  (∀ (s : State) (rS rA : Reg) (d : BitVec 16), manualBit s.msr 31 = false → rS.toNat ≤ rA.toNat →
    exec (.stmw rS rA d) s = .refused (.invalidForm (encode (.stmw rS rA d)))) ∧
  (∀ (s : State) (rD rA : Reg) (nb : BitVec 5), manualBit s.msr 31 = false →
    StringFills rD (if nb.toNat = 0 then 32 else nb.toNat) rA →
    exec (.lswi rD rA nb) s = .refused (.invalidForm (encode (.lswi rD rA nb)))) ∧
  (∀ (s : State) (rD rA rB : Reg), manualBit s.msr 31 = false →
    (StringFills rD (s.xer.toNat % 128) rA ∨ StringFills rD (s.xer.toNat % 128) rB) →
    exec (.lswx rD rA rB) s = .refused (.invalidForm (encode (.lswx rD rA rB)))) ∧
  (∀ (s : State) (rD rA rB : Reg) (rc : Bool), manualBit s.msr 31 = false → s.platform.lscbxPresent = true →
    (StringFills rD (s.xer.toNat % 128) rA ∨ StringFills rD (s.xer.toNat % 128) rB) →
    exec (.lscbx rD rA rB rc) s = .refused (.invalidForm (encode (.lscbx rD rA rB rc)))) ∧
  (∀ (s : State) (rD rA rB : Reg) (rc : Bool), manualBit s.msr 31 = false → s.platform.lscbxPresent = false →
    exec (.lscbx rD rA rB rc) s = .refused .lscbxAbsent)

/-! ### Fixed-point instructions and branches -/

/-- R158: an unsigned comparison into field CR`crfD`, with XER.SO (its position is log entry 10's); nothing else. -/
def Obligations.CmplwiCompletes : Prop :=
  ∀ (crfD : BitVec 3) (rA : Reg) (uimm : BitVec 16) (s : State), s.pc ≠ 0xFFFFFFFC →
    ∃ t, exec (.cmplwi crfD rA uimm) s = .next t ∧
      CrFieldIs t crfD (decide ((s.readGpr rA).toNat < uimm.toNat)) (decide (uimm.toNat < (s.readGpr rA).toNat))
        (decide ((s.readGpr rA).toNat = uimm.toNat)) (manualBit s.xer 0) ∧
      SameCrBut crfD s t ∧ SameGprs (fun _ => True) s t ∧ SameFprs (fun _ => True) s t ∧ t.xer = s.xer ∧
      t.fpscr = s.fpscr ∧ t.pc = s.pc + 4 ∧ SameSystem s t ∧ SameMemory s t

/-- R160: rD gets the base (0 for rA = 0) plus the sign-extended immediate, modulo 2^32; nothing else. -/
def Obligations.SubiCompletes : Prop :=
  ∀ (rD rA : Reg) (simm : BitVec 16) (s : State), s.pc ≠ 0xFFFFFFFC →
    ∃ t, exec (.subi rD rA simm) s = .next t ∧
      (t.readGpr rD).toInt =
        Int.bmod ((if rA = 0 then 0 else ((s.readGpr rA).toNat : Int)) + simm.toInt) (2 ^ 32) ∧
      SameGprs (· ≠ rD) s t ∧ SameFprs (fun _ => True) s t ∧ t.cr = s.cr ∧ t.xer = s.xer ∧ t.fpscr = s.fpscr ∧
      t.pc = s.pc + 4 ∧ SameSystem s t ∧ SameMemory s t

/-- R159: rD gets the sum modulo 2^32; with Rc = 1 CR0 is the signed comparison of the result with 0, and XER.SO. -/
def Obligations.AddCompletes : Prop :=
  ∀ (rD rA rB : Reg) (rc : Bool) (s : State), s.pc ≠ 0xFFFFFFFC →
    ∃ t, exec (.add rD rA rB rc) s = .next t ∧
      (t.readGpr rD).toNat = ((s.readGpr rA).toNat + (s.readGpr rB).toNat) % 2 ^ 32 ∧
      SameGprs (· ≠ rD) s t ∧ (rc = false → t.cr = s.cr) ∧
      (rc = true → CrFieldIs t 0 (decide ((t.readGpr rD).toInt < 0)) (decide (0 < (t.readGpr rD).toInt))
        (decide ((t.readGpr rD).toInt = 0)) (manualBit s.xer 0) ∧ SameCrBut 0 s t) ∧
      SameFprs (fun _ => True) s t ∧ t.xer = s.xer ∧ t.fpscr = s.fpscr ∧ t.pc = s.pc + 4 ∧ SameSystem s t ∧
      SameMemory s t

/-- R151: a relative branch by four times LI, modulo 2^32; nothing but the instruction address changes. -/
def Obligations.BranchCompletes : Prop :=
  ∀ (li : BitVec 24) (s : State), ∃ t, exec (.b li) s = .next t ∧
    t.pc = s.pc + BitVec.ofInt 32 (4 * li.toInt) ∧ t = { s with pc := t.pc }

/-- R106, R152: `beq crN` branches when CR{4N+2} is one, and else goes on; nothing but the instruction address
changes. -/
def Obligations.BeqCompletes : Prop :=
  ∀ (k : BitVec 3) (bd : BitVec 14) (s : State),
    (manualBit s.cr (4 * k.toNat + 2) = true → ∃ t, exec (.beq k bd) s = .next t ∧
      t.pc = s.pc + BitVec.ofInt 32 (4 * bd.toInt) ∧ t = { s with pc := t.pc }) ∧
    (manualBit s.cr (4 * k.toNat + 2) = false → s.pc ≠ 0xFFFFFFFC →
      ∃ t, exec (.beq k bd) s = .next t ∧ t.pc = s.pc + 4 ∧ t = { s with pc := t.pc })

/-- R153, R154: a branch with link puts the unmodified address of the next instruction in the link register, in both
byte orders, whether or not it branches: the relative and absolute ones, those that BO and BI condition, and those to the
link or the count register; without link LR is unchanged. Nothing else changes but the count register. BO other than
R152's 0b01100 and the addresses in LR and CTR as targets are log entry 51 (PRESUMED). -/
def Obligations.BranchAndLink : Prop :=
  ∀ (s : State) (x : Word),
    GoesTo s true s.ctr True (s.pc + x) (branchLinkRelative x s) ∧
    GoesTo s true s.ctr True x (branchLinkAbsolute x s) ∧
    ∀ (link : Bool) (bo bi : BitVec 5), ∃ ctr, ctr = (if bo.getLsbD 2 then s.ctr else s.ctr - 1) ∧
      GoesTo s link ctr (BranchTaken bo bi s.cr ctr) (s.pc + x) (branchConditionalRelative link bo bi x s) ∧
      GoesTo s link ctr (BranchTaken bo bi s.cr ctr) x (branchConditionalAbsolute link bo bi x s) ∧
      GoesTo s link ctr (BranchTaken bo bi s.cr ctr) (s.lr &&& ~~~3) (branchToLinkRegister link bo bi s) ∧
      GoesTo s link s.ctr (ConditionMet bo bi s.cr) (s.ctr &&& ~~~3) (branchToCountRegister link bo bi s)

/-! ### Single-register loads and stores -/

/-- R122, R124: a valid `lwzux` whose access goes through loads the word at the (modified) address into rD and puts the
unmodified effective address in rA; nothing else. -/
def Obligations.LwzuxCompletes : Prop :=
  ∀ (rD rA rB : Reg) (s : State), rA ≠ 0 → rA ≠ rD → s.pc ≠ 0xFFFFFFFC →
    accessible s (encode (.lwzux rD rA rB)) (s.readGpr rA + s.readGpr rB) 4 = true →
    ∃ t, exec (.lwzux rD rA rB) s = .next t ∧
      t.readGpr rD = wordAt s (s.physicalAddress (s.readGpr rA + s.readGpr rB) 4).toNat ∧
      t.readGpr rA = s.readGpr rA + s.readGpr rB ∧ SameGprs (fun r => r ≠ rD ∧ r ≠ rA) s t ∧
      SameFprs (fun _ => True) s t ∧ t.cr = s.cr ∧ t.xer = s.xer ∧ t.fpscr = s.fpscr ∧ t.pc = s.pc + 4 ∧
      SameSystem s t ∧ SameMemory s t

/-- R123: a `stw` whose access goes through stores rS, the most significant byte at the (modified) address; no register
changes. -/
def Obligations.StwCompletes : Prop :=
  ∀ (rS rA : Reg) (d : BitVec 16) (s : State), Memory.wf s.mem = true → s.pc ≠ 0xFFFFFFFC →
    accessible s (encode (.stw rS rA d)) (s.eaDisp rA d) 4 = true →
    ∃ t, exec (.stw rS rA d) s = .next t ∧
      wordAt t (s.physicalAddress (s.eaDisp rA d) 4).toNat = s.readGpr rS ∧
      SameMemoryBut (s.physicalAddress (s.eaDisp rA d) 4).toNat 4 s t ∧
      SameGprs (fun _ => True) s t ∧ SameFprs (fun _ => True) s t ∧ t.cr = s.cr ∧ t.xer = s.xer ∧
      t.fpscr = s.fpscr ∧ t.pc = s.pc + 4 ∧ SameSystem s t

/-- R210, R218: an `lfs` whose access goes through puts the word's double in frD, the 29 low-order bits zero; no FPSCR
and no condition register bit changes. -/
def Obligations.LfsCompletes : Prop :=
  ∀ (frD rA : Reg) (d : BitVec 16) (s : State), s.pc ≠ 0xFFFFFFFC →
    accessible s (encode (.lfs frD rA d)) (s.eaDisp rA d) 4 = true →
    ∃ t, exec (.lfs frD rA d) s = .next t ∧
      t.readFpr frD = singleToDouble (wordAt s (s.physicalAddress (s.eaDisp rA d) 4).toNat) ∧
      (t.readFpr frD).toNat % 2 ^ 29 = 0 ∧ SameFprs (· ≠ frD) s t ∧ SameGprs (fun _ => True) s t ∧ t.cr = s.cr ∧
      t.xer = s.xer ∧ t.fpscr = s.fpscr ∧ t.pc = s.pc + 4 ∧ SameSystem s t ∧ SameMemory s t

/-- R211: a `stfs` whose access goes through stores the single of a representable value; of another value the stored
word is free, and everything else is as for any `stfs`. -/
def Obligations.StfsCompletes : Prop :=
  ∀ (frS rA : Reg) (d : BitVec 16) (s : State), Memory.wf s.mem = true → s.pc ≠ 0xFFFFFFFC →
    accessible s (encode (.stfs frS rA d)) (s.eaDisp rA d) 4 = true →
    ∃ t, exec (.stfs frS rA d) s = .next t ∧
      (reprSingle (s.readFpr frS) = true →
        wordAt t (s.physicalAddress (s.eaDisp rA d) 4).toNat = doubleToSingle (s.readFpr frS)) ∧
      SameMemoryBut (s.physicalAddress (s.eaDisp rA d) 4).toNat 4 s t ∧
      SameGprs (fun _ => True) s t ∧ SameFprs (fun _ => True) s t ∧ t.cr = s.cr ∧ t.xer = s.xer ∧
      t.fpscr = s.fpscr ∧ t.pc = s.pc + 4 ∧ SameSystem s t

/-- R213: the classes of double-precision loads and stores move the 64 bits unaltered, write no FPSCR bit, have no
address modification, and in little-endian mode raise the alignment exception at an address that is not a multiple of
eight. An update form puts the unmodified effective address in its base register (derived in
R124); that one with register 0 as its base completes and writes it is log entry 49 (DESIGN CHOICE). -/
def Obligations.DoubleMovesUnaltered : Prop :=
  ∀ (fr : Reg) (base : Option Reg) (ea w : Word) (s : State), Memory.wf s.mem = true →
    (s.pc ≠ 0xFFFFFFFC → accessible s w ea 8 = true →
      (∃ t, loadDouble fr base ea w s = .next t ∧ t.readFpr fr = wordAt s ea.toNat ++ wordAt s (ea.toNat + 4) ∧
        SameFprs (· ≠ fr) s t ∧ (∀ rA, base = some rA → t.readGpr rA = ea) ∧ SameGprs (fun r => base ≠ some r) s t ∧
        t.fpscr = s.fpscr ∧ t.cr = s.cr ∧ t.xer = s.xer ∧ t.pc = s.pc + 4 ∧ SameSystem s t ∧ SameMemory s t) ∧
      (∃ t, storeDouble fr base ea w s = .next t ∧ wordAt t ea.toNat ++ wordAt t (ea.toNat + 4) = s.readFpr fr ∧
        SameMemoryBut ea.toNat 8 s t ∧ SameFprs (fun _ => True) s t ∧ (∀ rA, base = some rA → t.readGpr rA = ea) ∧
        SameGprs (fun r => base ≠ some r) s t ∧ t.fpscr = s.fpscr ∧ t.cr = s.cr ∧ t.xer = s.xer ∧
        t.pc = s.pc + 4 ∧ SameSystem s t)) ∧
    (manualBit s.msr 31 = true → ea.toNat % 8 ≠ 0 →
      loadDouble fr base ea w s = s.raise w (.alignment ea) ∧
      storeDouble fr base ea w s = s.raise w (.alignment ea))

/-! ### Multiple and string instructions, and mtspr -/

/-- R126: a valid `lmw` in big-endian mode, word-aligned and inside memory, loads rD to r31 from consecutive words;
nothing else. -/
def Obligations.LmwCompletes : Prop :=
  ∀ (rD rA : Reg) (d : BitVec 16) (s : State), manualBit s.msr 31 = false → rA.toNat < rD.toNat →
    (s.eaDisp rA d).toNat % 4 = 0 → plainBytes s (s.eaDisp rA d).toNat (4 * (32 - rD.toNat)) = true →
    s.pc ≠ 0xFFFFFFFC →
    ∃ t, exec (.lmw rD rA d) s = .next t ∧
      (∀ r : Reg, rD.toNat ≤ r.toNat →
        t.readGpr r = wordAt s ((s.eaDisp rA d).toNat + 4 * (r.toNat - rD.toNat))) ∧
      SameGprs (fun r => r.toNat < rD.toNat) s t ∧ SameFprs (fun _ => True) s t ∧ t.cr = s.cr ∧ t.xer = s.xer ∧
      t.fpscr = s.fpscr ∧ t.pc = s.pc + 4 ∧ SameSystem s t ∧ SameMemory s t

/-- R127: a valid `stmw` in big-endian mode, word-aligned and inside memory, stores rS to r31 to consecutive words; no
register and no other byte changes. -/
def Obligations.StmwCompletes : Prop :=
  ∀ (rS rA : Reg) (d : BitVec 16) (s : State), manualBit s.msr 31 = false → rA.toNat < rS.toNat →
    Memory.wf s.mem = true → (s.eaDisp rA d).toNat % 4 = 0 →
    plainBytes s (s.eaDisp rA d).toNat (4 * (32 - rS.toNat)) = true →
    s.pc ≠ 0xFFFFFFFC →
    ∃ t, exec (.stmw rS rA d) s = .next t ∧
      (∀ r : Reg, rS.toNat ≤ r.toNat →
        wordAt t ((s.eaDisp rA d).toNat + 4 * (r.toNat - rS.toNat)) = s.readGpr r) ∧
      SameMemoryBut (s.eaDisp rA d).toNat (4 * (32 - rS.toNat)) s t ∧ SameGprs (fun _ => True) s t ∧
      SameFprs (fun _ => True) s t ∧ t.cr = s.cr ∧ t.xer = s.xer ∧ t.fpscr = s.fpscr ∧ t.pc = s.pc + 4 ∧
      SameSystem s t

/-- R130, R131: a valid string load in big-endian mode, inside memory, fills the registers from rD on, wrapping from
r31 to r0, four bytes to a register, the rest of the last one zero; `lswx` of no bytes leaves rD alone undefined. -/
def Obligations.StringLoadsComplete : Prop :=
  (∀ (rD rA : Reg) (nb : BitVec 5) (s : State) (n : Nat), n = (if nb.toNat = 0 then 32 else nb.toNat) →
    manualBit s.msr 31 = false → ¬ StringFills rD n rA → plainBytes s (s.baseOrZero rA).toNat n = true →
    s.pc ≠ 0xFFFFFFFC →
    ∃ t, exec (.lswi rD rA nb) s = .next t ∧
      HoldsString t rD n (fun j => s.physRead ((s.baseOrZero rA).toNat + j)) ∧
      SameGprs (fun r => ¬ StringFills rD n r) s t ∧ SameFprs (fun _ => True) s t ∧ t.cr = s.cr ∧ t.xer = s.xer ∧
      t.fpscr = s.fpscr ∧ t.pc = s.pc + 4 ∧ SameSystem s t ∧ SameMemory s t) ∧
  (∀ (rD rA rB : Reg) (s : State) (n : Nat), n = s.xer.toNat % 128 → n ≠ 0 → manualBit s.msr 31 = false →
    ¬ StringFills rD n rA → ¬ StringFills rD n rB → plainBytes s (s.eaIndexed rA rB).toNat n = true →
    s.pc ≠ 0xFFFFFFFC →
    ∃ t, exec (.lswx rD rA rB) s = .next t ∧
      HoldsString t rD n (fun j => s.physRead ((s.eaIndexed rA rB).toNat + j)) ∧
      SameGprs (fun r => ¬ StringFills rD n r) s t ∧ SameFprs (fun _ => True) s t ∧ t.cr = s.cr ∧ t.xer = s.xer ∧
      t.fpscr = s.fpscr ∧ t.pc = s.pc + 4 ∧ SameSystem s t ∧ SameMemory s t) ∧
  (∀ (rD rA rB : Reg) (s : State), s.xer.toNat % 128 = 0 → manualBit s.msr 31 = false → s.pc ≠ 0xFFFFFFFC →
    ∃ t, exec (.lswx rD rA rB) s = .next t ∧
      SameGprs (· ≠ rD) s t ∧ SameFprs (fun _ => True) s t ∧ t.cr = s.cr ∧ t.xer = s.xer ∧
      t.fpscr = s.fpscr ∧ t.pc = s.pc + 4 ∧ SameSystem s t ∧ SameMemory s t)

/-- R132, R133: a string store in big-endian mode, inside memory, stores the registers' bytes from rS on, wrapping from
r31 to r0, the most significant byte of each first; no register and no other byte changes. -/
def Obligations.StringStoresComplete : Prop :=
  (∀ (rS rA : Reg) (nb : BitVec 5) (s : State) (n : Nat), n = (if nb.toNat = 0 then 32 else nb.toNat) →
    manualBit s.msr 31 = false → Memory.wf s.mem = true → plainBytes s (s.baseOrZero rA).toNat n = true →
    s.pc ≠ 0xFFFFFFFC →
    ∃ t, exec (.stswi rS rA nb) s = .next t ∧
      (∀ j, j < n → t.physRead ((s.baseOrZero rA).toNat + j) =
        byteOf (s.readGpr (rS + BitVec.ofNat 5 (j / 4))) (j % 4)) ∧
      SameMemoryBut (s.baseOrZero rA).toNat n s t ∧ SameGprs (fun _ => True) s t ∧ SameFprs (fun _ => True) s t ∧
      t.cr = s.cr ∧ t.xer = s.xer ∧ t.fpscr = s.fpscr ∧ t.pc = s.pc + 4 ∧ SameSystem s t) ∧
  (∀ (rS rA rB : Reg) (s : State) (n : Nat), n = s.xer.toNat % 128 → manualBit s.msr 31 = false →
    Memory.wf s.mem = true → plainBytes s (s.eaIndexed rA rB).toNat n = true → s.pc ≠ 0xFFFFFFFC →
    ∃ t, exec (.stswx rS rA rB) s = .next t ∧
      (∀ j, j < n → t.physRead ((s.eaIndexed rA rB).toNat + j) =
        byteOf (s.readGpr (rS + BitVec.ofNat 5 (j / 4))) (j % 4)) ∧
      SameMemoryBut (s.eaIndexed rA rB).toNat n s t ∧ SameGprs (fun _ => True) s t ∧
      SameFprs (fun _ => True) s t ∧ t.cr = s.cr ∧ t.xer = s.xer ∧ t.fpscr = s.fpscr ∧ t.pc = s.pc + 4 ∧
      SameSystem s t)

/-- R134: where the processor has `lscbx` in big-endian mode, it loads `m` bytes, the count in XER or up to the first
that equals the compare byte, writes `m` to XER{25:31}, and with Rc = 1 the equal bit of CR0; of no bytes rD is left
undefined. The other bits of XER and CR0 stay (DEDUCED, log entry 24). -/
def Obligations.LscbxCompletes : Prop :=
  (∀ (rD rA rB : Reg) (rc : Bool) (s : State) (n m : Nat) (key : Byte), n = s.xer.toNat % 128 →
    key = byteOf s.xer 2 → manualBit s.msr 31 = false → s.platform.lscbxPresent = true →
    ¬ StringFills rD n rA → ¬ StringFills rD n rB → 1 ≤ m → m ≤ n →
    (∀ j, j + 1 < m → s.physRead ((s.eaIndexed rA rB).toNat + j) ≠ key) →
    (m = n ∨ s.physRead ((s.eaIndexed rA rB).toNat + (m - 1)) = key) →
    plainBytes s (s.eaIndexed rA rB).toNat m = true → s.pc ≠ 0xFFFFFFFC →
    ∃ t, exec (.lscbx rD rA rB rc) s = .next t ∧
      HoldsString t rD m (fun j => s.physRead ((s.eaIndexed rA rB).toNat + j)) ∧
      SameGprs (fun r => ¬ StringFills rD m r) s t ∧ t.xer.toNat % 128 = m ∧
      t.xer.toNat / 128 = s.xer.toNat / 128 ∧ (rc = false → t.cr = s.cr) ∧
      (rc = true →
        manualBit t.cr 2 = decide (s.physRead ((s.eaIndexed rA rB).toNat + (m - 1)) = key) ∧
        ∀ i, i < 32 → i ≠ 2 → manualBit t.cr i = manualBit s.cr i) ∧
      SameFprs (fun _ => True) s t ∧ t.fpscr = s.fpscr ∧ t.pc = s.pc + 4 ∧ SameSystem s t ∧ SameMemory s t) ∧
  (∀ (rD rA rB : Reg) (rc : Bool) (s : State), s.xer.toNat % 128 = 0 → manualBit s.msr 31 = false →
    s.platform.lscbxPresent = true → s.pc ≠ 0xFFFFFFFC →
    ∃ t, exec (.lscbx rD rA rB rc) s = .next t ∧ SameGprs (· ≠ rD) s t ∧ t.xer = s.xer ∧
      (rc = false → t.cr = s.cr) ∧
      (rc = true → manualBit t.cr 2 = false ∧ ∀ i, i < 32 → i ≠ 2 → manualBit t.cr i = manualBit s.cr i) ∧
      SameFprs (fun _ => True) s t ∧ t.fpscr = s.fpscr ∧ t.pc = s.pc + 4 ∧ SameSystem s t ∧ SameMemory s t)

/-- R162, R28: `mtspr` writes the named special register and no other; where the processor has the user level, at it a
supervisor-level one raises the privileged-instruction program exception (the numbering and the levels are log entries 9,
10 and 16). That a register the spec does not describe, the time base and the decrementer of R295 among them, takes the
write and reads it back, and that all 32 bits of every register do, is log entry 17 (DESIGN CHOICE). -/
def Obligations.MtsprWritesOrTraps : Prop :=
  ∀ (n : BitVec 10) (rS : Reg) (s : State), s.wf = true →
    ((s.platform.privilegeLevels = false ∨ manualBit s.msr 17 = false ∨ sprSupervisor n = false) → s.pc ≠ 0xFFFFFFFC →
      ∃ t, exec (.mtspr n rS) s = .next t ∧ t.readSpr n = s.readGpr rS ∧ (∀ m, m ≠ n → t.readSpr m = s.readSpr m) ∧
        (n = 26 → t.srr0 = s.readGpr rS) ∧ (n = 27 → t.srr1 = s.readGpr rS) ∧
        SameGprs (fun _ => True) s t ∧ SameFprs (fun _ => True) s t ∧ t.cr = s.cr ∧ t.msr = s.msr ∧
        t.fpscr = s.fpscr ∧ t.pc = s.pc + 4 ∧ t.platform = s.platform ∧ SameMemory s t) ∧
    (s.platform.privilegeLevels = true → manualBit s.msr 17 = true → sprSupervisor n = true →
      exec (.mtspr n rS) s = s.raise (encode (.mtspr n rS)) .privileged)

/-! ### Floating point: frsp -/

/-- R212, R204, R232: `frsp` does not alter a value that is already of single precision (zero, infinity, number or
quiet NaN), and clears FR and FI. That FR and FI are 0 and XX stays for a zero, an infinity or a NaN is log entry 28
(DEDUCED), and the bits of a NaN are log entry 40's (PRESUMED). -/
def Obligations.FrspKeepsSinglePrecisionValues : Prop :=
  ∀ (frD frB : Reg) (rc : Bool) (s : State), reprSingle (s.readFpr frB) = true →
    isSNaN (s.readFpr frB) = false → s.pc ≠ 0xFFFFFFFC →
    ∃ t, exec (.frsp frD frB rc) s = .next t ∧ t.readFpr frD = s.readFpr frB ∧ t.fpscr.fr = false ∧
      t.fpscr.fi = false ∧ t.fpscr.xx = s.fpscr.xx ∧ FpFrame frD rc s t

/-- R212, R232, R256, R257, R260, R261: a number in the exponent range of normalized singles that is not a single, whose
rounded result is no overflow, is rounded by its guard, round and sticky bits; FI is 1, FR says whether it was
incremented, XX is set. With XE = 1 the envelope is invoked instead (R286, R287; DEDUCED, log entry 27), unless it is the
IEEE result of `fp_envelope = ieee`. -/
def Obligations.FrspRoundsByGuardRoundSticky : Prop :=
  ∀ (frD frB : Reg) (rc : Bool) (s : State),
    897 ≤ expField (s.readFpr frB) → expField (s.readFpr frB) ≤ 1150 → (s.readFpr frB).toNat % 2 ^ 29 ≠ 0 →
    expField (frspRounded s.fpscr.rn (s.readFpr frB)) ≤ 1150 →
    ((s.fpscr.xe = false ∨ s.platform.fpEnvelope = .ieee) → s.pc ≠ 0xFFFFFFFC →
      ∃ t, exec (.frsp frD frB rc) s = .next t ∧ t.readFpr frD = frspRounded s.fpscr.rn (s.readFpr frB) ∧
        t.fpscr.fi = true ∧ t.fpscr.fr = frspIncrements s.fpscr.rn (s.readFpr frB) ∧ t.fpscr.xx = true ∧
        FpFrame frD rc s t) ∧
    (s.fpscr.xe = true → s.platform.fpEnvelope ≠ .ieee →
      exec (.frsp frD frB rc) s = s.raise (encode (.frsp frD frB rc)) .floatAssist)

/-- R270, R271, R272, R286: a number too small for a normalized single. In non-IEEE mode with UE = 0 the signed zero,
XX kept; otherwise, and for a denormalized operand in either mode, the floating-point assist exception; under
`fp_envelope = ieee` the rounded result with UE = 0, and with UE = 1 a single of that sign the spec does not state (log
entry 23). -/
def Obligations.FrspTinyAndDenormalized : Prop :=
  ∀ (frD frB : Reg) (rc : Bool) (s : State), reprSingle (s.readFpr frB) = false →
    expField (s.readFpr frB) < 897 → s.pc ≠ 0xFFFFFFFC →
    (expField (s.readFpr frB) ≠ 0 → s.fpscr.ni = true → s.fpscr.ue = false →
      ∃ t, exec (.frsp frD frB rc) s = .next t ∧
        t.readFpr frD = (if (s.readFpr frB).getLsbD 63 then 0x8000000000000000 else 0) ∧
        t.fpscr.xx = s.fpscr.xx ∧ FpFrame frD rc s t) ∧
    ((expField (s.readFpr frB) = 0 ∨ s.fpscr.ni = false ∨ s.fpscr.ue = true) → s.platform.fpEnvelope ≠ .ieee →
      exec (.frsp frD frB rc) s = s.raise (encode (.frsp frD frB rc)) .floatAssist) ∧
    ((expField (s.readFpr frB) = 0 ∨ s.fpscr.ni = false) → s.fpscr.ue = false → s.platform.fpEnvelope = .ieee →
      ∃ t, exec (.frsp frD frB rc) s = .next t ∧
        ValueIs (t.readFpr frD) ((s.readFpr frB).getLsbD 63)
          (roundExact .single (roundMode s.fpscr.rn) (doubleValue (s.readFpr frB))).q (-149) ∧
        t.fpscr.fi = true ∧ t.fpscr.xx = true ∧
        t.fpscr.fr = (roundExact .single (roundMode s.fpscr.rn) (doubleValue (s.readFpr frB))).incremented ∧
        FpFrame frD rc s t) ∧
    (s.fpscr.ue = true → s.platform.fpEnvelope = .ieee →
      ∃ t, exec (.frsp frD frB rc) s = .next t ∧ reprSingle (t.readFpr frD) = true ∧
        (t.readFpr frD).getLsbD 63 = (s.readFpr frB).getLsbD 63 ∧ (s.fpscr.xx = true → t.fpscr.xx = true) ∧
        FpFrame frD rc s t)

/-- R212, R186, R190: `frsp` of a NaN keeps its sign and 23 high-order fraction bits; a signaling one is quieted with
VE = 0 and invokes the envelope with VE = 1. -/
def Obligations.FrspOfNaN : Prop :=
  ∀ (frD frB : Reg) (rc : Bool) (s : State), expField (s.readFpr frB) = 2047 → fracField (s.readFpr frB) ≠ 0 →
    s.pc ≠ 0xFFFFFFFC →
    (((s.readFpr frB).getLsbD 51 = true ∨ s.fpscr.ve = false) →
      ∃ t, exec (.frsp frD frB rc) s = .next t ∧
        t.readFpr frD = ((s.readFpr frB &&& 0xFFFFFFFFE0000000) ||| 0x0008000000000000) ∧ t.fpscr.fr = false ∧
        t.fpscr.fi = false ∧ t.fpscr.xx = s.fpscr.xx ∧ FpFrame frD rc s t) ∧
    ((s.readFpr frB).getLsbD 51 = false → s.fpscr.ve = true → s.platform.fpEnvelope ≠ .ieee →
      exec (.frsp frD frB rc) s = s.raise (encode (.frsp frD frB rc)) .floatAssist) ∧
    ((s.readFpr frB).getLsbD 51 = false → s.fpscr.ve = true → s.platform.fpEnvelope = .ieee →
      ∃ t, exec (.frsp frD frB rc) s = .next t ∧ reprSingle (t.readFpr frD) = true ∧
        (s.fpscr.xx = true → t.fpscr.xx = true) ∧ FpFrame frD rc s t)

/-- R236, R261, R232, R286: `frsp` of a finite number whose rounded result exceeds the largest single. With the overflow
exception disabled an infinity or the largest finite number by the rounding mode, FI and XX set (FR, FI and XX by the
reading of log entry 26); with overflow or, DEDUCED in log entry 27, inexact enabled the envelope; under
`fp_envelope = ieee` an enabled overflow gives the rounded result with 192 less in the exponent (log entry 23). -/
def Obligations.FrspOverflow : Prop :=
  ∀ (frD frB : Reg) (rc : Bool) (s : State), 897 ≤ expField (s.readFpr frB) → expField (s.readFpr frB) < 2047 →
    1151 ≤ expField (frspRounded s.fpscr.rn (s.readFpr frB)) → s.pc ≠ 0xFFFFFFFC →
    (s.fpscr.oe = false → (s.fpscr.xe = false ∨ s.platform.fpEnvelope = .ieee) →
      ∃ t, exec (.frsp frD frB rc) s = .next t ∧
        t.readFpr frD = (s.readFpr frB &&& 0x8000000000000000) |||
          (if s.fpscr.rn = 0 ∨ (s.fpscr.rn = 2 ∧ (s.readFpr frB).getLsbD 63 = false) ∨
              (s.fpscr.rn = 3 ∧ (s.readFpr frB).getLsbD 63 = true)
            then 0x7FF0000000000000 else 0x47EFFFFFE0000000) ∧
        t.fpscr.fi = true ∧ t.fpscr.xx = true ∧
        t.fpscr.fr = decide (expField (t.readFpr frD) = 2047) ∧ FpFrame frD rc s t) ∧
    ((s.fpscr.oe = true ∨ s.fpscr.xe = true) → s.platform.fpEnvelope ≠ .ieee →
      exec (.frsp frD frB rc) s = s.raise (encode (.frsp frD frB rc)) .floatAssist) ∧
    (s.fpscr.oe = true → s.platform.fpEnvelope = .ieee →
      ∃ t, exec (.frsp frD frB rc) s = .next t ∧
        t.readFpr frD = frspRounded s.fpscr.rn (s.readFpr frB) - 0x0C00000000000000 ∧
        t.fpscr.fi = decide ((s.readFpr frB).toNat % 2 ^ 29 ≠ 0) ∧
        t.fpscr.fr = frspIncrements s.fpscr.rn (s.readFpr frB) ∧ t.fpscr.xx = (s.fpscr.xx || t.fpscr.fi) ∧
        FpFrame frD rc s t)

/-! ### Floating point: formats, rounding, arithmetic -/

/-- R219, R218, R192: the conversions undo each other, keep the value of every number, and leave the 29 low-order bits
zero. -/
def Obligations.ConversionsKeepTheValue : Prop :=
  (∀ w : Word, doubleToSingle (singleToDouble w) = w ∧ reprSingle (singleToDouble w) = true ∧
    (singleToDouble w).toNat % 2 ^ 29 = 0) ∧
  (∀ d : Double, reprSingle d = true → singleToDouble (doubleToSingle d) = d) ∧
  (∀ w : Word, singleClass w ≠ .nan → (∀ neg, singleClass w ≠ .infinity neg) →
    (doubleValue (singleToDouble w)).neg = (singleValue w).neg ∧
    (doubleValue (singleToDouble w)).num * (singleValue w).den =
      (singleValue w).num * (doubleValue (singleToDouble w)).den)

/-- R235: the rounding modes choose between the two neighbours. The exact magnitude is `N / D` in units of the last
place of the result, and the result is `q` such units, of at most `p + 1` bits or a power of two. -/
def Obligations.RoundingChoosesNeighbour : Prop :=
  ∀ (fmt : Format) (mode : RoundMode) (z : Exact) (r : Rounded) (N D : Nat), z.num ≠ 0 → z.den ≠ 0 →
    r = roundExact fmt mode z → N = z.scaledNum r.e → D = z.scaledDen r.e →
    r.neg = z.neg ∧ r.q ≤ 2 ^ (formatFraction fmt + 1) ∧ r.e ≥ formatEmin fmt - formatFraction fmt ∧
    (r.e > formatEmin fmt - formatFraction fmt → 2 ^ formatFraction fmt * D ≤ N) ∧
    (mode = .nearest → (∀ q : Nat, ((r.q * D : Int) - N).natAbs ≤ ((q * D : Int) - N).natAbs) ∧
      ((∃ q : Nat, q ≠ r.q ∧ ((q * D : Int) - N).natAbs = ((r.q * D : Int) - N).natAbs) → r.q % 2 = 0)) ∧
    ((mode = .towardZero ∨ (mode = .towardPlus ∧ z.neg = true) ∨ (mode = .towardMinus ∧ z.neg = false)) →
      r.q * D ≤ N ∧ N < (r.q + 1) * D) ∧
    (((mode = .towardPlus ∧ z.neg = false) ∨ (mode = .towardMinus ∧ z.neg = true)) →
      N ≤ r.q * D ∧ r.q * D < N + D) ∧
    (r.inexact = true ↔ r.q * D ≠ N) ∧ (r.incremented = true ↔ N < r.q * D)

/-- R255 (the equality with R240 is derived there): L and FRACTION are the exact result's first 53 significant bits, G
and R the next two (`sig` holds L to R), X says whether anything follows; and the accumulator, denormalized where the
exponent is below Emin and rounded by its guard, round and sticky bits (R257 to R262), gives the same result, FR and FI
as the rounding of the exact number. -/
def Obligations.AccumulatorRoundsAsExact : Prop :=
  ∀ (fmt : Format) (mode : RoundMode) (z : Exact), z.num ≠ 0 → z.den ≠ 0 →
    2 ^ 54 ≤ (accumulatorOf z).sig.toNat ∧ (accumulatorOf z).sig.toNat < 2 ^ 55 ∧
    (accumulatorOf z).sig.toNat * z.scaledDen (z.exponent - 54) ≤ z.scaledNum (z.exponent - 54) ∧
    z.scaledNum (z.exponent - 54) < ((accumulatorOf z).sig.toNat + 1) * z.scaledDen (z.exponent - 54) ∧
    ((accumulatorOf z).sticky = true ↔
      (accumulatorOf z).sig.toNat * z.scaledDen (z.exponent - 54) ≠ z.scaledNum (z.exponent - 54)) ∧
    ((accumulatorOf z).denormalize fmt).rounded fmt mode = roundExact fmt mode z

/-- R190, R191, R187: which NaN an arithmetic instruction delivers: frA, frB, frC in that order, quieted (D15, log entry
40), fields the instruction does not have being skipped; else, for an invalid operation with VE = 0, the generated QNaN.
FR, FI and XX are log entry 28's (DEDUCED). Source operands are representable (R217) and not denormalized (R271). An
ordered comparison and a conversion to integer signal the invalid operation exception on any NaN and deliver none (what
else they do is log entry 48). -/
def Obligations.NanResultOfArithmetic : Prop :=
  ∀ (p : Platform) (f : Fpscr) (fmt : Format) (op : FpOp) (a b c : Double) (l : List Double),
    l = [a] ++ (if op.usesB then [b] else []) ++ (if op.usesC then [c] else []) →
    (∀ d ∈ l, isDenormalized d = false) → (fmt = .single → ∀ d ∈ l, reprSingle d = true) →
    ((∀ d ∈ l, isSNaN d = false) ∨ f.ve = false) →
    (isNaN a = true → arithOutcome p f fmt op a b c = .deliver (a ||| 0x0008000000000000) false false false) ∧
    (isNaN a = false → op.usesB = true → isNaN b = true →
      arithOutcome p f fmt op a b c = .deliver (b ||| 0x0008000000000000) false false false) ∧
    (isNaN a = false → (op.usesB = true → isNaN b = false) → op.usesC = true → isNaN c = true →
      arithOutcome p f fmt op a b c = .deliver (c ||| 0x0008000000000000) false false false) ∧
    ((∀ d ∈ l, isNaN d = false) → f.ve = false →
      op.exact (roundMode f.rn) (doubleDatum a) (doubleDatum b) (doubleDatum c) = .invalid →
      arithOutcome p f fmt op a b c = .deliver 0x7FF8000000000000 false false false) ∧
    ((isNaN a = true ∨ isNaN b = true) →
      (f.ve = false → compareOutcome p f true a b = .field false false false true) ∧
      (f.ve = true → p.fpEnvelope ≠ .ieee → compareOutcome p f true a b = .assist)) ∧
    (isNaN a = true → ∀ mode, (f.ve = false → convertOutcome p f mode a = .invalid none) ∧
      (f.ve = true → p.fpEnvelope ≠ .ieee → convertOutcome p f mode a = .assist))

/-- R202: an exact zero sum of operands of opposite sign, or difference of operands of like sign, is +0 in every mode but
round toward minus infinity, where it is -0; a sum of zeros of like sign keeps the sign (derived from R201). FR, FI and
XX are log entry 28's (DEDUCED). -/
def Obligations.ExactZeroSums : Prop :=
  ∀ (p : Platform) (f : Fpscr) (fmt : Format) (x c : Double), isNaN x = false → expField x ≠ 2047 →
    (isDenormalized x = false ∨ p.fpEnvelope = .ieee) → (fmt = .single → reprSingle x = true) →
    arithOutcome p f fmt .add x (x ^^^ 0x8000000000000000) c =
      .deliver (if f.rn = 3 then 0x8000000000000000 else 0) false false false ∧
    arithOutcome p f fmt .sub x x c =
      .deliver (if f.rn = 3 then 0x8000000000000000 else 0) false false false ∧
    (x.toNat % 2 ^ 63 = 0 → arithOutcome p f fmt .add x x c = .deliver x false false false)

/-- R203: the sign of a product or quotient that is no NaN is the exclusive OR of the operands' signs, for zeros and
infinities too. That a result whose value the spec does not state has that sign is the model's choice: a zero divide (log
entry 22), and a tiny result with UE = 1 under `fp_envelope = ieee` (log entry 23). -/
def Obligations.ProductAndQuotientSigns : Prop :=
  ∀ (p : Platform) (f : Fpscr) (fmt : Format) (a b c d : Double) (fr fi ix : Bool), isNaN d = false →
    (arithOutcome p f fmt .mul a b c = .deliver d fr fi ix ∨ arithOutcome p f fmt .mul a b c = .flush d →
      d.getLsbD 63 = (a.getLsbD 63 != c.getLsbD 63)) ∧
    (arithOutcome p f fmt .div a b c = .deliver d fr fi ix ∨ arithOutcome p f fmt .div a b c = .flush d →
      d.getLsbD 63 = (a.getLsbD 63 != b.getLsbD 63)) ∧
    (∀ neg, arithOutcome p f fmt .mul a b c = .unstated fmt (some neg) → neg = (a.getLsbD 63 != c.getLsbD 63)) ∧
    (∀ neg, arithOutcome p f fmt .div a b c = .unstated fmt (some neg) → neg = (a.getLsbD 63 != b.getLsbD 63))

/-- R265: the negative multiply-add and multiply-subtract deliver the result of the positive form with its sign bit
inverted after the rounding; that a NaN is not negated is not in the source (PRESUMED, log entry 40). -/
def Obligations.NegatedMultiplyAdd : Prop :=
  ∀ (p : Platform) (f : Fpscr) (fmt : Format) (a b c d : Double) (fr fi ix : Bool),
    ∀ ops ∈ [(FpOp.madd, FpOp.nmadd), (FpOp.msub, FpOp.nmsub)],
      (arithOutcome p f fmt ops.1 a b c = .deliver d fr fi ix →
        arithOutcome p f fmt ops.2 a b c =
          .deliver (if isNaN d then d else d ^^^ 0x8000000000000000) fr fi ix) ∧
      (arithOutcome p f fmt ops.1 a b c = .flush d →
        arithOutcome p f fmt ops.2 a b c = .flush (d ^^^ 0x8000000000000000)) ∧
      (∀ sign, arithOutcome p f fmt ops.1 a b c = .unstated fmt sign →
        arithOutcome p f fmt ops.2 a b c = .unstated fmt (sign.map (!·))) ∧
      (arithOutcome p f fmt ops.1 a b c = .assist → arithOutcome p f fmt ops.2 a b c = .assist)

/-- R273: in non-IEEE mode, with every exception disabled and no denormalized source operand, no floating-point
instruction invokes the envelope; on operands of its precision every one but a division delivers a determined result,
and `frsp` completes on every operand. -/
def Obligations.NoAssistUnderR273 : Prop :=
  (∀ (p : Platform) (f : Fpscr) (fmt : Format) (op : FpOp) (a b c : Double), f.ni = true → f.allDisabled = true →
    isDenormalized a = false → (op.usesB = true → isDenormalized b = false) →
    (op.usesC = true → isDenormalized c = false) →
    arithOutcome p f fmt op a b c ≠ .assist ∧
    (op ≠ .div → (fmt = .single → reprSingle a = true ∧ (op.usesB = true → reprSingle b = true) ∧
        (op.usesC = true → reprSingle c = true)) →
      ∃ d, arithOutcome p f fmt op a b c = .flush d ∨
        ∃ fr fi ix, arithOutcome p f fmt op a b c = .deliver d fr fi ix)) ∧
  (∀ (frD frB : Reg) (rc : Bool) (s : State), s.envelopeFree = true → isDenormalized (s.readFpr frB) = false →
    s.pc ≠ 0xFFFFFFFC →
    ∃ t, exec (.frsp frD frB rc) s = .next t ∧ FpFrame frD rc s t)
end

