-- ==== Sys2Proof/Laws/Decode.lean ====
section
/-! SUPPORT. The fields of an encoded word, read back one form at a time (spec/30_encoding.md R107, R108), and the fixed
bits of each form (R109). -/

namespace Sys2Proof

/-! ### Bits of the forms -/

theorem getLsbD_dForm (o : BitVec 6) (r a : Reg) (d : BitVec 16) (i : Nat) :
    (dForm o r a d).getLsbD i =
      if i < 16 then d.getLsbD i else if i < 21 then a.getLsbD (i - 16)
      else if i < 26 then r.getLsbD (i - 21) else o.getLsbD (i - 26) := by
  unfold dForm
  erw [BitVec.getLsbD_append, BitVec.getLsbD_append, BitVec.getLsbD_append]
  grind

theorem getLsbD_cmpForm (o : BitVec 6) (c : BitVec 3) (a : Reg) (d : BitVec 16) (i : Nat) :
    (cmpForm o c a d).getLsbD i =
      if i < 16 then d.getLsbD i else if i < 21 then a.getLsbD (i - 16) else if i < 23 then false
      else if i < 26 then c.getLsbD (i - 23) else o.getLsbD (i - 26) := by
  unfold cmpForm
  erw [BitVec.getLsbD_append, BitVec.getLsbD_append, BitVec.getLsbD_append, BitVec.getLsbD_append]
  grind

theorem getLsbD_bForm (o : BitVec 6) (bo bi : BitVec 5) (bd : BitVec 14) (i : Nat) :
    (bForm o bo bi bd).getLsbD i =
      if i < 2 then false else if i < 16 then bd.getLsbD (i - 2) else if i < 21 then bi.getLsbD (i - 16)
      else if i < 26 then bo.getLsbD (i - 21) else o.getLsbD (i - 26) := by
  unfold bForm
  erw [BitVec.getLsbD_append, BitVec.getLsbD_append, BitVec.getLsbD_append, BitVec.getLsbD_append]
  grind

theorem getLsbD_iForm (o : BitVec 6) (li : BitVec 24) (i : Nat) :
    (iForm o li).getLsbD i =
      if i < 2 then false else if i < 26 then li.getLsbD (i - 2) else o.getLsbD (i - 26) := by
  unfold iForm
  erw [BitVec.getLsbD_append, BitVec.getLsbD_append]
  grind

theorem getLsbD_xForm (o : BitVec 6) (r a b : BitVec 5) (xo : BitVec 10) (rc : Bool) (i : Nat) :
    (xForm o r a b xo rc).getLsbD i =
      if i < 1 then rc else if i < 11 then xo.getLsbD (i - 1) else if i < 16 then b.getLsbD (i - 11)
      else if i < 21 then a.getLsbD (i - 16) else if i < 26 then r.getLsbD (i - 21) else o.getLsbD (i - 26) := by
  unfold xForm
  erw [BitVec.getLsbD_append, BitVec.getLsbD_append, BitVec.getLsbD_append, BitVec.getLsbD_append,
    BitVec.getLsbD_append]
  grind [BitVec.getLsbD_ofBool]

/-! ### The fixed bits of the forms -/

/-- An X-form word under a row's mask does not depend on its register fields. -/
theorem xForm_and (o : BitVec 6) (r a b : BitVec 5) (xo : BitVec 10) (rc : Bool) :
    xForm o r a b xo rc &&& 0xFC0007FF = xForm o 0 0 0 xo rc := by
  apply BitVec.eq_of_getLsbD_eq
  intro i hi
  rw [BitVec.getLsbD_and, getLsbD_xForm, getLsbD_xForm]
  interval_cases i <;> simp

/-- Nor, where the row leaves the record bit free, on that bit. -/
theorem xForm_and_rc (o : BitVec 6) (r a b : BitVec 5) (xo : BitVec 10) (rc : Bool) :
    xForm o r a b xo rc &&& 0xFC0007FE = xForm o 0 0 0 xo false := by
  apply BitVec.eq_of_getLsbD_eq
  intro i hi
  rw [BitVec.getLsbD_and, getLsbD_xForm, getLsbD_xForm]
  interval_cases i <;> simp

/-- The mask of `frsp` keeps the rA field too. -/
theorem xForm_and_frsp (o : BitVec 6) (r a b : BitVec 5) (xo : BitVec 10) (rc : Bool) :
    xForm o r a b xo rc &&& 0xFC1F07FE = xForm o 0 a 0 xo false := by
  apply BitVec.eq_of_getLsbD_eq
  intro i hi
  rw [BitVec.getLsbD_and, getLsbD_xForm, getLsbD_xForm]
  interval_cases i <;> simp

/-- A D-form word under its row's mask is its primary opcode. -/
theorem dForm_and (o : BitVec 6) (r a : Reg) (d : BitVec 16) :
    dForm o r a d &&& 0xFC000000 = dForm o 0 0 0 := by
  apply BitVec.eq_of_getLsbD_eq
  intro i hi
  rw [BitVec.getLsbD_and, getLsbD_dForm, getLsbD_dForm]
  interval_cases i <;> simp

/-- A compare word under its row's mask. -/
theorem cmpForm_and (o : BitVec 6) (c : BitVec 3) (a : Reg) (d : BitVec 16) :
    cmpForm o c a d &&& 0xFC600000 = cmpForm o 0 0 0 := by
  apply BitVec.eq_of_getLsbD_eq
  intro i hi
  rw [BitVec.getLsbD_and, getLsbD_cmpForm, getLsbD_cmpForm]
  interval_cases i <;> simp

/-- A `beq` word under its row's mask keeps BO and the two low bits of BI. -/
theorem bForm_and (o : BitVec 6) (bo : BitVec 5) (c : BitVec 3) (bd : BitVec 14) :
    bForm o bo (c ++ 2#2) bd &&& 0xFFE30003 = bForm o bo 2 0 := by
  apply BitVec.eq_of_getLsbD_eq
  intro i hi
  rw [BitVec.getLsbD_and, getLsbD_bForm, getLsbD_bForm]
  interval_cases i <;> simp <;> revert c <;> decide

/-- A `b` word under its row's mask. -/
theorem iForm_and (o : BitVec 6) (li : BitVec 24) : iForm o li &&& 0xFC000003 = iForm o 0 := by
  apply BitVec.eq_of_getLsbD_eq
  intro i hi
  rw [BitVec.getLsbD_and, getLsbD_iForm, getLsbD_iForm]
  interval_cases i <;> simp

/-! ### The fields of the forms -/

theorem fieldD_xForm (o : BitVec 6) (r a b : BitVec 5) (xo : BitVec 10) (rc : Bool) :
    fieldD (xForm o r a b xo rc) = r := by
  apply BitVec.eq_of_getLsbD_eq
  intro i hi
  unfold fieldD bits
  rw [BitVec.getLsbD_extractLsb, getLsbD_xForm]
  grind

theorem fieldA_xForm (o : BitVec 6) (r a b : BitVec 5) (xo : BitVec 10) (rc : Bool) :
    fieldA (xForm o r a b xo rc) = a := by
  apply BitVec.eq_of_getLsbD_eq
  intro i hi
  unfold fieldA bits
  rw [BitVec.getLsbD_extractLsb, getLsbD_xForm]
  grind

theorem fieldB_xForm (o : BitVec 6) (r a b : BitVec 5) (xo : BitVec 10) (rc : Bool) :
    fieldB (xForm o r a b xo rc) = b := by
  apply BitVec.eq_of_getLsbD_eq
  intro i hi
  unfold fieldB bits
  rw [BitVec.getLsbD_extractLsb, getLsbD_xForm]
  grind

theorem fieldRc_xForm (o : BitVec 6) (r a b : BitVec 5) (xo : BitVec 10) (rc : Bool) :
    fieldRc (xForm o r a b xo rc) = rc := by
  unfold fieldRc
  rw [getLsbD_xForm]
  rfl

theorem fieldD_dForm (o : BitVec 6) (r a : Reg) (d : BitVec 16) : fieldD (dForm o r a d) = r := by
  apply BitVec.eq_of_getLsbD_eq
  intro i hi
  unfold fieldD bits
  rw [BitVec.getLsbD_extractLsb, getLsbD_dForm]
  grind

theorem fieldA_dForm (o : BitVec 6) (r a : Reg) (d : BitVec 16) : fieldA (dForm o r a d) = a := by
  apply BitVec.eq_of_getLsbD_eq
  intro i hi
  unfold fieldA bits
  rw [BitVec.getLsbD_extractLsb, getLsbD_dForm]
  grind

theorem fieldImm_dForm (o : BitVec 6) (r a : Reg) (d : BitVec 16) : fieldImm (dForm o r a d) = d := by
  apply BitVec.eq_of_getLsbD_eq
  intro i hi
  unfold fieldImm bits
  rw [BitVec.getLsbD_extractLsb, getLsbD_dForm]
  grind

theorem fieldA_cmpForm (o : BitVec 6) (c : BitVec 3) (a : Reg) (d : BitVec 16) : fieldA (cmpForm o c a d) = a := by
  apply BitVec.eq_of_getLsbD_eq
  intro i hi
  unfold fieldA bits
  rw [BitVec.getLsbD_extractLsb, getLsbD_cmpForm]
  grind

theorem fieldImm_cmpForm (o : BitVec 6) (c : BitVec 3) (a : Reg) (d : BitVec 16) :
    fieldImm (cmpForm o c a d) = d := by
  apply BitVec.eq_of_getLsbD_eq
  intro i hi
  unfold fieldImm bits
  rw [BitVec.getLsbD_extractLsb, getLsbD_cmpForm]
  grind

theorem bits_crf_cmpForm (o : BitVec 6) (c : BitVec 3) (a : Reg) (d : BitVec 16) :
    bits (cmpForm o c a d) 25 23 = c := by
  apply BitVec.eq_of_getLsbD_eq
  intro i hi
  unfold bits
  rw [BitVec.getLsbD_extractLsb, getLsbD_cmpForm]
  grind

theorem bits_crf_bForm (o : BitVec 6) (bo : BitVec 5) (c : BitVec 3) (bd : BitVec 14) :
    bits (bForm o bo (c ++ 2#2) bd) 20 18 = c := by
  apply BitVec.eq_of_getLsbD_eq
  intro i hi
  unfold bits
  rw [BitVec.getLsbD_extractLsb, getLsbD_bForm]
  erw [BitVec.getLsbD_append]
  grind

theorem bits_bd_bForm (o : BitVec 6) (bo bi : BitVec 5) (bd : BitVec 14) : bits (bForm o bo bi bd) 15 2 = bd := by
  apply BitVec.eq_of_getLsbD_eq
  intro i hi
  unfold bits
  rw [BitVec.getLsbD_extractLsb, getLsbD_bForm]
  grind

theorem bits_li_iForm (o : BitVec 6) (li : BitVec 24) : bits (iForm o li) 25 2 = li := by
  apply BitVec.eq_of_getLsbD_eq
  intro i hi
  unfold bits
  rw [BitVec.getLsbD_extractLsb, getLsbD_iForm]
  grind

/-- The halves of an SPR number, swapped by the encoding and put in order by the decoder (R108). -/
theorem fieldSpr_xForm (o : BitVec 6) (r : Reg) (n : BitVec 10) (xo : BitVec 10) (rc : Bool) :
    fieldSpr (xForm o r (n.extractLsb 4 0) (n.extractLsb 9 5) xo rc) = n := by
  apply BitVec.eq_of_getLsbD_eq
  intro i hi
  unfold fieldSpr bits
  erw [BitVec.getLsbD_append, BitVec.getLsbD_extractLsb, BitVec.getLsbD_extractLsb, getLsbD_xForm, getLsbD_xForm]
  interval_cases i <;> simp

end Sys2Proof
end

