-- ==== Sys2Proof/Laws/Memory.lean ====
section
/-! SUPPORT. Sparse lists and memory: reads after writes, and that every write keeps the canonical form. -/

namespace Sys2Proof.Machine

section
variable {α : Type} [DecidableEq α] {z : α}

theorem sparseGet_of_lt (l : List (Nat × α)) (low k : Nat) (h : sparseWfFrom z low l = true) (hk : k < low) :
    sparseGet z l k = z := by
  induction l generalizing low with
  | nil => rfl
  | cons c rest ih =>
    simp only [sparseWfFrom, Bool.and_eq_true, decide_eq_true_eq] at h
    obtain ⟨⟨hlow, -⟩, hrest⟩ := h
    rw [sparseGet, if_neg (by omega)]
    exact ih (c.1 + 1) hrest (by omega)

theorem sparseWfFrom_mono (l : List (Nat × α)) (low low' : Nat) (h : sparseWfFrom z low l = true) (hl : low' ≤ low) :
    sparseWfFrom z low' l = true := by
  cases l with
  | nil => rfl
  | cons c rest =>
    simp only [sparseWfFrom, Bool.and_eq_true, decide_eq_true_eq] at h ⊢
    exact ⟨⟨by omega, h.1.2⟩, h.2⟩

theorem sparseWfFrom_set (l : List (Nat × α)) (low k : Nat) (v : α) (h : sparseWfFrom z low l = true) (hk : low ≤ k) :
    sparseWfFrom z low (sparseSet z l k v) = true := by
  induction l generalizing low with
  | nil =>
    unfold sparseSet
    split
    · rfl
    · simp_all [sparseWfFrom]
  | cons c rest ih =>
    simp only [sparseWfFrom, Bool.and_eq_true, decide_eq_true_eq] at h
    obtain ⟨⟨hlow, hne⟩, hrest⟩ := h
    unfold sparseSet
    split
    · split
      · simp_all [sparseWfFrom]
      · simp only [sparseWfFrom, Bool.and_eq_true, decide_eq_true_eq]
        exact ⟨⟨hk, ‹_›⟩, ⟨by omega, hne⟩, hrest⟩
    · split
      · split
        · exact sparseWfFrom_mono rest _ _ hrest (by omega)
        · subst k
          simp only [sparseWfFrom, Bool.and_eq_true, decide_eq_true_eq]
          exact ⟨⟨hlow, ‹_›⟩, hrest⟩
      · simp only [sparseWfFrom, Bool.and_eq_true, decide_eq_true_eq]
        exact ⟨⟨hlow, hne⟩, ih _ hrest (by omega)⟩

/-- A write keeps the canonical form. -/
theorem sparseWf_set (l : List (Nat × α)) (k : Nat) (v : α) (h : sparseWf z l = true) :
    sparseWf z (sparseSet z l k v) = true := sparseWfFrom_set l 0 k v h (Nat.zero_le k)

omit [DecidableEq α] in
theorem sparseGet_cons (c : Nat × α) (rest : List (Nat × α)) (k : Nat) :
    sparseGet z (c :: rest) k = if c.1 = k then c.2 else sparseGet z rest k := rfl

/-- What a number reads as after a write, in any list: another number is unchanged. -/
theorem sparseGet_set_other (l : List (Nat × α)) (k k' : Nat) (v : α) (h : k' ≠ k) :
    sparseGet z (sparseSet z l k v) k' = sparseGet z l k' := by
  induction l with
  | nil =>
    unfold sparseSet
    split
    · rfl
    · rw [sparseGet_cons, if_neg (by simpa using Ne.symm h)]
  | cons c rest ih =>
    unfold sparseSet
    split
    · split
      · rfl
      · rw [sparseGet_cons, if_neg (by simpa using Ne.symm h)]
    · split
      · subst k
        split <;> simp [sparseGet_cons, Ne.symm h]
      · rw [sparseGet_cons, sparseGet_cons, ih]

/-- In a list in canonical form a written number reads as the value written. -/
theorem sparseGet_set_same (l : List (Nat × α)) (k : Nat) (v : α) (h : sparseWf z l = true) :
    sparseGet z (sparseSet z l k v) k = v := by
  unfold sparseWf at h
  revert h
  generalize 0 = low
  induction l generalizing low with
  | nil =>
    intro _
    unfold sparseSet
    split
    · simp_all [sparseGet]
    · simp [sparseGet]
  | cons c rest ih =>
    intro h
    have h' := h
    simp only [sparseWfFrom, Bool.and_eq_true, decide_eq_true_eq] at h
    obtain ⟨⟨hlow, hne⟩, hrest⟩ := h
    unfold sparseSet
    split
    · split
      · subst v
        exact sparseGet_of_lt (c :: rest) c.1 k
          (by simp [sparseWfFrom, hne, hrest]) ‹_›
      · simp [sparseGet]
    · split
      · split
        · subst v
          exact sparseGet_of_lt rest (c.1 + 1) k hrest (by omega)
        · simp [sparseGet]
      · rw [sparseGet_cons, if_neg (by omega)]
        exact ih _ hrest

/-- Every listed number satisfies a property that the written one and all others had. -/
theorem sparseSet_mem (p : Nat → Prop) (l : List (Nat × α)) (k : Nat) (v : α) (hk : p k)
    (h : ∀ c ∈ l, p c.1) : ∀ c ∈ sparseSet z l k v, p c.1 := by
  induction l with
  | nil =>
    unfold sparseSet
    split <;> simp [hk]
  | cons c rest ih =>
    rw [List.forall_mem_cons] at h
    unfold sparseSet
    split
    · split <;> simp only [List.forall_mem_cons] <;> simp only [hk, h.1, true_and] <;> exact h.2
    · split
      · split
        · exact h.2
        · rw [List.forall_mem_cons]
          exact ⟨hk, h.2⟩
      · rw [List.forall_mem_cons]
        exact ⟨h.1, ih h.2⟩

end

/-- Every memory write keeps the canonical form. -/
theorem memoryWrite_wf (m : Memory) (a : Nat) (v : Byte) (h : m.wf = true) : (memoryWrite m a v).wf = true :=
  sparseWf_set m a v h

/-- A byte reads as what was last written to it. -/
theorem memoryRead_write_same (m : Memory) (a : Nat) (v : Byte) (h : m.wf = true) :
    memoryRead (memoryWrite m a v) a = v := sparseGet_set_same m a v h

/-- A write leaves every other byte alone. -/
theorem memoryRead_write_other (m : Memory) (a b : Nat) (v : Byte) (h : b ≠ a) :
    memoryRead (memoryWrite m a v) b = memoryRead m b := sparseGet_set_other m a b v h

/-- A host's write keeps the canonical form too: it is the same write. -/
theorem reset_memory_wf : State.reset.mem.wf = true := rfl

@[simp] theorem physRead_physWrite_other (s : State) (a b : Nat) (v : Byte) (h : b ≠ a) :
    (s.physWrite a v).physRead b = s.physRead b := memoryRead_write_other s.mem a b v h

theorem physRead_physWrite_same (s : State) (a : Nat) (v : Byte) (h : s.mem.wf = true) :
    (s.physWrite a v).physRead a = v := memoryRead_write_same s.mem a v h

theorem physWriteBytes_wf (s : State) (a : Nat) (l : List Byte) (h : s.mem.wf = true) :
    (s.physWriteBytes a l).mem.wf = true := by
  induction l generalizing s a with
  | nil => exact h
  | cons v rest ih => exact ih (s.physWrite a v) (a + 1) (memoryWrite_wf s.mem a v h)

/-- Bytes outside those written read as before. -/
theorem physRead_physWriteBytes_other (s : State) (a b : Nat) (l : List Byte) (h : b < a ∨ a + l.length ≤ b) :
    (s.physWriteBytes a l).physRead b = s.physRead b := by
  induction l generalizing s a with
  | nil => rfl
  | cons v rest ih =>
    simp only [List.length_cons] at h
    rw [State.physWriteBytes, ih (s.physWrite a v) (a + 1) (by omega), physRead_physWrite_other _ _ _ _ (by omega)]

/-- The bytes written read as the list says. -/
theorem physRead_physWriteBytes_same (s : State) (a k : Nat) (l : List Byte) (hw : s.mem.wf = true)
    (h : k < l.length) : (s.physWriteBytes a l).physRead (a + k) = l[k] := by
  induction l generalizing s a k with
  | nil => simp at h
  | cons v rest ih =>
    rw [State.physWriteBytes]
    cases k with
    | zero =>
      rw [physRead_physWriteBytes_other _ _ _ _ (by omega)]
      exact physRead_physWrite_same s a v hw
    | succ k =>
      have := ih (s.physWrite a v) (a + 1) k (memoryWrite_wf s.mem a v hw) (by simpa using h)
      rw [show a + (k + 1) = a + 1 + k by omega, this]
      rfl

@[simp] theorem valueBytes_length {m : Nat} (n : Nat) (v : BitVec m) : (valueBytes n v).length = n := by
  induction n with
  | zero => rfl
  | succ n ih => simp [valueBytes, ih]

/-- Byte `k` of a value's bytes is the byte of significance `n - 1 - k`. -/
theorem valueBytes_getElem {m : Nat} (n k : Nat) (v : BitVec m) (h : k < (valueBytes n v).length) :
    (valueBytes n v)[k] = v.extractLsb' (8 * (n - 1 - k)) 8 := by
  induction n generalizing k with
  | zero => simp [valueBytes] at h
  | succ n ih =>
    cases k with
    | zero => simp [valueBytes]
    | succ k =>
      simp only [valueBytes_length] at h
      have := ih k (by simpa using by omega)
      simp only [valueBytes, List.getElem_cons_succ, this]
      congr 2
      omega

@[simp] theorem physBytes_length (s : State) (a n : Nat) : (s.physBytes a n).length = n := by
  induction n generalizing a with
  | zero => rfl
  | succ n ih => simp [State.physBytes, ih]

theorem physBytes_getElem (s : State) (a n k : Nat) (h : k < (s.physBytes a n).length) :
    (s.physBytes a n)[k] = s.physRead (a + k) := by
  induction n generalizing a k with
  | zero => simp [State.physBytes] at h
  | succ n ih =>
    cases k with
    | zero => simp [State.physBytes]
    | succ k =>
      simp only [physBytes_length] at h
      have := ih (a + 1) k (by simpa using by omega)
      simp only [State.physBytes, List.getElem_cons_succ, this]
      congr 1
      omega

theorem bytesValue_lt (l : List Byte) : bytesValue l < 256 ^ l.length := by
  induction l with
  | nil => simp [bytesValue]
  | cons v rest ih =>
    have hv := v.isLt
    have : v.toNat * 256 ^ rest.length ≤ 255 * 256 ^ rest.length := Nat.mul_le_mul_right _ (by omega)
    simp only [bytesValue, List.length_cons, pow_succ]
    omega

/-- The number of a value's bytes is the value. -/
theorem bytesValue_valueBytes {m : Nat} (n : Nat) (v : BitVec m) :
    bytesValue (valueBytes n v) = v.toNat % 256 ^ n := by
  induction n with
  | zero => simp [valueBytes, bytesValue, Nat.mod_one]
  | succ n ih =>
    simp only [valueBytes, bytesValue, valueBytes_length, ih, BitVec.extractLsb'_toNat, Nat.shiftRight_eq_div_pow]
    have h := Nat.mod_mul (x := v.toNat) (a := 256 ^ n) (b := 256)
    rw [show (2 : Nat) ^ (8 * n) = 256 ^ n by rw [Nat.pow_mul], show (256 : Nat) ^ (n + 1) = 256 ^ n * 256 from rfl, h,
      Nat.mul_comm (256 ^ n)]
    exact Nat.add_comm _ _

/-- The bytes of a range that was written whole are the bytes written. -/
theorem physBytes_physWriteBytes (s : State) (a : Nat) (l : List Byte) (hw : s.mem.wf = true) :
    (s.physWriteBytes a l).physBytes a l.length = l := by
  apply List.ext_getElem
  · simp
  · intro k h1 h2
    rw [physBytes_getElem, physRead_physWriteBytes_same s a k l hw h2]

end Sys2Proof.Machine
end

