-- ==== Sys2Proof/Laws/State.lean ====
section
/-! SUPPORT. What each state operation leaves alone, one lemma per field, and what the register accessors read after a
write. -/

namespace Sys2Proof.Machine

section
variable (s : State)

/-! `writeGpr` changes the general registers only. -/

@[simp] theorem writeGpr_fpr (r : Reg) (v : Word) : (s.writeGpr r v).fpr = s.fpr := rfl
@[simp] theorem writeGpr_pc (r : Reg) (v : Word) : (s.writeGpr r v).pc = s.pc := rfl
@[simp] theorem writeGpr_lr (r : Reg) (v : Word) : (s.writeGpr r v).lr = s.lr := rfl
@[simp] theorem writeGpr_ctr (r : Reg) (v : Word) : (s.writeGpr r v).ctr = s.ctr := rfl
@[simp] theorem writeGpr_cr (r : Reg) (v : Word) : (s.writeGpr r v).cr = s.cr := rfl
@[simp] theorem writeGpr_xer (r : Reg) (v : Word) : (s.writeGpr r v).xer = s.xer := rfl
@[simp] theorem writeGpr_msr (r : Reg) (v : Word) : (s.writeGpr r v).msr = s.msr := rfl
@[simp] theorem writeGpr_fpscr (r : Reg) (v : Word) : (s.writeGpr r v).fpscr = s.fpscr := rfl
@[simp] theorem writeGpr_srr0 (r : Reg) (v : Word) : (s.writeGpr r v).srr0 = s.srr0 := rfl
@[simp] theorem writeGpr_srr1 (r : Reg) (v : Word) : (s.writeGpr r v).srr1 = s.srr1 := rfl
@[simp] theorem writeGpr_dar (r : Reg) (v : Word) : (s.writeGpr r v).dar = s.dar := rfl
@[simp] theorem writeGpr_dsisr (r : Reg) (v : Word) : (s.writeGpr r v).dsisr = s.dsisr := rfl
@[simp] theorem writeGpr_otherSpr (r : Reg) (v : Word) : (s.writeGpr r v).otherSpr = s.otherSpr := rfl
@[simp] theorem writeGpr_mem (r : Reg) (v : Word) : (s.writeGpr r v).mem = s.mem := rfl
@[simp] theorem writeGpr_stored (r : Reg) (v : Word) : (s.writeGpr r v).stored = s.stored := rfl
@[simp] theorem writeGpr_draws (r : Reg) (v : Word) : (s.writeGpr r v).draws = s.draws := rfl
@[simp] theorem writeGpr_platform (r : Reg) (v : Word) : (s.writeGpr r v).platform = s.platform := rfl

/-! `withPc` changes the instruction address only. -/

@[simp] theorem withPc_gpr (a : Word) : (s.withPc a).gpr = s.gpr := rfl
@[simp] theorem withPc_fpr (a : Word) : (s.withPc a).fpr = s.fpr := rfl
@[simp] theorem withPc_lr (a : Word) : (s.withPc a).lr = s.lr := rfl
@[simp] theorem withPc_ctr (a : Word) : (s.withPc a).ctr = s.ctr := rfl
@[simp] theorem withPc_cr (a : Word) : (s.withPc a).cr = s.cr := rfl
@[simp] theorem withPc_xer (a : Word) : (s.withPc a).xer = s.xer := rfl
@[simp] theorem withPc_msr (a : Word) : (s.withPc a).msr = s.msr := rfl
@[simp] theorem withPc_fpscr (a : Word) : (s.withPc a).fpscr = s.fpscr := rfl
@[simp] theorem withPc_srr0 (a : Word) : (s.withPc a).srr0 = s.srr0 := rfl
@[simp] theorem withPc_srr1 (a : Word) : (s.withPc a).srr1 = s.srr1 := rfl
@[simp] theorem withPc_dar (a : Word) : (s.withPc a).dar = s.dar := rfl
@[simp] theorem withPc_dsisr (a : Word) : (s.withPc a).dsisr = s.dsisr := rfl
@[simp] theorem withPc_otherSpr (a : Word) : (s.withPc a).otherSpr = s.otherSpr := rfl
@[simp] theorem withPc_mem (a : Word) : (s.withPc a).mem = s.mem := rfl
@[simp] theorem withPc_stored (a : Word) : (s.withPc a).stored = s.stored := rfl
@[simp] theorem withPc_draws (a : Word) : (s.withPc a).draws = s.draws := rfl
@[simp] theorem withPc_platform (a : Word) : (s.withPc a).platform = s.platform := rfl

/-! `writeFpr` changes the floating-point registers only. -/

@[simp] theorem writeFpr_gpr (r : Reg) (v : Double) : (s.writeFpr r v).gpr = s.gpr := rfl
@[simp] theorem writeFpr_pc (r : Reg) (v : Double) : (s.writeFpr r v).pc = s.pc := rfl
@[simp] theorem writeFpr_lr (r : Reg) (v : Double) : (s.writeFpr r v).lr = s.lr := rfl
@[simp] theorem writeFpr_ctr (r : Reg) (v : Double) : (s.writeFpr r v).ctr = s.ctr := rfl
@[simp] theorem writeFpr_cr (r : Reg) (v : Double) : (s.writeFpr r v).cr = s.cr := rfl
@[simp] theorem writeFpr_xer (r : Reg) (v : Double) : (s.writeFpr r v).xer = s.xer := rfl
@[simp] theorem writeFpr_msr (r : Reg) (v : Double) : (s.writeFpr r v).msr = s.msr := rfl
@[simp] theorem writeFpr_fpscr (r : Reg) (v : Double) : (s.writeFpr r v).fpscr = s.fpscr := rfl
@[simp] theorem writeFpr_srr0 (r : Reg) (v : Double) : (s.writeFpr r v).srr0 = s.srr0 := rfl
@[simp] theorem writeFpr_srr1 (r : Reg) (v : Double) : (s.writeFpr r v).srr1 = s.srr1 := rfl
@[simp] theorem writeFpr_dar (r : Reg) (v : Double) : (s.writeFpr r v).dar = s.dar := rfl
@[simp] theorem writeFpr_dsisr (r : Reg) (v : Double) : (s.writeFpr r v).dsisr = s.dsisr := rfl
@[simp] theorem writeFpr_otherSpr (r : Reg) (v : Double) : (s.writeFpr r v).otherSpr = s.otherSpr := rfl
@[simp] theorem writeFpr_mem (r : Reg) (v : Double) : (s.writeFpr r v).mem = s.mem := rfl
@[simp] theorem writeFpr_stored (r : Reg) (v : Double) : (s.writeFpr r v).stored = s.stored := rfl
@[simp] theorem writeFpr_draws (r : Reg) (v : Double) : (s.writeFpr r v).draws = s.draws := rfl
@[simp] theorem writeFpr_platform (r : Reg) (v : Double) : (s.writeFpr r v).platform = s.platform := rfl

/-! `writeCrField` changes the condition register only. -/

@[simp] theorem writeCrField_gpr (k : BitVec 3) (v : BitVec 4) : (s.writeCrField k v).gpr = s.gpr := rfl
@[simp] theorem writeCrField_fpr (k : BitVec 3) (v : BitVec 4) : (s.writeCrField k v).fpr = s.fpr := rfl
@[simp] theorem writeCrField_pc (k : BitVec 3) (v : BitVec 4) : (s.writeCrField k v).pc = s.pc := rfl
@[simp] theorem writeCrField_lr (k : BitVec 3) (v : BitVec 4) : (s.writeCrField k v).lr = s.lr := rfl
@[simp] theorem writeCrField_ctr (k : BitVec 3) (v : BitVec 4) : (s.writeCrField k v).ctr = s.ctr := rfl
@[simp] theorem writeCrField_xer (k : BitVec 3) (v : BitVec 4) : (s.writeCrField k v).xer = s.xer := rfl
@[simp] theorem writeCrField_msr (k : BitVec 3) (v : BitVec 4) : (s.writeCrField k v).msr = s.msr := rfl
@[simp] theorem writeCrField_fpscr (k : BitVec 3) (v : BitVec 4) : (s.writeCrField k v).fpscr = s.fpscr := rfl
@[simp] theorem writeCrField_srr0 (k : BitVec 3) (v : BitVec 4) : (s.writeCrField k v).srr0 = s.srr0 := rfl
@[simp] theorem writeCrField_srr1 (k : BitVec 3) (v : BitVec 4) : (s.writeCrField k v).srr1 = s.srr1 := rfl
@[simp] theorem writeCrField_dar (k : BitVec 3) (v : BitVec 4) : (s.writeCrField k v).dar = s.dar := rfl
@[simp] theorem writeCrField_dsisr (k : BitVec 3) (v : BitVec 4) : (s.writeCrField k v).dsisr = s.dsisr := rfl
@[simp] theorem writeCrField_otherSpr (k : BitVec 3) (v : BitVec 4) : (s.writeCrField k v).otherSpr = s.otherSpr := rfl
@[simp] theorem writeCrField_mem (k : BitVec 3) (v : BitVec 4) : (s.writeCrField k v).mem = s.mem := rfl
@[simp] theorem writeCrField_stored (k : BitVec 3) (v : BitVec 4) : (s.writeCrField k v).stored = s.stored := rfl
@[simp] theorem writeCrField_draws (k : BitVec 3) (v : BitVec 4) : (s.writeCrField k v).draws = s.draws := rfl
@[simp] theorem writeCrField_platform (k : BitVec 3) (v : BitVec 4) : (s.writeCrField k v).platform = s.platform := rfl

/-! `physWrite` changes memory and the set of stored bytes only. -/

@[simp] theorem physWrite_gpr (a : Nat) (v : Byte) : (s.physWrite a v).gpr = s.gpr := rfl
@[simp] theorem physWrite_fpr (a : Nat) (v : Byte) : (s.physWrite a v).fpr = s.fpr := rfl
@[simp] theorem physWrite_pc (a : Nat) (v : Byte) : (s.physWrite a v).pc = s.pc := rfl
@[simp] theorem physWrite_lr (a : Nat) (v : Byte) : (s.physWrite a v).lr = s.lr := rfl
@[simp] theorem physWrite_ctr (a : Nat) (v : Byte) : (s.physWrite a v).ctr = s.ctr := rfl
@[simp] theorem physWrite_cr (a : Nat) (v : Byte) : (s.physWrite a v).cr = s.cr := rfl
@[simp] theorem physWrite_xer (a : Nat) (v : Byte) : (s.physWrite a v).xer = s.xer := rfl
@[simp] theorem physWrite_msr (a : Nat) (v : Byte) : (s.physWrite a v).msr = s.msr := rfl
@[simp] theorem physWrite_fpscr (a : Nat) (v : Byte) : (s.physWrite a v).fpscr = s.fpscr := rfl
@[simp] theorem physWrite_srr0 (a : Nat) (v : Byte) : (s.physWrite a v).srr0 = s.srr0 := rfl
@[simp] theorem physWrite_srr1 (a : Nat) (v : Byte) : (s.physWrite a v).srr1 = s.srr1 := rfl
@[simp] theorem physWrite_dar (a : Nat) (v : Byte) : (s.physWrite a v).dar = s.dar := rfl
@[simp] theorem physWrite_dsisr (a : Nat) (v : Byte) : (s.physWrite a v).dsisr = s.dsisr := rfl
@[simp] theorem physWrite_otherSpr (a : Nat) (v : Byte) : (s.physWrite a v).otherSpr = s.otherSpr := rfl
@[simp] theorem physWrite_draws (a : Nat) (v : Byte) : (s.physWrite a v).draws = s.draws := rfl
@[simp] theorem physWrite_platform (a : Nat) (v : Byte) : (s.physWrite a v).platform = s.platform := rfl

/-! `branchRelative` changes the instruction address only. -/

@[simp] theorem branchRelative_gpr (disp : Word) : (s.branchRelative disp).gpr = s.gpr := rfl
@[simp] theorem branchRelative_fpr (disp : Word) : (s.branchRelative disp).fpr = s.fpr := rfl
@[simp] theorem branchRelative_lr (disp : Word) : (s.branchRelative disp).lr = s.lr := rfl
@[simp] theorem branchRelative_ctr (disp : Word) : (s.branchRelative disp).ctr = s.ctr := rfl
@[simp] theorem branchRelative_cr (disp : Word) : (s.branchRelative disp).cr = s.cr := rfl
@[simp] theorem branchRelative_xer (disp : Word) : (s.branchRelative disp).xer = s.xer := rfl
@[simp] theorem branchRelative_msr (disp : Word) : (s.branchRelative disp).msr = s.msr := rfl
@[simp] theorem branchRelative_fpscr (disp : Word) : (s.branchRelative disp).fpscr = s.fpscr := rfl
@[simp] theorem branchRelative_srr0 (disp : Word) : (s.branchRelative disp).srr0 = s.srr0 := rfl
@[simp] theorem branchRelative_srr1 (disp : Word) : (s.branchRelative disp).srr1 = s.srr1 := rfl
@[simp] theorem branchRelative_dar (disp : Word) : (s.branchRelative disp).dar = s.dar := rfl
@[simp] theorem branchRelative_dsisr (disp : Word) : (s.branchRelative disp).dsisr = s.dsisr := rfl
@[simp] theorem branchRelative_otherSpr (disp : Word) : (s.branchRelative disp).otherSpr = s.otherSpr := rfl
@[simp] theorem branchRelative_mem (disp : Word) : (s.branchRelative disp).mem = s.mem := rfl
@[simp] theorem branchRelative_stored (disp : Word) : (s.branchRelative disp).stored = s.stored := rfl
@[simp] theorem branchRelative_draws (disp : Word) : (s.branchRelative disp).draws = s.draws := rfl
@[simp] theorem branchRelative_platform (disp : Word) : (s.branchRelative disp).platform = s.platform := rfl

/-! `linkNext` changes the link register only. -/

@[simp] theorem linkNext_gpr : (s.linkNext).gpr = s.gpr := rfl
@[simp] theorem linkNext_fpr : (s.linkNext).fpr = s.fpr := rfl
@[simp] theorem linkNext_pc : (s.linkNext).pc = s.pc := rfl
@[simp] theorem linkNext_ctr : (s.linkNext).ctr = s.ctr := rfl
@[simp] theorem linkNext_cr : (s.linkNext).cr = s.cr := rfl
@[simp] theorem linkNext_xer : (s.linkNext).xer = s.xer := rfl
@[simp] theorem linkNext_msr : (s.linkNext).msr = s.msr := rfl
@[simp] theorem linkNext_fpscr : (s.linkNext).fpscr = s.fpscr := rfl
@[simp] theorem linkNext_srr0 : (s.linkNext).srr0 = s.srr0 := rfl
@[simp] theorem linkNext_srr1 : (s.linkNext).srr1 = s.srr1 := rfl
@[simp] theorem linkNext_dar : (s.linkNext).dar = s.dar := rfl
@[simp] theorem linkNext_dsisr : (s.linkNext).dsisr = s.dsisr := rfl
@[simp] theorem linkNext_otherSpr : (s.linkNext).otherSpr = s.otherSpr := rfl
@[simp] theorem linkNext_mem : (s.linkNext).mem = s.mem := rfl
@[simp] theorem linkNext_stored : (s.linkNext).stored = s.stored := rfl
@[simp] theorem linkNext_draws : (s.linkNext).draws = s.draws := rfl
@[simp] theorem linkNext_platform : (s.linkNext).platform = s.platform := rfl

@[simp] theorem linkNext_lr : s.linkNext.lr = s.pc + 4 := rfl

/-! `countDown` changes the count register only. -/

@[simp] theorem countDown_gpr (bo : BitVec 5) : (s.countDown bo).gpr = s.gpr := by
  unfold State.countDown
  split <;> rfl
@[simp] theorem countDown_fpr (bo : BitVec 5) : (s.countDown bo).fpr = s.fpr := by
  unfold State.countDown
  split <;> rfl
@[simp] theorem countDown_pc (bo : BitVec 5) : (s.countDown bo).pc = s.pc := by
  unfold State.countDown
  split <;> rfl
@[simp] theorem countDown_lr (bo : BitVec 5) : (s.countDown bo).lr = s.lr := by
  unfold State.countDown
  split <;> rfl
@[simp] theorem countDown_cr (bo : BitVec 5) : (s.countDown bo).cr = s.cr := by
  unfold State.countDown
  split <;> rfl
@[simp] theorem countDown_xer (bo : BitVec 5) : (s.countDown bo).xer = s.xer := by
  unfold State.countDown
  split <;> rfl
@[simp] theorem countDown_msr (bo : BitVec 5) : (s.countDown bo).msr = s.msr := by
  unfold State.countDown
  split <;> rfl
@[simp] theorem countDown_fpscr (bo : BitVec 5) : (s.countDown bo).fpscr = s.fpscr := by
  unfold State.countDown
  split <;> rfl
@[simp] theorem countDown_srr0 (bo : BitVec 5) : (s.countDown bo).srr0 = s.srr0 := by
  unfold State.countDown
  split <;> rfl
@[simp] theorem countDown_srr1 (bo : BitVec 5) : (s.countDown bo).srr1 = s.srr1 := by
  unfold State.countDown
  split <;> rfl
@[simp] theorem countDown_dar (bo : BitVec 5) : (s.countDown bo).dar = s.dar := by
  unfold State.countDown
  split <;> rfl
@[simp] theorem countDown_dsisr (bo : BitVec 5) : (s.countDown bo).dsisr = s.dsisr := by
  unfold State.countDown
  split <;> rfl
@[simp] theorem countDown_otherSpr (bo : BitVec 5) : (s.countDown bo).otherSpr = s.otherSpr := by
  unfold State.countDown
  split <;> rfl
@[simp] theorem countDown_mem (bo : BitVec 5) : (s.countDown bo).mem = s.mem := by
  unfold State.countDown
  split <;> rfl
@[simp] theorem countDown_stored (bo : BitVec 5) : (s.countDown bo).stored = s.stored := by
  unfold State.countDown
  split <;> rfl
@[simp] theorem countDown_draws (bo : BitVec 5) : (s.countDown bo).draws = s.draws := by
  unfold State.countDown
  split <;> rfl
@[simp] theorem countDown_platform (bo : BitVec 5) : (s.countDown bo).platform = s.platform := by
  unfold State.countDown
  split <;> rfl

@[simp] theorem countDown_ctr (bo : BitVec 5) : (s.countDown bo).ctr = if bo.getLsbD 2 then s.ctr else s.ctr - 1 := by
  unfold State.countDown
  split <;> rfl

/-! `writeSpr` changes special-purpose registers only. -/

@[simp] theorem writeSpr_gpr (n : BitVec 10) (v : Word) : (s.writeSpr n v).gpr = s.gpr := by
  unfold State.writeSpr
  repeat' (first | rfl | split)
@[simp] theorem writeSpr_fpr (n : BitVec 10) (v : Word) : (s.writeSpr n v).fpr = s.fpr := by
  unfold State.writeSpr
  repeat' (first | rfl | split)
@[simp] theorem writeSpr_pc (n : BitVec 10) (v : Word) : (s.writeSpr n v).pc = s.pc := by
  unfold State.writeSpr
  repeat' (first | rfl | split)
@[simp] theorem writeSpr_cr (n : BitVec 10) (v : Word) : (s.writeSpr n v).cr = s.cr := by
  unfold State.writeSpr
  repeat' (first | rfl | split)
@[simp] theorem writeSpr_msr (n : BitVec 10) (v : Word) : (s.writeSpr n v).msr = s.msr := by
  unfold State.writeSpr
  repeat' (first | rfl | split)
@[simp] theorem writeSpr_fpscr (n : BitVec 10) (v : Word) : (s.writeSpr n v).fpscr = s.fpscr := by
  unfold State.writeSpr
  repeat' (first | rfl | split)
@[simp] theorem writeSpr_mem (n : BitVec 10) (v : Word) : (s.writeSpr n v).mem = s.mem := by
  unfold State.writeSpr
  repeat' (first | rfl | split)
@[simp] theorem writeSpr_stored (n : BitVec 10) (v : Word) : (s.writeSpr n v).stored = s.stored := by
  unfold State.writeSpr
  repeat' (first | rfl | split)
@[simp] theorem writeSpr_draws (n : BitVec 10) (v : Word) : (s.writeSpr n v).draws = s.draws := by
  unfold State.writeSpr
  repeat' (first | rfl | split)
@[simp] theorem writeSpr_platform (n : BitVec 10) (v : Word) : (s.writeSpr n v).platform = s.platform := by
  unfold State.writeSpr
  repeat' (first | rfl | split)

/-! Exception entry changes special-purpose registers, the MSR and the instruction address only. -/

@[simp] theorem enterException_gpr (offset : Word) : (s.enterException offset).gpr = s.gpr := by simp [State.enterException]
@[simp] theorem enterException_fpr (offset : Word) : (s.enterException offset).fpr = s.fpr := by simp [State.enterException]
@[simp] theorem enterException_cr (offset : Word) : (s.enterException offset).cr = s.cr := by simp [State.enterException]
@[simp] theorem enterException_fpscr (offset : Word) : (s.enterException offset).fpscr = s.fpscr := by simp [State.enterException]
@[simp] theorem enterException_mem (offset : Word) : (s.enterException offset).mem = s.mem := by simp [State.enterException]
@[simp] theorem enterException_stored (offset : Word) : (s.enterException offset).stored = s.stored := by simp [State.enterException]
@[simp] theorem enterException_draws (offset : Word) : (s.enterException offset).draws = s.draws := by simp [State.enterException]
@[simp] theorem enterException_platform (offset : Word) : (s.enterException offset).platform = s.platform := by simp [State.enterException]

/-! `recordAlignment` changes DAR and DSISR only. -/

@[simp] theorem recordAlignment_gpr (w : Word) (e : Exc) : (s.recordAlignment w e).gpr = s.gpr := by cases e <;> rfl
@[simp] theorem recordAlignment_fpr (w : Word) (e : Exc) : (s.recordAlignment w e).fpr = s.fpr := by cases e <;> rfl
@[simp] theorem recordAlignment_pc (w : Word) (e : Exc) : (s.recordAlignment w e).pc = s.pc := by cases e <;> rfl
@[simp] theorem recordAlignment_lr (w : Word) (e : Exc) : (s.recordAlignment w e).lr = s.lr := by cases e <;> rfl
@[simp] theorem recordAlignment_ctr (w : Word) (e : Exc) : (s.recordAlignment w e).ctr = s.ctr := by cases e <;> rfl
@[simp] theorem recordAlignment_cr (w : Word) (e : Exc) : (s.recordAlignment w e).cr = s.cr := by cases e <;> rfl
@[simp] theorem recordAlignment_xer (w : Word) (e : Exc) : (s.recordAlignment w e).xer = s.xer := by cases e <;> rfl
@[simp] theorem recordAlignment_msr (w : Word) (e : Exc) : (s.recordAlignment w e).msr = s.msr := by cases e <;> rfl
@[simp] theorem recordAlignment_fpscr (w : Word) (e : Exc) : (s.recordAlignment w e).fpscr = s.fpscr := by cases e <;> rfl
@[simp] theorem recordAlignment_srr0 (w : Word) (e : Exc) : (s.recordAlignment w e).srr0 = s.srr0 := by cases e <;> rfl
@[simp] theorem recordAlignment_srr1 (w : Word) (e : Exc) : (s.recordAlignment w e).srr1 = s.srr1 := by cases e <;> rfl
@[simp] theorem recordAlignment_otherSpr (w : Word) (e : Exc) : (s.recordAlignment w e).otherSpr = s.otherSpr := by cases e <;> rfl
@[simp] theorem recordAlignment_mem (w : Word) (e : Exc) : (s.recordAlignment w e).mem = s.mem := by cases e <;> rfl
@[simp] theorem recordAlignment_stored (w : Word) (e : Exc) : (s.recordAlignment w e).stored = s.stored := by cases e <;> rfl
@[simp] theorem recordAlignment_draws (w : Word) (e : Exc) : (s.recordAlignment w e).draws = s.draws := by cases e <;> rfl
@[simp] theorem recordAlignment_platform (w : Word) (e : Exc) : (s.recordAlignment w e).platform = s.platform := by cases e <;> rfl

/-! The return from an exception changes the MSR and the instruction address only. -/

@[simp] theorem returnFromException_gpr : (s.returnFromException).gpr = s.gpr := rfl
@[simp] theorem returnFromException_fpr : (s.returnFromException).fpr = s.fpr := rfl
@[simp] theorem returnFromException_lr : (s.returnFromException).lr = s.lr := rfl
@[simp] theorem returnFromException_ctr : (s.returnFromException).ctr = s.ctr := rfl
@[simp] theorem returnFromException_cr : (s.returnFromException).cr = s.cr := rfl
@[simp] theorem returnFromException_xer : (s.returnFromException).xer = s.xer := rfl
@[simp] theorem returnFromException_fpscr : (s.returnFromException).fpscr = s.fpscr := rfl
@[simp] theorem returnFromException_srr0 : (s.returnFromException).srr0 = s.srr0 := rfl
@[simp] theorem returnFromException_srr1 : (s.returnFromException).srr1 = s.srr1 := rfl
@[simp] theorem returnFromException_dar : (s.returnFromException).dar = s.dar := rfl
@[simp] theorem returnFromException_dsisr : (s.returnFromException).dsisr = s.dsisr := rfl
@[simp] theorem returnFromException_otherSpr : (s.returnFromException).otherSpr = s.otherSpr := rfl
@[simp] theorem returnFromException_mem : (s.returnFromException).mem = s.mem := rfl
@[simp] theorem returnFromException_stored : (s.returnFromException).stored = s.stored := rfl
@[simp] theorem returnFromException_draws : (s.returnFromException).draws = s.draws := rfl
@[simp] theorem returnFromException_platform : (s.returnFromException).platform = s.platform := rfl

/-! A free target changes the general registers and the count of free values only. -/

@[simp] theorem loadNothing_fpr (rD : Reg) : (s.loadNothing rD).fpr = s.fpr := rfl
@[simp] theorem loadNothing_pc (rD : Reg) : (s.loadNothing rD).pc = s.pc := rfl
@[simp] theorem loadNothing_lr (rD : Reg) : (s.loadNothing rD).lr = s.lr := rfl
@[simp] theorem loadNothing_ctr (rD : Reg) : (s.loadNothing rD).ctr = s.ctr := rfl
@[simp] theorem loadNothing_cr (rD : Reg) : (s.loadNothing rD).cr = s.cr := rfl
@[simp] theorem loadNothing_xer (rD : Reg) : (s.loadNothing rD).xer = s.xer := rfl
@[simp] theorem loadNothing_msr (rD : Reg) : (s.loadNothing rD).msr = s.msr := rfl
@[simp] theorem loadNothing_fpscr (rD : Reg) : (s.loadNothing rD).fpscr = s.fpscr := rfl
@[simp] theorem loadNothing_srr0 (rD : Reg) : (s.loadNothing rD).srr0 = s.srr0 := rfl
@[simp] theorem loadNothing_srr1 (rD : Reg) : (s.loadNothing rD).srr1 = s.srr1 := rfl
@[simp] theorem loadNothing_dar (rD : Reg) : (s.loadNothing rD).dar = s.dar := rfl
@[simp] theorem loadNothing_dsisr (rD : Reg) : (s.loadNothing rD).dsisr = s.dsisr := rfl
@[simp] theorem loadNothing_otherSpr (rD : Reg) : (s.loadNothing rD).otherSpr = s.otherSpr := rfl
@[simp] theorem loadNothing_mem (rD : Reg) : (s.loadNothing rD).mem = s.mem := rfl
@[simp] theorem loadNothing_stored (rD : Reg) : (s.loadNothing rD).stored = s.stored := rfl
@[simp] theorem loadNothing_platform (rD : Reg) : (s.loadNothing rD).platform = s.platform := rfl

/-! A floating-point result changes the target register, the FPSCR, CR1 and the count of free values only. -/

@[simp] theorem withFpResult_gpr (frD : Reg) (d : Double) (f : Fpscr) (c : Option (BitVec 4)) : (s.withFpResult frD d f c).gpr = s.gpr := by cases c <;> rfl
@[simp] theorem withFpResult_pc (frD : Reg) (d : Double) (f : Fpscr) (c : Option (BitVec 4)) : (s.withFpResult frD d f c).pc = s.pc := by cases c <;> rfl
@[simp] theorem withFpResult_lr (frD : Reg) (d : Double) (f : Fpscr) (c : Option (BitVec 4)) : (s.withFpResult frD d f c).lr = s.lr := by cases c <;> rfl
@[simp] theorem withFpResult_ctr (frD : Reg) (d : Double) (f : Fpscr) (c : Option (BitVec 4)) : (s.withFpResult frD d f c).ctr = s.ctr := by cases c <;> rfl
@[simp] theorem withFpResult_xer (frD : Reg) (d : Double) (f : Fpscr) (c : Option (BitVec 4)) : (s.withFpResult frD d f c).xer = s.xer := by cases c <;> rfl
@[simp] theorem withFpResult_msr (frD : Reg) (d : Double) (f : Fpscr) (c : Option (BitVec 4)) : (s.withFpResult frD d f c).msr = s.msr := by cases c <;> rfl
@[simp] theorem withFpResult_srr0 (frD : Reg) (d : Double) (f : Fpscr) (c : Option (BitVec 4)) : (s.withFpResult frD d f c).srr0 = s.srr0 := by cases c <;> rfl
@[simp] theorem withFpResult_srr1 (frD : Reg) (d : Double) (f : Fpscr) (c : Option (BitVec 4)) : (s.withFpResult frD d f c).srr1 = s.srr1 := by cases c <;> rfl
@[simp] theorem withFpResult_dar (frD : Reg) (d : Double) (f : Fpscr) (c : Option (BitVec 4)) : (s.withFpResult frD d f c).dar = s.dar := by cases c <;> rfl
@[simp] theorem withFpResult_dsisr (frD : Reg) (d : Double) (f : Fpscr) (c : Option (BitVec 4)) : (s.withFpResult frD d f c).dsisr = s.dsisr := by cases c <;> rfl
@[simp] theorem withFpResult_otherSpr (frD : Reg) (d : Double) (f : Fpscr) (c : Option (BitVec 4)) : (s.withFpResult frD d f c).otherSpr = s.otherSpr := by cases c <;> rfl
@[simp] theorem withFpResult_mem (frD : Reg) (d : Double) (f : Fpscr) (c : Option (BitVec 4)) : (s.withFpResult frD d f c).mem = s.mem := by cases c <;> rfl
@[simp] theorem withFpResult_stored (frD : Reg) (d : Double) (f : Fpscr) (c : Option (BitVec 4)) : (s.withFpResult frD d f c).stored = s.stored := by cases c <;> rfl
@[simp] theorem withFpResult_platform (frD : Reg) (d : Double) (f : Fpscr) (c : Option (BitVec 4)) : (s.withFpResult frD d f c).platform = s.platform := by cases c <;> rfl

/-! `lscbxResult` changes XER and CR0 only. -/

@[simp] theorem lscbxResult_gpr (n : Nat) (found rc : Bool) : (s.lscbxResult n found rc).gpr = s.gpr := by cases rc <;> rfl
@[simp] theorem lscbxResult_fpr (n : Nat) (found rc : Bool) : (s.lscbxResult n found rc).fpr = s.fpr := by cases rc <;> rfl
@[simp] theorem lscbxResult_pc (n : Nat) (found rc : Bool) : (s.lscbxResult n found rc).pc = s.pc := by cases rc <;> rfl
@[simp] theorem lscbxResult_lr (n : Nat) (found rc : Bool) : (s.lscbxResult n found rc).lr = s.lr := by cases rc <;> rfl
@[simp] theorem lscbxResult_ctr (n : Nat) (found rc : Bool) : (s.lscbxResult n found rc).ctr = s.ctr := by cases rc <;> rfl
@[simp] theorem lscbxResult_msr (n : Nat) (found rc : Bool) : (s.lscbxResult n found rc).msr = s.msr := by cases rc <;> rfl
@[simp] theorem lscbxResult_fpscr (n : Nat) (found rc : Bool) : (s.lscbxResult n found rc).fpscr = s.fpscr := by cases rc <;> rfl
@[simp] theorem lscbxResult_srr0 (n : Nat) (found rc : Bool) : (s.lscbxResult n found rc).srr0 = s.srr0 := by cases rc <;> rfl
@[simp] theorem lscbxResult_srr1 (n : Nat) (found rc : Bool) : (s.lscbxResult n found rc).srr1 = s.srr1 := by cases rc <;> rfl
@[simp] theorem lscbxResult_dar (n : Nat) (found rc : Bool) : (s.lscbxResult n found rc).dar = s.dar := by cases rc <;> rfl
@[simp] theorem lscbxResult_dsisr (n : Nat) (found rc : Bool) : (s.lscbxResult n found rc).dsisr = s.dsisr := by cases rc <;> rfl
@[simp] theorem lscbxResult_otherSpr (n : Nat) (found rc : Bool) : (s.lscbxResult n found rc).otherSpr = s.otherSpr := by cases rc <;> rfl
@[simp] theorem lscbxResult_mem (n : Nat) (found rc : Bool) : (s.lscbxResult n found rc).mem = s.mem := by cases rc <;> rfl
@[simp] theorem lscbxResult_stored (n : Nat) (found rc : Bool) : (s.lscbxResult n found rc).stored = s.stored := by cases rc <;> rfl
@[simp] theorem lscbxResult_draws (n : Nat) (found rc : Bool) : (s.lscbxResult n found rc).draws = s.draws := by cases rc <;> rfl
@[simp] theorem lscbxResult_platform (n : Nat) (found rc : Bool) : (s.lscbxResult n found rc).platform = s.platform := by cases rc <;> rfl

@[simp] theorem withFpResult_fpr (frD : Reg) (d : Double) (f : Fpscr) (c : Option (BitVec 4)) :
    (s.withFpResult frD d f c).fpr = (s.writeFpr frD d).fpr := by cases c <;> rfl
@[simp] theorem withFpResult_fpscr (frD : Reg) (d : Double) (f : Fpscr) (c : Option (BitVec 4)) :
    (s.withFpResult frD d f c).fpscr = f := rfl
@[simp] theorem withFpResult_draws (frD : Reg) (d : Double) (f : Fpscr) (c : Option (BitVec 4)) :
    (s.withFpResult frD d f c).draws = s.draws + 1 := rfl
@[simp] theorem lscbxResult_xer (n : Nat) (found rc : Bool) :
    (s.lscbxResult n found rc).xer = xerSetCount s.xer n := by cases rc <;> rfl

end

/-! `physWriteBytes` changes memory and the set of stored bytes only. -/

@[simp] theorem physWriteBytes_gpr (s : State) (a : Nat) (l : List Byte) : (s.physWriteBytes a l).gpr = s.gpr := by
  induction l generalizing s a with
  | nil => rfl
  | cons v rest ih => simp [State.physWriteBytes, ih]
@[simp] theorem physWriteBytes_fpr (s : State) (a : Nat) (l : List Byte) : (s.physWriteBytes a l).fpr = s.fpr := by
  induction l generalizing s a with
  | nil => rfl
  | cons v rest ih => simp [State.physWriteBytes, ih]
@[simp] theorem physWriteBytes_pc (s : State) (a : Nat) (l : List Byte) : (s.physWriteBytes a l).pc = s.pc := by
  induction l generalizing s a with
  | nil => rfl
  | cons v rest ih => simp [State.physWriteBytes, ih]
@[simp] theorem physWriteBytes_lr (s : State) (a : Nat) (l : List Byte) : (s.physWriteBytes a l).lr = s.lr := by
  induction l generalizing s a with
  | nil => rfl
  | cons v rest ih => simp [State.physWriteBytes, ih]
@[simp] theorem physWriteBytes_ctr (s : State) (a : Nat) (l : List Byte) : (s.physWriteBytes a l).ctr = s.ctr := by
  induction l generalizing s a with
  | nil => rfl
  | cons v rest ih => simp [State.physWriteBytes, ih]
@[simp] theorem physWriteBytes_cr (s : State) (a : Nat) (l : List Byte) : (s.physWriteBytes a l).cr = s.cr := by
  induction l generalizing s a with
  | nil => rfl
  | cons v rest ih => simp [State.physWriteBytes, ih]
@[simp] theorem physWriteBytes_xer (s : State) (a : Nat) (l : List Byte) : (s.physWriteBytes a l).xer = s.xer := by
  induction l generalizing s a with
  | nil => rfl
  | cons v rest ih => simp [State.physWriteBytes, ih]
@[simp] theorem physWriteBytes_msr (s : State) (a : Nat) (l : List Byte) : (s.physWriteBytes a l).msr = s.msr := by
  induction l generalizing s a with
  | nil => rfl
  | cons v rest ih => simp [State.physWriteBytes, ih]
@[simp] theorem physWriteBytes_fpscr (s : State) (a : Nat) (l : List Byte) : (s.physWriteBytes a l).fpscr = s.fpscr := by
  induction l generalizing s a with
  | nil => rfl
  | cons v rest ih => simp [State.physWriteBytes, ih]
@[simp] theorem physWriteBytes_srr0 (s : State) (a : Nat) (l : List Byte) : (s.physWriteBytes a l).srr0 = s.srr0 := by
  induction l generalizing s a with
  | nil => rfl
  | cons v rest ih => simp [State.physWriteBytes, ih]
@[simp] theorem physWriteBytes_srr1 (s : State) (a : Nat) (l : List Byte) : (s.physWriteBytes a l).srr1 = s.srr1 := by
  induction l generalizing s a with
  | nil => rfl
  | cons v rest ih => simp [State.physWriteBytes, ih]
@[simp] theorem physWriteBytes_dar (s : State) (a : Nat) (l : List Byte) : (s.physWriteBytes a l).dar = s.dar := by
  induction l generalizing s a with
  | nil => rfl
  | cons v rest ih => simp [State.physWriteBytes, ih]
@[simp] theorem physWriteBytes_dsisr (s : State) (a : Nat) (l : List Byte) : (s.physWriteBytes a l).dsisr = s.dsisr := by
  induction l generalizing s a with
  | nil => rfl
  | cons v rest ih => simp [State.physWriteBytes, ih]
@[simp] theorem physWriteBytes_otherSpr (s : State) (a : Nat) (l : List Byte) : (s.physWriteBytes a l).otherSpr = s.otherSpr := by
  induction l generalizing s a with
  | nil => rfl
  | cons v rest ih => simp [State.physWriteBytes, ih]
@[simp] theorem physWriteBytes_draws (s : State) (a : Nat) (l : List Byte) : (s.physWriteBytes a l).draws = s.draws := by
  induction l generalizing s a with
  | nil => rfl
  | cons v rest ih => simp [State.physWriteBytes, ih]
@[simp] theorem physWriteBytes_platform (s : State) (a : Nat) (l : List Byte) : (s.physWriteBytes a l).platform = s.platform := by
  induction l generalizing s a with
  | nil => rfl
  | cons v rest ih => simp [State.physWriteBytes, ih]

/-! `fillRegs` and `loadString` change the general registers only. -/

@[simp] theorem fillRegs_fpr (s : State) (r : Reg) (i : Nat) (l : List Byte) : (s.fillRegs r i l).fpr = s.fpr := by
  induction l generalizing s r i with
  | nil => rfl
  | cons v rest ih => simp [State.fillRegs, ih]
@[simp] theorem loadString_fpr (s : State) (r : Reg) (l : List Byte) : (s.loadString r l).fpr = s.fpr := fillRegs_fpr s _ _ l
@[simp] theorem fillRegs_pc (s : State) (r : Reg) (i : Nat) (l : List Byte) : (s.fillRegs r i l).pc = s.pc := by
  induction l generalizing s r i with
  | nil => rfl
  | cons v rest ih => simp [State.fillRegs, ih]
@[simp] theorem loadString_pc (s : State) (r : Reg) (l : List Byte) : (s.loadString r l).pc = s.pc := fillRegs_pc s _ _ l
@[simp] theorem fillRegs_lr (s : State) (r : Reg) (i : Nat) (l : List Byte) : (s.fillRegs r i l).lr = s.lr := by
  induction l generalizing s r i with
  | nil => rfl
  | cons v rest ih => simp [State.fillRegs, ih]
@[simp] theorem loadString_lr (s : State) (r : Reg) (l : List Byte) : (s.loadString r l).lr = s.lr := fillRegs_lr s _ _ l
@[simp] theorem fillRegs_ctr (s : State) (r : Reg) (i : Nat) (l : List Byte) : (s.fillRegs r i l).ctr = s.ctr := by
  induction l generalizing s r i with
  | nil => rfl
  | cons v rest ih => simp [State.fillRegs, ih]
@[simp] theorem loadString_ctr (s : State) (r : Reg) (l : List Byte) : (s.loadString r l).ctr = s.ctr := fillRegs_ctr s _ _ l
@[simp] theorem fillRegs_cr (s : State) (r : Reg) (i : Nat) (l : List Byte) : (s.fillRegs r i l).cr = s.cr := by
  induction l generalizing s r i with
  | nil => rfl
  | cons v rest ih => simp [State.fillRegs, ih]
@[simp] theorem loadString_cr (s : State) (r : Reg) (l : List Byte) : (s.loadString r l).cr = s.cr := fillRegs_cr s _ _ l
@[simp] theorem fillRegs_xer (s : State) (r : Reg) (i : Nat) (l : List Byte) : (s.fillRegs r i l).xer = s.xer := by
  induction l generalizing s r i with
  | nil => rfl
  | cons v rest ih => simp [State.fillRegs, ih]
@[simp] theorem loadString_xer (s : State) (r : Reg) (l : List Byte) : (s.loadString r l).xer = s.xer := fillRegs_xer s _ _ l
@[simp] theorem fillRegs_msr (s : State) (r : Reg) (i : Nat) (l : List Byte) : (s.fillRegs r i l).msr = s.msr := by
  induction l generalizing s r i with
  | nil => rfl
  | cons v rest ih => simp [State.fillRegs, ih]
@[simp] theorem loadString_msr (s : State) (r : Reg) (l : List Byte) : (s.loadString r l).msr = s.msr := fillRegs_msr s _ _ l
@[simp] theorem fillRegs_fpscr (s : State) (r : Reg) (i : Nat) (l : List Byte) : (s.fillRegs r i l).fpscr = s.fpscr := by
  induction l generalizing s r i with
  | nil => rfl
  | cons v rest ih => simp [State.fillRegs, ih]
@[simp] theorem loadString_fpscr (s : State) (r : Reg) (l : List Byte) : (s.loadString r l).fpscr = s.fpscr := fillRegs_fpscr s _ _ l
@[simp] theorem fillRegs_srr0 (s : State) (r : Reg) (i : Nat) (l : List Byte) : (s.fillRegs r i l).srr0 = s.srr0 := by
  induction l generalizing s r i with
  | nil => rfl
  | cons v rest ih => simp [State.fillRegs, ih]
@[simp] theorem loadString_srr0 (s : State) (r : Reg) (l : List Byte) : (s.loadString r l).srr0 = s.srr0 := fillRegs_srr0 s _ _ l
@[simp] theorem fillRegs_srr1 (s : State) (r : Reg) (i : Nat) (l : List Byte) : (s.fillRegs r i l).srr1 = s.srr1 := by
  induction l generalizing s r i with
  | nil => rfl
  | cons v rest ih => simp [State.fillRegs, ih]
@[simp] theorem loadString_srr1 (s : State) (r : Reg) (l : List Byte) : (s.loadString r l).srr1 = s.srr1 := fillRegs_srr1 s _ _ l
@[simp] theorem fillRegs_dar (s : State) (r : Reg) (i : Nat) (l : List Byte) : (s.fillRegs r i l).dar = s.dar := by
  induction l generalizing s r i with
  | nil => rfl
  | cons v rest ih => simp [State.fillRegs, ih]
@[simp] theorem loadString_dar (s : State) (r : Reg) (l : List Byte) : (s.loadString r l).dar = s.dar := fillRegs_dar s _ _ l
@[simp] theorem fillRegs_dsisr (s : State) (r : Reg) (i : Nat) (l : List Byte) : (s.fillRegs r i l).dsisr = s.dsisr := by
  induction l generalizing s r i with
  | nil => rfl
  | cons v rest ih => simp [State.fillRegs, ih]
@[simp] theorem loadString_dsisr (s : State) (r : Reg) (l : List Byte) : (s.loadString r l).dsisr = s.dsisr := fillRegs_dsisr s _ _ l
@[simp] theorem fillRegs_otherSpr (s : State) (r : Reg) (i : Nat) (l : List Byte) : (s.fillRegs r i l).otherSpr = s.otherSpr := by
  induction l generalizing s r i with
  | nil => rfl
  | cons v rest ih => simp [State.fillRegs, ih]
@[simp] theorem loadString_otherSpr (s : State) (r : Reg) (l : List Byte) : (s.loadString r l).otherSpr = s.otherSpr := fillRegs_otherSpr s _ _ l
@[simp] theorem fillRegs_mem (s : State) (r : Reg) (i : Nat) (l : List Byte) : (s.fillRegs r i l).mem = s.mem := by
  induction l generalizing s r i with
  | nil => rfl
  | cons v rest ih => simp [State.fillRegs, ih]
@[simp] theorem loadString_mem (s : State) (r : Reg) (l : List Byte) : (s.loadString r l).mem = s.mem := fillRegs_mem s _ _ l
@[simp] theorem fillRegs_stored (s : State) (r : Reg) (i : Nat) (l : List Byte) : (s.fillRegs r i l).stored = s.stored := by
  induction l generalizing s r i with
  | nil => rfl
  | cons v rest ih => simp [State.fillRegs, ih]
@[simp] theorem loadString_stored (s : State) (r : Reg) (l : List Byte) : (s.loadString r l).stored = s.stored := fillRegs_stored s _ _ l
@[simp] theorem fillRegs_draws (s : State) (r : Reg) (i : Nat) (l : List Byte) : (s.fillRegs r i l).draws = s.draws := by
  induction l generalizing s r i with
  | nil => rfl
  | cons v rest ih => simp [State.fillRegs, ih]
@[simp] theorem loadString_draws (s : State) (r : Reg) (l : List Byte) : (s.loadString r l).draws = s.draws := fillRegs_draws s _ _ l
@[simp] theorem fillRegs_platform (s : State) (r : Reg) (i : Nat) (l : List Byte) : (s.fillRegs r i l).platform = s.platform := by
  induction l generalizing s r i with
  | nil => rfl
  | cons v rest ih => simp [State.fillRegs, ih]
@[simp] theorem loadString_platform (s : State) (r : Reg) (l : List Byte) : (s.loadString r l).platform = s.platform := fillRegs_platform s _ _ l

/-! ### What the accessors read -/

theorem readGpr_congr {s t : State} (h : t.gpr = s.gpr) (r : Reg) : t.readGpr r = s.readGpr r := by
  simp only [State.readGpr, h]

theorem readFpr_congr {s t : State} (h : t.fpr = s.fpr) (r : Reg) : t.readFpr r = s.readFpr r := by
  simp only [State.readFpr, h]

theorem physRead_congr {s t : State} (h : t.mem = s.mem) (a : Nat) : t.physRead a = s.physRead a := by
  simp only [State.physRead, h]

/-- `x[r]` after a write of any register. -/
theorem readGpr_writeGpr (s : State) (r r' : Reg) (v : Word) :
    (s.writeGpr r v).readGpr r' = if r = r' then v else s.readGpr r' := by
  simp only [State.readGpr, State.writeGpr, Vector.getElem_set, BitVec.toNat_inj]

@[simp] theorem readGpr_writeGpr_same (s : State) (r : Reg) (v : Word) : (s.writeGpr r v).readGpr r = v := by
  simp [readGpr_writeGpr]

/-- `f[r]` after a write of any register. -/
theorem readFpr_writeFpr (s : State) (r r' : Reg) (v : Double) :
    (s.writeFpr r v).readFpr r' = if r = r' then v else s.readFpr r' := by
  simp only [State.readFpr, State.writeFpr, Vector.getElem_set, BitVec.toNat_inj]

@[simp] theorem readFpr_writeFpr_same (s : State) (r : Reg) (v : Double) : (s.writeFpr r v).readFpr r = v := by
  simp [readFpr_writeFpr]

@[simp] theorem readFpr_writeGpr (s : State) (r r' : Reg) (v : Word) :
    (s.writeGpr r v).readFpr r' = s.readFpr r' := rfl
@[simp] theorem readGpr_writeFpr (s : State) (r r' : Reg) (v : Double) :
    (s.writeFpr r v).readGpr r' = s.readGpr r' := rfl
@[simp] theorem readGpr_writeCrField (s : State) (k : BitVec 3) (v : BitVec 4) (r : Reg) :
    (s.writeCrField k v).readGpr r = s.readGpr r := rfl
@[simp] theorem readFpr_writeCrField (s : State) (k : BitVec 3) (v : BitVec 4) (r : Reg) :
    (s.writeCrField k v).readFpr r = s.readFpr r := rfl
@[simp] theorem readGpr_physWriteBytes (s : State) (a : Nat) (l : List Byte) (r : Reg) :
    (s.physWriteBytes a l).readGpr r = s.readGpr r := readGpr_congr (by simp) r
@[simp] theorem readFpr_physWriteBytes (s : State) (a : Nat) (l : List Byte) (r : Reg) :
    (s.physWriteBytes a l).readFpr r = s.readFpr r := readFpr_congr (by simp) r
@[simp] theorem physRead_writeGpr (s : State) (r : Reg) (v : Word) (a : Nat) :
    (s.writeGpr r v).physRead a = s.physRead a := rfl
@[simp] theorem physRead_writeFpr (s : State) (r : Reg) (v : Double) (a : Nat) :
    (s.writeFpr r v).physRead a = s.physRead a := rfl
@[simp] theorem littleEndian_writeGpr (s : State) (r : Reg) (v : Word) :
    (s.writeGpr r v).littleEndian = s.littleEndian := rfl
@[simp] theorem physRead_writeCrField (s : State) (k : BitVec 3) (v : BitVec 4) (a : Nat) :
    (s.writeCrField k v).physRead a = s.physRead a := rfl
@[simp] theorem physRead_loadString (s : State) (r : Reg) (l : List Byte) (a : Nat) :
    (s.loadString r l).physRead a = s.physRead a := physRead_congr (by simp) a

@[simp] theorem withPc_pc (s : State) (a : Word) : (s.withPc a).pc = a := rfl
@[simp] theorem readGpr_withPc (s : State) (a : Word) (r : Reg) : (s.withPc a).readGpr r = s.readGpr r := rfl
@[simp] theorem readFpr_withPc (s : State) (a : Word) (r : Reg) : (s.withPc a).readFpr r = s.readFpr r := rfl
@[simp] theorem physRead_withPc (s : State) (a : Word) (b : Nat) : (s.withPc a).physRead b = s.physRead b := rfl
@[simp] theorem readGpr_physWrite (s : State) (a : Nat) (v : Byte) (r : Reg) :
    (s.physWrite a v).readGpr r = s.readGpr r := rfl
@[simp] theorem withFpResult_cr_none (s : State) (frD : Reg) (d : Double) (f : Fpscr) :
    (s.withFpResult frD d f none).cr = s.cr := rfl
@[simp] theorem withFpResult_cr_some (s : State) (frD : Reg) (d : Double) (f : Fpscr) (v : BitVec 4) :
    (s.withFpResult frD d f (some v)).cr = crSetField s.cr 1 v := rfl

/-! ### Special-purpose registers -/

/-- A special-purpose register reads what was last written to it. -/
theorem readSpr_writeSpr_same (s : State) (n : BitVec 10) (v : Word) (h : sparseWf 0 s.otherSpr = true) :
    (s.writeSpr n v).readSpr n = v := by
  unfold State.writeSpr
  repeat' split
  all_goals simp_all [State.readSpr, sprXer, sprLr, sprCtr, sprDsisr, sprDar, sprSrr0, sprSrr1, sparseGet_set_same]

/-- A write of a special-purpose register leaves every other one alone. -/
theorem readSpr_writeSpr_other (s : State) (n m : BitVec 10) (v : Word) (h : m ≠ n) :
    (s.writeSpr n v).readSpr m = s.readSpr m := by
  have hn : m.toNat ≠ n.toNat := fun k => h (BitVec.eq_of_toNat_eq k)
  unfold State.writeSpr
  repeat' split
  all_goals simp_all [State.readSpr, sparseGet_set_other]

/-! ### Taking an exception -/

@[simp] theorem enterException_msr (s : State) (o : Word) :
    (s.enterException o).msr = msrAtEntry s.platform.traps.cleared s.msr := rfl
@[simp] theorem enterException_pc (s : State) (o : Word) :
    (s.enterException o).pc = (s.platform.traps.base s.msr + o) &&& ~~~3 := rfl

@[simp] theorem takeException_msr (s : State) (w : Word) (e : Exc) :
    (s.takeException w e).msr = msrAtEntry s.platform.traps.cleared s.msr := by simp [State.takeException]
@[simp] theorem takeException_pc (s : State) (w : Word) (e : Exc) :
    (s.takeException w e).pc = (s.platform.traps.base s.msr + s.platform.traps.offset e) &&& ~~~3 := by
  simp [State.takeException]

/-- What `raise` answers as a next state (R9, R12). -/
theorem raise_eq_next (s t : State) (w : Word) (e : Exc) :
    s.raise w e = .next t ↔ s.platform.stopsAt e = false ∧ t = s.takeException w e := by
  unfold State.raise
  cases s.platform.stopsAt e
  · exact ⟨fun h => by cases h; exact ⟨rfl, rfl⟩, fun h => by rw [h.2]; rfl⟩
  · exact ⟨fun h => (by cases h), fun h => (by cases h.1)⟩

theorem raise_eq_fault (s : State) (w : Word) (e : Exc) (f : Fault) :
    s.raise w e = .fault f ↔ s.platform.stopsAt e = true ∧ f = .raised w e := by
  unfold State.raise
  cases s.platform.stopsAt e
  · exact ⟨fun h => (by cases h), fun h => (by cases h.1)⟩
  · exact ⟨fun h => by cases h; exact ⟨rfl, rfl⟩, fun h => by rw [h.2]; rfl⟩

/-- By the family's table an exception saves the instruction's own address and the MSR in SRR0 and SRR1 (R285). -/
theorem takeException_srr_family (s : State) (w : Word) (e : Exc) (h : s.platform.traps = TrapTable.family) :
    (s.takeException w e).srr0 = s.pc ∧ (s.takeException w e).srr1 = s.msr := by
  cases e <;> simp [State.takeException, State.enterException, h, TrapTable.family, State.writeSpr, sprXer, sprLr,
    sprCtr, sprDsisr, sprDar, sprSrr0, sprSrr1, State.recordAlignment]

@[simp] theorem takeException_gpr (s : State) (w : Word) (e : Exc) : (s.takeException w e).gpr = s.gpr := by
  simp [State.takeException]
@[simp] theorem takeException_fpr (s : State) (w : Word) (e : Exc) : (s.takeException w e).fpr = s.fpr := by
  simp [State.takeException]
@[simp] theorem takeException_cr (s : State) (w : Word) (e : Exc) : (s.takeException w e).cr = s.cr := by
  simp [State.takeException]
@[simp] theorem takeException_fpscr (s : State) (w : Word) (e : Exc) : (s.takeException w e).fpscr = s.fpscr := by
  simp [State.takeException]
@[simp] theorem takeException_mem (s : State) (w : Word) (e : Exc) : (s.takeException w e).mem = s.mem := by
  simp [State.takeException]
@[simp] theorem takeException_stored (s : State) (w : Word) (e : Exc) : (s.takeException w e).stored = s.stored := by
  simp [State.takeException]
@[simp] theorem takeException_draws (s : State) (w : Word) (e : Exc) : (s.takeException w e).draws = s.draws := by
  simp [State.takeException]
@[simp] theorem takeException_platform (s : State) (w : Word) (e : Exc) : (s.takeException w e).platform = s.platform := by
  simp [State.takeException]

end Sys2Proof.Machine
end

