-- ==== Sys2Proof/Laws/Ops.lean ====
section
/-! SUPPORT. What each shared operation can do, said once: data accesses, multiples, strings, the advance of the
instruction address, the end of an instruction, floating-point outcomes, the fetch. -/

namespace Sys2Proof.Machine

/-! ### Data accesses -/

/-- When an access goes through, and to which physical address (R60, R63, R65, R66, R91). -/
theorem dataAddress_eq_ok (s : State) (w ea a : Word) (n : Nat) :
    s.dataAddress w ea n = .ok a ↔
      s.accessRaises w ea n = false ∧ a = s.physicalAddress ea n ∧ a.toNat + n ≤ 2 ^ 32 ∧
      s.platform.mappedRange a.toNat n = true := by
  unfold State.dataAddress
  generalize s.physicalAddress ea n = p
  cases hr : s.accessRaises w ea n
  · simp only [Bool.false_eq_true, if_false, true_and]
    by_cases hb : p.toNat + n > 2 ^ 32
    · rw [if_pos hb]
      constructor
      · intro h
        cases h
      · rintro ⟨rfl, h, -⟩
        omega
    · rw [if_neg hb]
      cases hm : s.platform.mappedRange p.toNat n
      · simp only [Bool.false_eq_true, if_false]
        constructor
        · intro h
          cases h
        · rintro ⟨rfl, -, h⟩
          rw [hm] at h
          cases h
      · simp only [if_true]
        constructor
        · intro h
          cases h
          exact ⟨rfl, by omega, hm⟩
        · rintro ⟨rfl, -, -⟩
          rfl
  · simp

/-- The only exception a data access raises is the alignment exception with its effective address (R63, R65). -/
theorem dataAddress_eq_raise (s : State) (w ea : Word) (n : Nat) (e : Exc) :
    s.dataAddress w ea n = .raise e ↔ e = .alignment ea ∧ s.accessRaises w ea n = true := by
  unfold State.dataAddress
  generalize s.physicalAddress ea n = p
  cases hr : s.accessRaises w ea n
  · simp only [Bool.false_eq_true, if_false, and_false, iff_false]
    by_cases hb : p.toNat + n > 2 ^ 32
    · rw [if_pos hb]
      exact fun h => by cases h
    · rw [if_neg hb]
      cases s.platform.mappedRange p.toNat n <;> exact fun h => by cases h
  · simp [eq_comm]

theorem memRead_eq_ok (s : State) (w ea : Word) (n : Nat) (v : BitVec (8 * n)) :
    s.memRead w ea n = .ok v ↔
      ∃ a, s.dataAddress w ea n = .ok a ∧ v = BitVec.ofNat (8 * n) (bytesValue (s.physBytes a.toNat n)) := by
  unfold State.memRead
  cases s.dataAddress w ea n <;> simp [eq_comm]

theorem memRead_eq_raise (s : State) (w ea : Word) (n : Nat) (e : Exc) :
    s.memRead w ea n = .raise e ↔ s.dataAddress w ea n = .raise e := by
  unfold State.memRead
  cases s.dataAddress w ea n <;> simp

theorem memWrite_eq_ok {m : Nat} (s t : State) (w ea : Word) (n : Nat) (v : BitVec m) :
    s.memWrite w ea n v = .ok t ↔
      ∃ a, s.dataAddress w ea n = .ok a ∧ t = s.physWriteBytes a.toNat (valueBytes n v) := by
  unfold State.memWrite
  cases s.dataAddress w ea n <;> simp [eq_comm]

theorem memWrite_eq_raise {m : Nat} (s : State) (w ea : Word) (n : Nat) (v : BitVec m) (e : Exc) :
    s.memWrite w ea n v = .raise e ↔ s.dataAddress w ea n = .raise e := by
  unfold State.memWrite
  cases s.dataAddress w ea n <;> simp

/-! ### Sequencing -/

theorem advance_eq_next (s t : State) : s.advance = .next t ↔ s.pc ≠ 0xFFFFFFFC ∧ t = s.withPc (s.pc + 4) := by
  unfold State.advance
  by_cases h : s.pc = 0xFFFFFFFC
  · rw [if_pos h]
    exact ⟨fun k => (by cases k), fun k => absurd h k.1⟩
  · rw [if_neg h]
    constructor
    · intro k
      cases k
      exact ⟨h, rfl⟩
    · rintro ⟨-, rfl⟩
      rfl

/-- When a branch of the classes that link answers a next state, and which one (R24, R153). -/
theorem endBranch_eq_next (s t : State) (link taken : Bool) (target : Word) :
    s.endBranch link taken target = .next t ↔
      (s.pc ≠ 0xFFFFFFFC ∨ (link = false ∧ taken = true)) ∧
      t = (if link then s.linkNext else s).withPc (if taken then target else s.pc + 4) := by
  unfold State.endBranch
  generalize (0xFFFFFFFC : Word) = last
  by_cases hp : s.pc = last <;> cases link <;> cases taken <;> simp [hp, eq_comm]

/-- How an instruction that ends in `finish` comes to a next state. -/
theorem finish_eq_next (s t : State) (w : Word) (x : Access State) :
    s.finish w x = .next t ↔
      (∃ u, x = .ok u ∧ u.advance = .next t) ∨
      (∃ e, x = .raise e ∧ s.platform.stopsAt e = false ∧ t = s.takeException w e) := by
  cases x with
  | ok u => simp [State.finish]
  | raise e => simp [State.finish, raise_eq_next]
  | refuse r => simp [State.finish]

/-- How an instruction that ends in `finishUpdate` comes to a next state. -/
theorem finishUpdate_eq_next (s t : State) (w : Word) (base : Option Reg) (ea : Word) (x : Access State) :
    s.finishUpdate w base ea x = .next t ↔
      (∃ u, x = .ok u ∧ (u.updateBase base ea).advance = .next t) ∨
      (∃ e, x = .raise e ∧ s.platform.stopsAt e = false ∧ t = s.takeException w e) := by
  cases x with
  | ok u => simp [State.finishUpdate]
  | raise e => simp [State.finishUpdate, raise_eq_next]
  | refuse r => simp [State.finishUpdate]

/-- A single-register load into a general register goes through where its memory read does (R120). -/
theorem loadGpr_eq_ok (s t : State) (w ea : Word) (n : Nat) (ext : Widening) (rD : Reg) :
    s.loadGpr w ea n ext rD = .ok t ↔ ∃ v, s.memRead w ea n = .ok v ∧ t = s.writeGpr rD (widen ext v) := by
  unfold State.loadGpr
  cases s.memRead w ea n <;> simp [eq_comm]

/-- How a multiple instruction comes to a next state (R126, R127). -/
theorem finishMultiple_eq_next (s t : State) (w ea : Word) (first rA : Reg) (x : Access State) :
    s.finishMultiple w ea first rA x = .next t ↔
      (((s.littleEndian = true ∨ (multipleValid first rA = true ∧ aligned ea 4 = false)) ∧
        s.platform.stopsAt (.alignment ea) = false ∧ t = s.takeException w (.alignment ea)) ∨
      (s.littleEndian = false ∧ multipleValid first rA = true ∧ aligned ea 4 = true ∧
        ea.toNat + 4 * multipleCount first ≤ 2 ^ 32 ∧ s.finish w x = .next t)) := by
  unfold State.finishMultiple
  cases s.littleEndian <;> cases multipleValid first rA <;> cases aligned ea 4 <;> simp [finish_eq_next]
  split
  · simp
    omega
  · simp [finish_eq_next]
    omega

/-- LE of a launch is the field that says it (R303). -/
theorem msrValue_le (l : Launch) : msrLe l.msrValue = l.littleEndian := by
  cases h : l.littleEndian <;> cases h' : l.ile <;> simp [msrLe, manualBit, Launch.msrValue, h, h']

/-- ILE of a launch is the field that says it (R303). -/
theorem msrValue_ile (l : Launch) : msrIle l.msrValue = l.ile := by
  cases h : l.littleEndian <;> cases h' : l.ile <;> simp [msrIle, manualBit, Launch.msrValue, h, h']

section
variable (s : State) (k : BitVec 3) (v : BitVec 4)
@[simp] theorem withComparison_gpr : (s.withComparison k v).gpr = s.gpr := rfl
@[simp] theorem withComparison_fpr : (s.withComparison k v).fpr = s.fpr := rfl
@[simp] theorem withComparison_pc : (s.withComparison k v).pc = s.pc := rfl
@[simp] theorem withComparison_xer : (s.withComparison k v).xer = s.xer := rfl
@[simp] theorem withComparison_msr : (s.withComparison k v).msr = s.msr := rfl
@[simp] theorem withComparison_lr : (s.withComparison k v).lr = s.lr := rfl
@[simp] theorem withComparison_ctr : (s.withComparison k v).ctr = s.ctr := rfl
@[simp] theorem withComparison_srr0 : (s.withComparison k v).srr0 = s.srr0 := rfl
@[simp] theorem withComparison_srr1 : (s.withComparison k v).srr1 = s.srr1 := rfl
@[simp] theorem withComparison_dar : (s.withComparison k v).dar = s.dar := rfl
@[simp] theorem withComparison_dsisr : (s.withComparison k v).dsisr = s.dsisr := rfl
@[simp] theorem withComparison_otherSpr : (s.withComparison k v).otherSpr = s.otherSpr := rfl
@[simp] theorem withComparison_mem : (s.withComparison k v).mem = s.mem := rfl
@[simp] theorem withComparison_stored : (s.withComparison k v).stored = s.stored := rfl
@[simp] theorem withComparison_platform : (s.withComparison k v).platform = s.platform := rfl
@[simp] theorem withComparison_cr : (s.withComparison k v).cr = crSetField s.cr k v := rfl
@[simp] theorem withComparison_draws : (s.withComparison k v).draws = s.draws + 1 := rfl
@[simp] theorem withComparison_fpscr :
    (s.withComparison k v).fpscr = s.fpscr.withFreeStatus (Config.drawStatus s.draws) := rfl
end

/-- A floating-point outcome raises exactly the assist exception (R286). -/
theorem applyFp_eq_raise (s : State) (frD : Reg) (rc : Bool) (o : FpOutcome) (e : Exc) :
    s.applyFp frD rc o = .raise e ↔ o = .assist ∧ e = .floatAssist := by
  cases o <;> simp [State.applyFp, eq_comm]

/-- Every other floating-point outcome writes the target register, the status bits of the FPSCR alone, and CR1 only with
the record bit (R29, R212). -/
theorem applyFp_eq_ok (s t : State) (frD : Reg) (rc : Bool) (o : FpOutcome) (h : s.applyFp frD rc o = .ok t) :
    ∃ d f c, t = s.withFpResult frD d f c ∧ (c = none ↔ rc = false) ∧ f.ve = s.fpscr.ve ∧ f.oe = s.fpscr.oe ∧
      f.ue = s.fpscr.ue ∧ f.ze = s.fpscr.ze ∧ f.xe = s.fpscr.xe ∧ f.ni = s.fpscr.ni ∧ f.rn = s.fpscr.rn ∧
      f.reserved = s.fpscr.reserved := by
  cases o with
  | assist => cases h
  | _ =>
    cases h
    refine ⟨_, _, _, rfl, ?_, rfl, rfl, rfl, rfl, rfl, rfl, rfl, rfl⟩
    cases rc <;> simp

@[simp] theorem finish_ok (s u : State) (w : Word) : s.finish w (.ok u) = u.advance := rfl
@[simp] theorem finish_raise (s : State) (w : Word) (e : Exc) : s.finish w (.raise e) = s.raise w e := rfl
@[simp] theorem finish_refuse (s : State) (w : Word) (r : Refusal) : s.finish w (.refuse r) = .refused r := rfl

/-- When the fetch answers a word, and which (R71). -/
theorem fetch_eq_word (s : State) (w : Word) :
    s.fetch = .word w ↔
      aligned s.pc 4 = true ∧ s.platform.mappedRange (s.fetchAddress s.pc).toNat 4 = true ∧
      s.storedInRange (s.fetchAddress s.pc).toNat 4 = false ∧
      w = BitVec.ofNat 32 (bytesValue (s.physBytes (s.fetchAddress s.pc).toNat 4)) := by
  unfold State.fetch
  dsimp only
  generalize s.fetchAddress s.pc = a
  generalize BitVec.ofNat 32 (bytesValue (s.physBytes a.toNat 4)) = v
  cases aligned s.pc 4
  · exact ⟨fun h => (by cases h), fun h => (by cases h.1)⟩
  generalize s.platform.mappedRange a.toNat 4 = m
  generalize s.storedInRange a.toNat 4 = st
  cases m
  · exact ⟨fun h => (by cases h), fun h => (by cases h.2.1)⟩
  cases st
  · constructor
    · intro h
      cases h
      exact ⟨rfl, rfl, rfl, rfl⟩
    · rintro ⟨-, -, -, rfl⟩
      rfl
  · exact ⟨fun h => (by cases h), fun h => (by cases h.2.2.1)⟩

/-! ### Multiples (R126, R127) -/

/-- A load multiple changes general registers only. -/
theorem loadWords_ok_frame (s t : State) (w ea : Word) (r : Reg) (n : Nat) (h : s.loadWords w ea r n = .ok t) :
    ∃ g, t = { s with gpr := g } := by
  induction n generalizing s ea r with
  | zero =>
    refine ⟨s.gpr, ?_⟩
    cases h
    rfl
  | succ n ih =>
    rw [State.loadWords] at h
    split at h
    · obtain ⟨g, hg⟩ := ih _ _ _ h
      exact ⟨g, hg⟩
    · cases h
    · cases h

/-- The memory writes of stores: bytes `l` at `a`, then the rest, in order. -/
def writesOf (s : State) (l : List (Nat × List Byte)) : State := l.foldl (fun s p => s.physWriteBytes p.1 p.2) s

/-- A store multiple is a sequence of memory writes inside the address space. -/
theorem storeWords_ok (s t : State) (w ea : Word) (r : Reg) (n : Nat) (h : s.storeWords w ea r n = .ok t) :
    ∃ l, t = writesOf s l ∧ ∀ p ∈ l, p.1 + p.2.length ≤ 2 ^ 32 := by
  induction n generalizing s ea r with
  | zero =>
    cases h
    exact ⟨[], rfl, by simp⟩
  | succ n ih =>
    rw [State.storeWords] at h
    split at h
    · rename_i u hu
      obtain ⟨a, ha, rfl⟩ := (memWrite_eq_ok s u w ea 4 _).mp hu
      obtain ⟨l, hl, hb⟩ := ih _ _ _ h
      refine ⟨(a.toNat, valueBytes 4 (s.readGpr r)) :: l, hl, ?_⟩
      rw [List.forall_mem_cons]
      exact ⟨by simpa using ((dataAddress_eq_ok s w ea a 4).mp ha).2.2.1, hb⟩
    · cases h
    · cases h

/-! ### Strings (R130 to R134) -/

/-- A string store is a sequence of memory writes inside the address space. -/
theorem writeString_ok (s t : State) (w : Word) (src : State) (rS : Reg) (k a n : Nat)
    (h : s.writeString w src rS k a n = .ok t) :
    ∃ l, t = writesOf s l ∧ ∀ p ∈ l, p.1 + p.2.length ≤ 2 ^ 32 := by
  induction n generalizing s k a with
  | zero =>
    cases h
    exact ⟨[], rfl, by simp⟩
  | succ n ih =>
    rw [State.writeString] at h
    split at h
    · cases h
    · split at h
      · rename_i u hu
        obtain ⟨a', ha, rfl⟩ := (memWrite_eq_ok s u w _ 1 _).mp hu
        obtain ⟨l, hl, hb⟩ := ih _ _ _ h
        refine ⟨(a'.toNat, valueBytes 1 (src.stringSource rS k)) :: l, hl, ?_⟩
        rw [List.forall_mem_cons]
        exact ⟨by simpa using ((dataAddress_eq_ok s w _ a' 1).mp ha).2.2.1, hb⟩
      · cases h
      · cases h

theorem mappedRange_one (p : Platform) (a : Nat) : p.mappedRange a 1 = p.mapped a := Bool.and_true _

/-- The value of one byte. -/
theorem ofNat_bytesValue_one (s : State) (a : Nat) :
    BitVec.ofNat (8 * 1) (bytesValue (s.physBytes a 1)) = s.physRead a := by
  have h : bytesValue (s.physBytes a 1) = (s.physRead a).toNat := by
    simp [State.physBytes, bytesValue]
  rw [h]
  exact BitVec.eq_of_toNat_eq (by rw [BitVec.toNat_ofNat]; exact Nat.mod_eq_of_lt (s.physRead a).isLt)

/-- A byte of a string in big-endian mode is the byte at its address. -/
theorem stringByte_eq_ok (s : State) (w : Word) (a : Nat) (v : Byte) (hle : s.littleEndian = false) :
    s.stringByte w a = .ok v ↔ a < 2 ^ 32 ∧ s.platform.mapped a = true ∧ v = s.physRead a := by
  unfold State.stringByte
  split
  · constructor
    · intro h
      cases h
    · rintro ⟨h, -⟩
      omega
  · rename_i h
    have ha : (BitVec.ofNat 32 a).toNat = a := by
      rw [BitVec.toNat_ofNat]
      exact Nat.mod_eq_of_lt (by omega)
    have hal : s.accessRaises w (BitVec.ofNat 32 a) 1 = false := by
      simp [State.accessRaises, aligned, Nat.mod_one]
    rw [memRead_eq_ok]
    simp only [dataAddress_eq_ok, hal, State.physicalAddress, hle, true_and, Bool.false_eq_true, if_false]
    constructor
    · rintro ⟨a', ⟨rfl, -, hm⟩, rfl⟩
      rw [ha] at hm ⊢
      exact ⟨by omega, by rwa [mappedRange_one] at hm, ofNat_bytesValue_one s a⟩
    · rintro ⟨h1, h2, rfl⟩
      refine ⟨_, ⟨rfl, by omega, by rw [ha, mappedRange_one]; exact h2⟩, ?_⟩
      rw [ha]
      exact (ofNat_bytesValue_one s a).symm

/-- The bytes of a string in big-endian mode are the bytes at its addresses. -/
theorem readString_eq_ok (s : State) (w : Word) (a n : Nat) (l : List Byte) (hle : s.littleEndian = false) :
    s.readString w a n = .ok l ↔
      (∀ k, k < n → a + k < 2 ^ 32 ∧ s.platform.mapped (a + k) = true) ∧ l = s.physBytes a n := by
  induction n generalizing a l with
  | zero =>
    constructor
    · intro h
      cases h
      exact ⟨fun k hk => by omega, rfl⟩
    · rintro ⟨-, rfl⟩
      rfl
  | succ n ih =>
    rw [State.readString]
    constructor
    · intro h
      split at h
      · rename_i v hv
        obtain ⟨h1, h2, rfl⟩ := (stringByte_eq_ok s w a v hle).mp hv
        split at h
        · rename_i rest hr
          obtain ⟨h3, rfl⟩ := (ih (a + 1) rest).mp hr
          cases h
          refine ⟨?_, rfl⟩
          intro k hk
          cases k with
          | zero => exact ⟨h1, h2⟩
          | succ k =>
            have := h3 k (by omega)
            rwa [show a + 1 + k = a + (k + 1) by omega] at this
        · cases h
        · cases h
      · cases h
      · cases h
    · rintro ⟨h, rfl⟩
      have h0 := h 0 (by omega)
      rw [(stringByte_eq_ok s w a (s.physRead a) hle).mpr ⟨h0.1, h0.2, rfl⟩]
      have hr := (ih (a + 1) (s.physBytes (a + 1) n)).mpr ⟨fun k hk => by
        have := h (k + 1) (by omega)
        rwa [show a + (k + 1) = a + 1 + k by omega] at this, rfl⟩
      simp only [hr, State.physBytes]

theorem regByte_setRegByte (x : Word) (i j : Nat) (v : Byte) (hi : i < 4) (hj : j < 4) :
    regByte (setRegByte x i v) j = if i = j then v else regByte x j := by
  unfold regByte setRegByte
  apply BitVec.eq_of_getLsbD_eq
  intro k hk
  interval_cases i <;> interval_cases j <;> interval_cases k <;> simp

/-- Every byte of the register value 0 is 0. -/
theorem regByte_zero (j : Nat) : regByte 0 j = 0 := by simp [regByte]

end Sys2Proof.Machine
end

