-- ==== Sys2Proof/Laws/Words.lean ====
section
/-! SUPPORT. The terms of the statements in terms of the model's operations: bits of the condition register, words of
memory, displacements, accesses that go through. -/

namespace Sys2Proof

open Machine

/-- Every bit of the condition register after one field is written (R26). -/
theorem manualBit_crSetField (cr : Word) (k : BitVec 3) (v : BitVec 4) (i : Nat) (hi : i < 32) :
    manualBit (crSetField cr k v) i = if i / 4 = k.toNat then v.getLsbD (3 - i % 4) else manualBit cr i := by
  have hk := k.isLt
  unfold manualBit crSetField
  simp only [BitVec.getLsbD_or, BitVec.getLsbD_and, BitVec.getLsbD_not, BitVec.getLsbD_shiftLeft,
    BitVec.getLsbD_setWidth]
  generalize k.toNat = n at *
  interval_cases n <;> interval_cases i <;> simp

/-- The bits of a field, from the left. -/
theorem getLsbD_crBits (b0 b1 b2 b3 : Bool) :
    (crBits b0 b1 b2 b3).getLsbD 3 = b0 ∧ (crBits b0 b1 b2 b3).getLsbD 2 = b1 ∧
    (crBits b0 b1 b2 b3).getLsbD 1 = b2 ∧ (crBits b0 b1 b2 b3).getLsbD 0 = b3 := by
  cases b0 <;> cases b1 <;> cases b2 <;> cases b3 <;> decide

/-- A written field holds the bits written. -/
theorem crFieldIs_crSetField (s t : State) (k : BitVec 3) (b0 b1 b2 b3 : Bool)
    (h : t.cr = crSetField s.cr k (crBits b0 b1 b2 b3)) : CrFieldIs t k b0 b1 b2 b3 := by
  have hk := k.isLt
  obtain ⟨h0, h1, h2, h3⟩ := getLsbD_crBits b0 b1 b2 b3
  unfold CrFieldIs
  rw [h, manualBit_crSetField _ _ _ _ (by omega), manualBit_crSetField _ _ _ _ (by omega),
    manualBit_crSetField _ _ _ _ (by omega), manualBit_crSetField _ _ _ _ (by omega), if_pos (by omega),
    if_pos (by omega), if_pos (by omega), if_pos (by omega), show 3 - 4 * k.toNat % 4 = 3 by omega,
    show 3 - (4 * k.toNat + 1) % 4 = 2 by omega, show 3 - (4 * k.toNat + 2) % 4 = 1 by omega,
    show 3 - (4 * k.toNat + 3) % 4 = 0 by omega]
  exact ⟨h0, h1, h2, h3⟩

/-- The other fields keep their bits. -/
theorem sameCrBut_crSetField (s t : State) (k : BitVec 3) (v : BitVec 4) (h : t.cr = crSetField s.cr k v) :
    SameCrBut k s t := by
  intro i hi hne
  rw [h, manualBit_crSetField _ _ _ _ hi, if_neg hne]

/-- The bit that `beq` tests (R152). -/
theorem crEq_eq_manualBit (cr : Word) (k : BitVec 3) : crEq cr k = manualBit cr (4 * k.toNat + 2) := by
  have hk := k.isLt
  unfold crEq crField manualBit
  rw [BitVec.getLsbD_extractLsb']
  generalize k.toNat = n at *
  interval_cases n <;> simp

/-- `beq` is the conditional branch with BO = 0b01100 and BI = 4N+2 (R152, R106). -/
theorem branchConditionHolds_beq (cr : Word) (k : BitVec 3) :
    branchConditionHolds 0b01100 (k ++ 0b10#2) cr = crEq cr k := by
  rw [crEq_eq_manualBit]
  have h : (k ++ 0b10#2).toNat = 4 * k.toNat + 2 := by
    rw [BitVec.toNat_append]
    have := Nat.shiftLeft_add_eq_or_of_lt (show (0b10#2 : BitVec 2).toNat < 2 ^ 2 by decide) k.toNat
    rw [← this, Nat.shiftLeft_eq]
    simp [Nat.mul_comm]
  simp only [branchConditionHolds, h]
  simp

/-- The meaning of `beq` is that conditional branch, without link. -/
theorem execBeq_eq (k : BitVec 3) (bd : BitVec 14) (s : State) :
    execBeq k bd s = branchConditionalRelative false 0b01100 (k ++ 0b10#2) (branchDispB bd) s := by
  simp only [execBeq, branchConditionalRelative, branchConditionHolds_beq, State.countDown, branchCountHolds,
    State.endBranch, State.branchRelative, State.advance]
  cases crEq s.cr k <;> simp

/-- The displacement of `b` is four times LI (R108). -/
theorem toInt_branchDispI (li : BitVec 24) : (branchDispI li).toInt = 4 * li.toInt := by
  unfold branchDispI
  rw [BitVec.toInt_signExtend_of_le (by omega), BitVec.toInt_eq_toNat_cond, BitVec.toInt_eq_toNat_cond]
  have h : (li ++ 0#2).toNat = 4 * li.toNat := by
    erw [BitVec.toNat_append]
    simp [Nat.shiftLeft_eq, Nat.mul_comm]
  rw [h]
  split <;> split <;> push_cast <;> omega

/-- The displacement of `beq` is four times BD (R108). -/
theorem toInt_branchDispB (bd : BitVec 14) : (branchDispB bd).toInt = 4 * bd.toInt := by
  unfold branchDispB
  rw [BitVec.toInt_signExtend_of_le (by omega), BitVec.toInt_eq_toNat_cond, BitVec.toInt_eq_toNat_cond]
  have h : (bd ++ 0#2).toNat = 4 * bd.toNat := by
    erw [BitVec.toNat_append]
    simp [Nat.shiftLeft_eq, Nat.mul_comm]
  rw [h]
  split <;> split <;> push_cast <;> omega

theorem branchDispI_eq_ofInt (li : BitVec 24) : branchDispI li = BitVec.ofInt 32 (4 * li.toInt) := by
  rw [← toInt_branchDispI, BitVec.ofInt_toInt]

theorem branchDispB_eq_ofInt (bd : BitVec 14) : branchDispB bd = BitVec.ofInt 32 (4 * bd.toInt) := by
  rw [← toInt_branchDispB, BitVec.ofInt_toInt]

theorem signedImm_eq_ofInt (d : BitVec 16) : signedImm d = BitVec.ofInt 32 d.toInt := by
  rw [signedImm, ← BitVec.ofInt_toInt (x := d.signExtend 32), BitVec.toInt_signExtend_of_le (by omega)]

/-- The number of four bytes is the word of them (R57). -/
theorem ofNat_bytesValue_four (s : State) (a : Nat) :
    BitVec.ofNat (8 * 4) (bytesValue (s.physBytes a 4)) = wordAt s a := by
  apply BitVec.eq_of_toNat_eq
  have h0 := (s.physRead a).isLt
  have h1 := (s.physRead (a + 1)).isLt
  have h2 := (s.physRead (a + 2)).isLt
  have h3 := (s.physRead (a + 3)).isLt
  have e : (wordAt s a).toNat = (s.physRead a).toNat * 2 ^ 24 + (s.physRead (a + 1)).toNat * 2 ^ 16 +
      (s.physRead (a + 2)).toNat * 2 ^ 8 + (s.physRead (a + 3)).toNat := by
    unfold wordAt
    rw [BitVec.toNat_append, BitVec.toNat_append, BitVec.toNat_append,
      ← Nat.shiftLeft_add_eq_or_of_lt h1, ← Nat.shiftLeft_add_eq_or_of_lt h2, ← Nat.shiftLeft_add_eq_or_of_lt h3]
    simp only [Nat.shiftLeft_eq]
    omega
  rw [e, BitVec.toNat_ofNat]
  simp only [State.physBytes, bytesValue, List.length_cons, List.length_nil, Nat.add_assoc a, Nat.reduceAdd,
    Nat.reducePow, Nat.reduceMul]
  omega

/-- When an access goes through, in terms of `dataAddress` (R66). -/
theorem accessible_iff (s : State) (w ea : Word) (n : Nat) :
    accessible s w ea n = true ↔ s.dataAddress w ea n = .ok (s.physicalAddress ea n) := by
  rw [dataAddress_eq_ok]
  simp [accessible, and_assoc]

/-- A word load that goes through reads the word at the physical address. -/
theorem memRead_four (s : State) (w ea : Word) (h : accessible s w ea 4 = true) :
    s.memRead w ea 4 = .ok (wordAt s (s.physicalAddress ea 4).toNat) := by
  rw [memRead_eq_ok]
  exact ⟨_, (accessible_iff s w ea 4).mp h, (ofNat_bytesValue_four s _).symm⟩

/-- A word store that goes through. -/
theorem memWrite_four {m : Nat} (s : State) (w ea : Word) (v : BitVec m) (h : accessible s w ea 4 = true) :
    s.memWrite w ea 4 v = .ok (s.physWriteBytes (s.physicalAddress ea 4).toNat (valueBytes 4 v)) := by
  rw [memWrite_eq_ok]
  exact ⟨_, (accessible_iff s w ea 4).mp h, rfl⟩

/-- The word read where a word was written. -/
theorem wordAt_physWriteBytes (s : State) (a : Nat) (v : Word) (hw : Memory.wf s.mem = true) :
    wordAt (s.physWriteBytes a (valueBytes 4 v)) a = v := by
  rw [← ofNat_bytesValue_four]
  have h := physBytes_physWriteBytes s a (valueBytes 4 v) hw
  rw [valueBytes_length] at h
  rw [h, bytesValue_valueBytes]
  apply BitVec.eq_of_toNat_eq
  rw [BitVec.toNat_ofNat]
  have := v.isLt
  omega

/-- A 32-bit scalar occupies four consecutive byte addresses (R59). -/
theorem physRead_memWrite_four (s t : State) (w ea : Word) (v : Word) (hw : Memory.wf s.mem = true)
    (h : s.memWrite w ea 4 v = .ok t) (k : Nat) (hk : k < 4) :
    t.physRead ((s.physicalAddress ea 4).toNat + k) = v.extractLsb' (8 * (3 - k)) 8 := by
  obtain ⟨a, ha, rfl⟩ := (memWrite_eq_ok s t w ea 4 v).mp h
  obtain ⟨-, rfl, -⟩ := (dataAddress_eq_ok s w ea a 4).mp ha
  rw [physRead_physWriteBytes_same _ _ _ _ hw (by simpa using hk), valueBytes_getElem]

/-- Bytes outside a written range. -/
theorem sameMemoryBut_physWriteBytes {m : Nat} (s : State) (a n : Nat) (v : BitVec m) :
    SameMemoryBut a n s (s.physWriteBytes a (valueBytes n v)) := by
  intro b hb
  exact physRead_physWriteBytes_other s a b _ (by simpa using hb)

/-- Memory writes leave the system registers alone. -/
theorem sameSystem_physWriteBytes (s : State) (a : Nat) (l : List Byte) (p : Word) :
    SameSystem s ((s.physWriteBytes a l).withPc p) := by
  simp [SameSystem]

theorem readGpr_eq_of_gpr {s t : State} (h : t.gpr = s.gpr) : SameGprs (fun _ => True) s t :=
  fun r _ => readGpr_congr h r

theorem readFpr_eq_of_fpr {s t : State} (h : t.fpr = s.fpr) : SameFprs (fun _ => True) s t :=
  fun r _ => readFpr_congr h r

end Sys2Proof
end

