-- ==== Sys2Proof/Laws/Multiple.lean ====
section
/-! SUPPORT. What the word loops of the multiple instructions do, and which ranges lie in plain memory. -/

namespace Sys2Proof

open Machine

/-- A range is in `mem_region` when each of its bytes is (D7). -/
theorem mappedRange_iff (p : Platform) (a n : Nat) :
    p.mappedRange a n = true ↔ ∀ i, i < n → p.mapped (a + i) = true := by
  induction n generalizing a with
  | zero => simp [Platform.mappedRange]
  | succ n ih =>
    rw [Platform.mappedRange, Bool.and_eq_true, ih]
    constructor
    · rintro ⟨h0, h⟩ i hi
      cases i with
      | zero => exact h0
      | succ i =>
        have := h i (by omega)
        rwa [show a + 1 + i = a + (i + 1) by omega] at this
    · intro h
      refine ⟨h 0 (by omega), fun i hi => ?_⟩
      have := h (i + 1) (by omega)
      rwa [show a + (i + 1) = a + 1 + i by omega] at this

/-- A part of a range of `mem_region` is in it too. -/
theorem mappedRange_sub (p : Platform) (a n b m : Nat) (h : p.mappedRange a n = true) (h1 : a ≤ b)
    (h2 : b + m ≤ a + n) :
    p.mappedRange b m = true := by
  rw [mappedRange_iff] at h ⊢
  intro i hi
  have := h (b - a + i) (by omega)
  rwa [show a + (b - a + i) = b + i by omega] at this

/-- MSR.LE by its number (R27). -/
theorem littleEndian_eq (s : State) : s.littleEndian = manualBit s.msr 31 := rfl

/-- In big-endian mode an aligned word inside plain memory is accessible (R66). -/
theorem accessible_be (s : State) (w ea : Word) (hle : s.littleEndian = false) (ha : ea.toNat % 4 = 0)
    (_ : ea.toNat + 4 ≤ 2 ^ 32) (hm : s.platform.mappedRange ea.toNat 4 = true) : accessible s w ea 4 = true := by
  simp [accessible, State.accessRaises, aligned, ha, State.physicalAddress, hle, hm]; omega

/-- All that the words of a load multiple do in big-endian mode: each register gets its word, every other field and
register stays (R126). -/
theorem loadWords_ok_words (s : State) (w ea : Word) (r : Reg) (n : Nat) (hle : s.littleEndian = false)
    (ha : ea.toNat % 4 = 0) (hb : ea.toNat + 4 * n ≤ 2 ^ 32) (hm : s.platform.mappedRange ea.toNat (4 * n) = true)
    (hr : r.toNat + n ≤ 32) :
    ∃ g, s.loadWords w ea r n = .ok { s with gpr := g } ∧
      (∀ r' : Reg, r.toNat ≤ r'.toNat → r'.toNat < r.toNat + n →
        State.readGpr { s with gpr := g } r' = wordAt s (ea.toNat + 4 * (r'.toNat - r.toNat))) ∧
      (∀ r' : Reg, (r'.toNat < r.toNat ∨ r.toNat + n ≤ r'.toNat) →
        State.readGpr { s with gpr := g } r' = s.readGpr r') := by
  induction n generalizing s ea r with
  | zero => exact ⟨s.gpr, rfl, fun r' _ _ => by omega, fun _ _ => rfl⟩
  | succ n ih =>
    have hacc := accessible_be s w ea hle ha (by omega) (mappedRange_sub _ _ _ _ _ hm (by omega) (by omega))
    have hrd := memRead_four s w ea hacc
    have hp : s.physicalAddress ea 4 = ea := by simp [State.physicalAddress, hle]
    rw [hp] at hrd
    rw [State.loadWords, hrd]
    cases n with
    | zero =>
      refine ⟨(s.writeGpr r (wordAt s ea.toNat)).gpr, rfl, ?_, ?_⟩
      · intro r' h1 h2
        have : r' = r := BitVec.eq_of_toNat_eq (by omega)
        subst this
        show State.readGpr (s.writeGpr _ _) _ = _
        simp
      · intro r' h
        show State.readGpr (s.writeGpr _ _) _ = _
        rw [readGpr_writeGpr, if_neg]
        rintro rfl; omega
    | succ m =>
      have hr1 : (r + 1).toNat = r.toNat + 1 := by
        rw [BitVec.toNat_add]; simp; omega
      have he : (ea + 4).toNat = ea.toNat + 4 := by
        rw [BitVec.toNat_add]; simp; omega
      obtain ⟨g, h1, h2, h3⟩ := ih (s.writeGpr r (wordAt s ea.toNat)) (ea + 4) (r + 1) hle (by omega) (by omega)
        (by rw [he]; exact mappedRange_sub _ _ _ _ _ hm (by omega) (by omega)) (by omega)
      refine ⟨g, h1, ?_, ?_⟩
      · intro r' h4 h5
        by_cases h6 : r'.toNat = r.toNat
        · have := h3 r' (by omega)
          have h7 : r' = r := BitVec.eq_of_toNat_eq h6
          subst h7
          exact this.trans (by simp)
        · have := h2 r' (by omega) (by omega)
          rw [he, hr1, show ea.toNat + 4 + 4 * (r'.toNat - (r.toNat + 1)) = ea.toNat + 4 * (r'.toNat - r.toNat) by
            omega] at this
          exact this
      · intro r' h4
        have := h3 r' (by omega)
        exact this.trans (by rw [readGpr_writeGpr, if_neg]; rintro rfl; omega)

/-- A word that shares no byte with the bytes written reads as before. -/
theorem wordAt_other (s : State) (a b : Nat) (l : List Byte) (h : b + 4 ≤ a ∨ a + l.length ≤ b) :
    wordAt (s.physWriteBytes a l) b = wordAt s b := by
  unfold wordAt
  rw [physRead_physWriteBytes_other _ _ _ _ (by omega), physRead_physWriteBytes_other _ _ _ _ (by omega),
    physRead_physWriteBytes_other _ _ _ _ (by omega), physRead_physWriteBytes_other _ _ _ _ (by omega)]

/-- All that the words of a store multiple do in big-endian mode: each register is in its word, every other byte and
field stays (R127). -/
theorem storeWords_ok_words (s : State) (w ea : Word) (r : Reg) (n : Nat) (hle : s.littleEndian = false)
    (hw : Memory.wf s.mem = true)
    (ha : ea.toNat % 4 = 0) (hb : ea.toNat + 4 * n ≤ 2 ^ 32) (hm : s.platform.mappedRange ea.toNat (4 * n) = true)
    (hr : r.toNat + n ≤ 32) :
    ∃ m st, s.storeWords w ea r n = .ok { s with mem := m, stored := st } ∧
      (∀ r' : Reg, r.toNat ≤ r'.toNat → r'.toNat < r.toNat + n →
        wordAt { s with mem := m, stored := st } (ea.toNat + 4 * (r'.toNat - r.toNat)) = s.readGpr r') ∧
      SameMemoryBut ea.toNat (4 * n) s { s with mem := m, stored := st } := by
  induction n generalizing s ea r with
  | zero => exact ⟨s.mem, s.stored, rfl, fun r' _ _ => by omega, fun _ _ => rfl⟩
  | succ n ih =>
    have hacc := accessible_be s w ea hle ha (by omega) (mappedRange_sub _ _ _ _ _ hm (by omega) (by omega))
    have hrd := memWrite_four s w ea (s.readGpr r) hacc
    have hp : s.physicalAddress ea 4 = ea := by simp [State.physicalAddress, hle]
    rw [hp] at hrd
    rw [State.storeWords, hrd]
    have hform : ∃ m1 st1, s.physWriteBytes ea.toNat (valueBytes 4 (s.readGpr r)) =
        { s with mem := m1, stored := st1 } := ⟨_, _, rfl⟩
    obtain ⟨m1, st1, hform⟩ := hform
    have hsame := sameMemoryBut_physWriteBytes s ea.toNat 4 (s.readGpr r)
    have hwf := physWriteBytes_wf s ea.toNat (valueBytes 4 (s.readGpr r)) hw
    have hword := wordAt_physWriteBytes s ea.toNat (s.readGpr r) hw
    rw [hform] at hsame hwf hword ⊢
    cases n with
    | zero =>
      refine ⟨m1, st1, rfl, ?_, hsame⟩
      intro r' h1 h2
      have : r' = r := BitVec.eq_of_toNat_eq (by omega)
      subst this
      simpa using hword
    | succ m =>
      have hr1 : (r + 1).toNat = r.toNat + 1 := by
        rw [BitVec.toNat_add]; simp; omega
      have he : (ea + 4).toNat = ea.toNat + 4 := by
        rw [BitVec.toNat_add]; simp; omega
      obtain ⟨m2, st2, h1, h2, h3⟩ := ih { s with mem := m1, stored := st1 } (ea + 4) (r + 1) hle hwf (by omega)
        (by omega)
        (by rw [he]; exact mappedRange_sub _ _ _ _ _ hm (by omega) (by omega)) (by omega)
      refine ⟨m2, st2, h1, ?_, ?_⟩
      · intro r' h4 h5
        by_cases h6 : r'.toNat = r.toNat
        · have h7 : r' = r := BitVec.eq_of_toNat_eq h6
          subst h7
          rw [← hword]
          unfold wordAt
          have e : ∀ k, k < 4 → State.physRead { s with mem := m2, stored := st2 } (ea.toNat + k) =
              State.physRead { s with mem := m1, stored := st1 } (ea.toNat + k) := fun k hk => h3 _ (by rw [he]; omega)
          have e0 := e 0 (by omega); have e1 := e 1 (by omega); have e2 := e 2 (by omega); have e3 := e 3 (by omega)
          simp only [Nat.add_zero] at e0
          simp only [Nat.sub_self, Nat.mul_zero, Nat.add_zero]
          rw [e0, e1, e2, e3]
        · have := h2 r' (by omega) (by omega)
          rw [he, hr1] at this
          rw [show ea.toNat + 4 * (r'.toNat - r.toNat) = ea.toNat + 4 + 4 * (r'.toNat - (r.toNat + 1)) by omega]
          exact this
      · intro b hb2
        rw [← hsame b (by omega)]
        exact h3 b (by rw [he]; omega)
end Sys2Proof
end

