-- ==== Sys2Proof/Laws/PerInstr.lean ====
section
/-! SUPPORT. The family EncodesItsRow: the word of every instruction has the fixed bits of its own opcode-table row,
whatever its fields (spec/30_encoding.md R109). -/

namespace Sys2Proof.Laws.EncodesItsRow

/-- The encoder's word matches the instruction's row. -/
def Statement (i : Instr) : Prop := i.row.selects (encode i) = true

theorem cmplwi (crfD : BitVec 3) (rA : Reg) (uimm : BitVec 16) : Statement (.cmplwi crfD rA uimm) := by
  simp only [Statement, Instr.row, Row.selects, rowCmplwi, encode, cmpForm_and]
  decide

theorem subi (rD rA : Reg) (simm : BitVec 16) : Statement (.subi rD rA simm) := by
  simp only [Statement, Instr.row, Row.selects, rowSubi, encode, dForm_and]
  decide

theorem beq (crf : BitVec 3) (bd : BitVec 14) : Statement (.beq crf bd) := by
  simp only [Statement, Instr.row, Row.selects, rowBeq, encode, bForm_and]
  decide

theorem b (li : BitVec 24) : Statement (.b li) := by
  simp only [Statement, Instr.row, Row.selects, rowB, encode, iForm_and]
  decide

theorem lwzux (rD rA rB : Reg) : Statement (.lwzux rD rA rB) := by
  simp only [Statement, Instr.row, Row.selects, rowLwzux, encode, xForm_and]
  decide

theorem add (rD rA rB : Reg) (rc : Bool) : Statement (.add rD rA rB rc) := by
  simp only [Statement, Instr.row, Row.selects, rowAdd, encode, xForm_and_rc]
  decide

theorem lscbx (rD rA rB : Reg) (rc : Bool) : Statement (.lscbx rD rA rB rc) := by
  simp only [Statement, Instr.row, Row.selects, rowLscbx, encode, xForm_and_rc]
  decide

theorem mtspr (spr : BitVec 10) (rS : Reg) : Statement (.mtspr spr rS) := by
  simp only [Statement, Instr.row, Row.selects, rowMtspr, encode, xForm_and]
  decide

theorem lswx (rD rA rB : Reg) : Statement (.lswx rD rA rB) := by
  simp only [Statement, Instr.row, Row.selects, rowLswx, encode, xForm_and]
  decide

theorem lswi (rD rA : Reg) (nb : BitVec 5) : Statement (.lswi rD rA nb) := by
  simp only [Statement, Instr.row, Row.selects, rowLswi, encode, xForm_and]
  decide

theorem stswx (rS rA rB : Reg) : Statement (.stswx rS rA rB) := by
  simp only [Statement, Instr.row, Row.selects, rowStswx, encode, xForm_and]
  decide

theorem stswi (rS rA : Reg) (nb : BitVec 5) : Statement (.stswi rS rA nb) := by
  simp only [Statement, Instr.row, Row.selects, rowStswi, encode, xForm_and]
  decide

theorem stw (rS rA : Reg) (d : BitVec 16) : Statement (.stw rS rA d) := by
  simp only [Statement, Instr.row, Row.selects, rowStw, encode, dForm_and]
  decide

theorem lmw (rD rA : Reg) (d : BitVec 16) : Statement (.lmw rD rA d) := by
  simp only [Statement, Instr.row, Row.selects, rowLmw, encode, dForm_and]
  decide

theorem stmw (rS rA : Reg) (d : BitVec 16) : Statement (.stmw rS rA d) := by
  simp only [Statement, Instr.row, Row.selects, rowStmw, encode, dForm_and]
  decide

theorem lfs (frD rA : Reg) (d : BitVec 16) : Statement (.lfs frD rA d) := by
  simp only [Statement, Instr.row, Row.selects, rowLfs, encode, dForm_and]
  decide

theorem stfs (frS rA : Reg) (d : BitVec 16) : Statement (.stfs frS rA d) := by
  simp only [Statement, Instr.row, Row.selects, rowStfs, encode, dForm_and]
  decide

theorem frsp (frD frB : Reg) (rc : Bool) : Statement (.frsp frD frB rc) := by
  simp only [Statement, Instr.row, Row.selects, rowFrsp, encode, xForm_and_frsp]
  decide

end Sys2Proof.Laws.EncodesItsRow
end

