-- ==== Sys2Proof/WellFormed.lean ====
section
/-! DEFINITION. Well-formed instructions: those whose form the spec does not call invalid
(spec/40_load_store_single_multiple_string.md R122, R126, R127, R130). -/

namespace Sys2Proof

/-- The forms the spec calls valid. Four instructions have forms that are invalid whatever the state: `lwzux`
(rA = 0 or rA = rD, R122), `lmw` and `stmw` (rA in the register range, R126, R127), `lswi` (rA in the range loaded, R130). The range of `lswx` and
`lscbx` depends on XER, so their forms are checked when they execute (R131). -/
def Instr.wellFormed : Instr → Bool
  | .cmplwi _ _ _ => true
  | .subi _ _ _ => true
  | .beq _ _ => true
  | .b _ => true
  | .lwzux rD rA _ => Machine.lwzuxValid rD rA
  | .add _ _ _ _ => true
  | .lscbx _ _ _ _ => true
  | .mtspr _ _ => true
  | .lswx _ _ _ => true
  | .lswi rD rA nb => Machine.lswiValid rD rA nb
  | .stswx _ _ _ => true
  | .stswi _ _ _ => true
  | .stw _ _ _ => true
  | .lmw rD rA _ => Machine.multipleValid rD rA
  | .stmw rS rA _ => Machine.multipleValid rS rA
  | .lfs _ _ _ => true
  | .stfs _ _ _ => true
  | .frsp _ _ _ => true

end Sys2Proof
end

