-- ==== Sys2Proof/Tests/Slice0.lean ====
section
/-! SUPPORT. Tests: ill-formed terms, words written out from the spec's encodings, the spec's own examples and vectors one
step at a time, and for every statement with hypotheses a state and operands that meet them. -/

namespace Sys2Proof.Tests

open Machine

/-- A state from reset with these general registers and these bytes of memory. -/
def testState (regs : List (Reg × Word)) (bytes : List (Nat × List Byte)) : State :=
  bytes.foldl (fun s p => s.hostBytes p.1 p.2) (regs.foldl (fun s p => s.writeGpr p.1 p.2) State.reset)

/-- The same state in little-endian mode. -/
def inLittleEndian (s : State) : State := { s with msr := 1 }

/-- The same state at the last instruction address. -/
def atEnd (s : State) : State := { s with pc := 0xFFFFFFFC }

/-- A state from reset with `d` in f1, an FPSCR from a word, and an envelope. -/
def fpState (d : Double) (fpscr : Word) (e : FpEnvelope) : State :=
  { State.reset.writeFpr 1 d with fpscr := Fpscr.ofWord fpscr, platform := { Platform.reset with fpEnvelope := e } }

/-- The outcome is a next state of which `f` holds. -/
def nextIs (o : Host.Outcome State Fault Refusal) (f : State → Bool) : Bool :=
  match o with
  | .next t => f t
  | _ => false

/-- The outcome is this refusal. -/
def refusedIs (o : Host.Outcome State Fault Refusal) (r : Refusal) : Bool :=
  match o with
  | .refused x => x == r
  | _ => false

/-! ### Ill-formed terms (R122, R126, R127, R130) -/

theorem test_illformed_lwzux_zero : (Instr.lwzux 4 0 6).wellFormed = false := by decide
theorem test_illformed_lwzux_same : (Instr.lwzux 4 4 6).wellFormed = false := by decide
theorem test_illformed_lmw_first : (Instr.lmw 29 29 0).wellFormed = false := by decide
theorem test_illformed_lmw_last : (Instr.lmw 29 31 0).wellFormed = false := by decide
theorem test_illformed_stmw_first : (Instr.stmw 29 29 0).wellFormed = false := by decide
theorem test_illformed_stmw_last : (Instr.stmw 29 31 0).wellFormed = false := by decide
theorem test_illformed_lswi_wrap : (Instr.lswi 31 0 5).wellFormed = false := by decide
theorem test_illformed_lswi_last : (Instr.lswi 5 6 5).wellFormed = false := by decide
theorem test_wellformed_boundary :
    (Instr.lmw 29 28 0).wellFormed = true ∧ (Instr.stmw 29 28 0).wellFormed = true ∧
    (Instr.lswi 5 7 5).wellFormed = true ∧
    (Instr.lwzux 4 5 6).wellFormed = true := by decide

/-! ### Words written out from R107 to R109: OPCD, the fields, XO, Rc -/

theorem test_decode_cmplwi : decodeWord 0b001010_011_0_0_00101_1000000000000001 = some (.cmplwi 3 5 0x8001) := by decide
theorem test_decode_subi : decodeWord 0b001110_00101_00110_1111111111111111 = some (.subi 5 6 0xFFFF) := by decide
theorem test_decode_beq : decodeWord 0b010000_01100_01110_10000000000001_0_0 = some (.beq 3 0x2001) := by decide
theorem test_decode_b : decodeWord 0b010010_111111111111111111111011_0_0 = some (.b 0xFFFFFB) := by decide
theorem test_decode_lwzux : decodeWord 0b011111_00100_00101_00110_0000110111_0 = some (.lwzux 4 5 6) := by decide
theorem test_decode_add :
    decodeWord 0b011111_00111_01000_00100_0_100001010_0 = some (.add 7 8 4 false) ∧
    decodeWord 0b011111_00111_01000_00100_0_100001010_1 = some (.add 7 8 4 true) := by decide
theorem test_decode_lscbx :
    decodeWord 0b011111_00101_00100_00110_0100010101_0 = some (.lscbx 5 4 6 false) ∧
    decodeWord 0b011111_00101_00100_00110_0100010101_1 = some (.lscbx 5 4 6 true) := by decide
/-- SPR 272 = 0b01000_10000: low half 10000 first, high half 01000 second. -/
theorem test_decode_mtspr : decodeWord 0b011111_00011_10000_01000_0111010011_0 = some (.mtspr 272 3) := by decide
theorem test_decode_lswx : decodeWord 0b011111_00101_00100_00110_1000010101_0 = some (.lswx 5 4 6) := by decide
theorem test_decode_lswi : decodeWord 0b011111_00101_00100_01000_1001010101_0 = some (.lswi 5 4 8) := by decide
theorem test_decode_stswx : decodeWord 0b011111_00101_00100_00110_1010010101_0 = some (.stswx 5 4 6) := by decide
theorem test_decode_stswi : decodeWord 0b011111_00101_00100_00011_1011010101_0 = some (.stswi 5 4 3) := by decide
theorem test_decode_stw : decodeWord 0b100100_00111_00000_0000000000100000 = some (.stw 7 0 0x20) := by decide
theorem test_decode_lmw : decodeWord 0b101110_11101_00001_1000000000000000 = some (.lmw 29 1 0x8000) := by decide
theorem test_decode_stmw : decodeWord 0b101111_11110_00001_0000000000001000 = some (.stmw 30 1 8) := by decide
theorem test_decode_lfs : decodeWord 0b110000_00001_00010_0000000100000000 = some (.lfs 1 2 0x100) := by decide
theorem test_decode_stfs : decodeWord 0b110100_00010_00011_0000000100000100 = some (.stfs 2 3 0x104) := by decide
theorem test_decode_frsp :
    decodeWord 0b111111_00010_00000_00001_0000001100_0 = some (.frsp 2 1 false) ∧
    decodeWord 0b111111_00010_00000_00001_0000001100_1 = some (.frsp 2 1 true) := by decide
/-- Neighbours that no row matches: `bc` with another condition, `addo`, `frsp` with its reserved field set, `bl`. -/
theorem test_decode_refuses :
    decodeWord 0x41820015 = none ∧ decodeWord 0x41800014 = none ∧ decodeWord 0x7CE72614 = none ∧
    decodeWord 0xFC410818 = none ∧ decodeWord 0x4BFFFFED = none ∧ decodeWord 0 = none := by decide
theorem test_decodeTableWord : decodeTableWord 32 0x38A5FFFF = some (.subi 5 5 0xFFFF) := by decide
theorem test_decode_bytes :
    decode [0x4B, 0xFF, 0xFF, 0xEC, 7] = .ok (.b 0xFFFFFB, [7]) ∧ decode [0, 0, 0] = .error .tooShort ∧
    decode [0, 0, 0, 1] = .error (.noRow 1) := by
  refine ⟨rfl, rfl, rfl⟩

/-! ### One step each, with the examples of the rules -/

/-- R158: 0xFFFFFFFF is greater than any UIMM; the comparison is unsigned. -/
theorem test_cmplwi_unsigned :
    nextIs (exec (.cmplwi 0 5 0xFFFF) (testState [(5, 0xFFFFFFFF)] [])) (fun t => t.cr == 0x40000000) = true := by
  decide
/-- R158's example: equal, and the field is the one named. -/
theorem test_cmplwi_field :
    nextIs (exec (.cmplwi 7 5 0) (testState [] [])) (fun t => t.cr == 0x00000002 && t.pc == 0x104) = true := by decide
/-- R160's example. -/
theorem test_subi_wraps :
    nextIs (exec (.subi 5 5 0xFFFF) (testState [] [])) (fun t => t.readGpr 5 == 0xFFFFFFFF) = true := by decide
/-- R160: rA = 0 is the value 0, not r0. -/
theorem test_subi_zero_base :
    nextIs (exec (.subi 4 0 0x100) (testState [(0, 7)] [])) (fun t => t.readGpr 4 == 0x100) = true := by decide
/-- R159's example, rD equal to rA. -/
theorem test_add_wraps :
    nextIs (exec (.add 7 7 4 true) (testState [(7, 0xFFFFFFFF), (4, 2)] []))
      (fun t => t.readGpr 7 == 1 && t.cr == 0x40000000) = true := by decide
/-- R159: the comparison with 0 is signed, and SO is copied. -/
theorem test_add_record_negative :
    nextIs (exec (.add 7 8 4 true) { testState [(8, 0x80000000)] [] with xer := 0x80000000 })
      (fun t => t.cr == 0x90000000) = true := by decide
/-- R151's example: `b loop` at 0x14 goes to 0. -/
theorem test_b_backward :
    nextIs (exec (.b 0xFFFFFB) { State.reset with pc := 0x14 }) (fun t => t.pc == 0 && t.lr == 0) = true := by decide
/-- R152's example: `beq done` at 0x04 goes to 0x18 when EQ of CR0 is one. -/
theorem test_beq_taken :
    nextIs (exec (.beq 0 5) { State.reset with pc := 4, cr := 0x20000000 }) (fun t => t.pc == 0x18) = true := by decide
theorem test_beq_other_field :
    nextIs (exec (.beq 1 5) { State.reset with pc := 4, cr := 0x20000000 }) (fun t => t.pc == 8) = true := by decide
/-- R122's example. -/
theorem test_lwzux :
    nextIs (exec (.lwzux 4 5 6) (testState [(5, 0x100), (6, 4)] [(0x104, [0, 0, 0, 0x2A])]))
      (fun t => t.readGpr 4 == 0x2A && t.readGpr 5 == 0x104) = true := by decide
/-- R120's example in little-endian mode, the base updated with the unmodified address (R124). -/
theorem test_lwzux_little_endian :
    nextIs (exec (.lwzux 4 5 6) (inLittleEndian (testState [(5, 0)] [(4, [0x11, 0x12, 0x13, 0x14])])))
      (fun t => t.readGpr 4 == 0x11121314 && t.readGpr 5 == 0) = true := by decide
/-- R120's widenings, big-endian: the half word 0xF112 zero-extended and sign-extended, and the byte 0x12. -/
theorem test_load_widened :
    let s := testState [] [(0x100, [0xF1, 0x12])]
    nextIs (loadSingle 2 .zero 4 none 0x100 0 s) (fun t => t.readGpr 4 == 0x0000F112) = true ∧
    nextIs (loadSingle 2 .sign 4 none 0x100 0 s) (fun t => t.readGpr 4 == 0xFFFFF112) = true ∧
    nextIs (loadSingle 1 .zero 4 (some 5) 0x101 0 s) (fun t => t.readGpr 4 == 0x12 && t.readGpr 5 == 0x101) = true := by
  decide
/-- R121's example: in little-endian mode the half word 0x5152 stored at 0x1C lies at 0x1A. -/
theorem test_store_half_little_endian :
    nextIs (storeSingle 2 7 none 0x1C 0 (inLittleEndian (testState [(7, 0x61625152)] [])))
      (fun t => t.physBytes 0x19 4 == [0, 0x51, 0x52, 0]) = true := by decide
/-- R123's example, big-endian. -/
theorem test_stw :
    nextIs (exec (.stw 7 0 0x20) (testState [(7, 0x11121314)] []))
      (fun t => t.physBytes 0x20 8 == [0x11, 0x12, 0x13, 0x14, 0, 0, 0, 0]) = true := by decide
/-- R123's example, little-endian. -/
theorem test_stw_little_endian :
    nextIs (exec (.stw 7 0 0x20) (inLittleEndian (testState [(7, 0x11121314)] [])))
      (fun t => t.physBytes 0x20 8 == [0, 0, 0, 0, 0x11, 0x12, 0x13, 0x14]) = true := by decide
/-- R130's example. -/
theorem test_lswi :
    nextIs (exec (.lswi 5 4 5) (testState [(4, 0x100), (6, 9)] [(0x100, [0x41, 0x42, 0x43, 0x44, 0x45])]))
      (fun t => t.readGpr 5 == 0x41424344 && t.readGpr 6 == 0x45000000) = true := by decide
/-- R130: r31 is followed by r0. -/
theorem test_lswi_wraps :
    nextIs (exec (.lswi 31 4 6) (testState [(4, 0x100), (0, 9)] [(0x100, [1, 2, 3, 4, 5, 6])]))
      (fun t => t.readGpr 31 == 0x01020304 && t.readGpr 0 == 0x05060000) = true := by decide
/-- R131: the count is XER{25:31}. -/
theorem test_lswx :
    nextIs (exec (.lswx 5 4 6) { testState [(4, 0xFF), (6, 1)] [(0x100, [1, 2, 3])] with xer := 0xFFFFFF82 })
      (fun t => t.readGpr 5 == 0x01020000) = true := by decide
theorem test_lswx_none :
    nextIs (exec (.lswx 5 5 5) (testState [(6, 3)] [])) (fun t => t.readGpr 6 == 3 && t.pc == 0x104) = true := by
  decide
/-- R132's example. -/
theorem test_stswi :
    nextIs (exec (.stswi 5 4 3) (testState [(5, 0x41424344), (4, 0x101)] []))
      (fun t => t.physBytes 0x100 5 == [0, 0x41, 0x42, 0x43, 0]) = true := by decide
theorem test_stswx_none :
    nextIs (exec (.stswx 5 4 6) (testState [(5, 0x41424344)] [])) (fun t => t.mem == [] && t.pc == 0x104) = true := by
  decide
theorem test_stswx :
    nextIs (exec (.stswx 31 0 6) { testState [(31, 0x41424344), (0, 0x45464748), (6, 0x100)] [] with xer := 5 })
      (fun t => t.physBytes 0x100 6 == [0x41, 0x42, 0x43, 0x44, 0x45, 0]) = true := by decide
/-- R134: the load ends after the byte 2, XER{16:23}. -/
theorem test_lscbx :
    nextIs (exec (.lscbx 5 4 6 true) { testState [(4, 0x100)] [(0x100, [1, 2, 3])] with xer := 0x00000204 })
      (fun t => t.readGpr 5 == 0x01020000 && t.xer == 0x00000202 && t.cr == 0x20000000) = true := by decide
theorem test_lscbx_no_match :
    nextIs (exec (.lscbx 5 4 6 true) { testState [(4, 0x100)] [(0x100, [1, 2, 3])] with xer := 0x00000902, cr := 0x30000000 })
      (fun t => t.readGpr 5 == 0x01020000 && t.xer == 0x00000902 && t.cr == 0x10000000) = true := by decide
/-- 95_test_vectors.md P4. -/
theorem test_stmw :
    nextIs (exec (.stmw 30 1 4) (testState [(1, 0xFC), (30, 0xAAAAAAAA), (31, 0xBBBBBBBB)] []))
      (fun t => t.physBytes 0x100 9 == [0xAA, 0xAA, 0xAA, 0xAA, 0xBB, 0xBB, 0xBB, 0xBB, 0]) = true := by decide
theorem test_lmw :
    nextIs (exec (.lmw 30 1 0xFFFC) (testState [(1, 0x104)] [(0x100, [0, 0, 0, 1, 0, 0, 0, 2])]))
      (fun t => t.readGpr 30 == 1 && t.readGpr 31 == 2 && t.readGpr 29 == 0) = true := by decide
/-- R127, R126: in big-endian mode rA in the range rS to 31 is an invalid form; in little-endian mode the alignment
exception comes first. -/
theorem test_stmw_invalid :
    refusedIs (exec (.stmw 29 30 0) State.reset) (.invalidForm 0xBFBE0000) = true ∧
    nextIs (exec (.stmw 29 30 0) (inLittleEndian State.reset)) (fun t => t.pc == 0x600) = true := by decide
/-- R127's example in little-endian mode, with the exception taken (R285, R289): ILE is 0, so LE becomes 0. -/
theorem test_stmw_little_endian :
    nextIs (exec (.stmw 30 1 8) (inLittleEndian (testState [(1, 0x100)] [])))
      (fun t => t.pc == 0x600 && t.srr0 == 0x100 && t.srr1 == 1 && t.msr == 0 && t.dar == 0x108 && t.mem == []) =
      true := by decide
theorem test_mtspr_srr0 :
    nextIs (exec (.mtspr 26 3) (testState [(3, 5)] [])) (fun t => t.srr0 == 5 && t.otherSpr == []) = true := by decide
/-- R162: at user level a supervisor-level register takes the program exception. -/
theorem test_mtspr_user :
    nextIs (exec (.mtspr 26 3) { testState [(3, 5)] [] with msr := 0x4000 })
      (fun t => t.pc == 0x700 && t.srr0 == 0x100 && t.srr1 == 0x4000 && t.msr == 0) = true := by decide
/-- R210's examples. -/
theorem test_lfs :
    nextIs (exec (.lfs 1 0 0x100) (testState [] [(0x100, [0x3F, 0x80, 0, 0])]))
      (fun t => t.readFpr 1 == 0x3FF0000000000000) = true := by decide
theorem test_lfs_denormalized :
    nextIs (exec (.lfs 1 0 0x100) (testState [] [(0x103, [1])])) (fun t => t.readFpr 1 == 0x36A0000000000000) = true := by
  decide
/-- R211's examples. -/
theorem test_stfs_denormalized :
    nextIs (exec (.stfs 1 0 0x100) (fpState 0x36A0000000000000 0 .exception)) (fun t => t.mem == [(0x103, 1)]) = true := by
  decide
theorem test_stfs_nan :
    nextIs (exec (.stfs 1 0 0x100) (fpState 0x7FF8000000000000 0 .exception))
      (fun t => t.mem == [(0x100, 0x7F), (0x101, 0xC0)]) = true := by decide
/-- 95_test_vectors.md D-FP5: a tie goes to the even neighbour, and with RN = 0b10 up. -/
theorem test_frsp_tie :
    nextIs (exec (.frsp 2 1 false) (fpState 0x3FF0000010000000 0 .exception))
      (fun t => t.readFpr 2 == 0x3FF0000000000000 && !t.fpscr.fr && t.fpscr.fi && t.fpscr.xx) = true := by decide
theorem test_frsp_up :
    nextIs (exec (.frsp 2 1 false) (fpState 0x3FF0000010000000 2 .exception))
      (fun t => t.readFpr 2 == 0x3FF0000020000000 && t.fpscr.fr && t.fpscr.fi) = true := by decide

/-- R200 to R204, R230, R235: 2.5 to integer is 2 in round to nearest and 3 toward +infinity; -0.5 toward zero is 0. -/
theorem test_convert_to_integer :
    convertOutcome Platform.reset Fpscr.zero .nearest 0x4004000000000000 = .deliver 2 false true true ∧
    convertOutcome Platform.reset Fpscr.zero .towardPlus 0x4004000000000000 = .deliver 3 true true true ∧
    convertOutcome Platform.reset Fpscr.zero .towardZero 0xBFE0000000000000 = .deliver 0 false true true := by decide
/-- R184, R187: what is no 32-bit integer is an invalid conversion; -2^31 is an integer and 2^31 is not. -/
theorem test_convert_invalid :
    convertOutcome Platform.reset Fpscr.zero .nearest 0xC1E0000000000000 = .deliver 0x80000000 false false false ∧
    convertOutcome Platform.reset Fpscr.zero .nearest 0x41E0000000000000 = .invalid (some false) ∧
    convertOutcome Platform.reset { Fpscr.zero with ve := true } .nearest 0x7FF8000000000000 = .assist := by decide
/-- R204: -3 from integer keeps its sign. -/
theorem test_convert_from_integer :
    nextIs (convertFromInteger 2 1 false 0 (fpState 0x00000000FFFFFFFD 0 .exception))
      (fun t => t.readFpr 2 == 0xC008000000000000) = true := by decide
/-- R181, R183, R184, R187: comparisons by value; a QNaN signals in the ordered one only. -/
theorem test_compare :
    compareOutcome Platform.reset Fpscr.zero true 0x8000000000000000 0 = .field false false true false ∧
    compareOutcome Platform.reset Fpscr.zero true 0xFFF0000000000000 0xBFF0000000000000 = .field true false false false ∧
    compareOutcome Platform.reset Fpscr.zero true 0x7FF8000000000000 0 = .field false false false true ∧
    compareOutcome Platform.reset Fpscr.zero false 0x7FF8000000000000 0 = .field false false false false ∧
    compareOutcome { Platform.reset with fpEnvelope := .ieee } { Fpscr.zero with ve := true } true 0x7FF8000000000000 0 =
      .unstated := by decide
/-- R236: an enabled overflow under `fp_envelope = ieee`, 2^128 to single: the exponent less 192. -/
theorem test_overflow_adjusted :
    nextIs (exec (.frsp 2 1 false) (fpState 0x47F0000000000000 0x40 .ieee))
      (fun t => t.readFpr 2 == 0x3BF0000000000000 && !t.fpscr.fi) = true := by decide
/-- R258: bit 55 of the accumulator is X. -/
theorem test_accumulator_bits :
    (⟨false, 0, 1, false⟩ : Accumulator).bit 55 = false ∧ (⟨false, 0, 0, true⟩ : Accumulator).bit 55 = true ∧
    (⟨false, 0, 1, false⟩ : Accumulator).bit 54 = true := by decide

/-! ### The step, and exceptions -/

/-- A launch in little-endian mode at user level with FP set (R303). -/
def userLaunch : Launch :=
  { pcWord := 0x40, endWord := 0x41, littleEndian := true, ile := false, msr := 0x00016000, fpscr := Fpscr.zero, cr := 0,
    regs := [], fregs := [], sprs := [(8, 0x104)], platform := Platform.reset, words := [], streams := [] }
theorem test_launch_msr :
    userLaunch.state.msr = 0x00006001 ∧ userLaunch.state.pc = 0x100 ∧ userLaunch.state.lr = 0x104 := by decide
/-- D10: a write of the MSR that would change LE is refused; one that keeps it is done. -/
theorem test_move_to_msr :
    refusedIs (moveToMsr 3 0 (testState [(3, 1)] [])) (.littleEndianChange 1) = true ∧
    nextIs (moveToMsr 3 0 (testState [(3, 0x00014000)] [])) (fun t => t.msr == 0x00014000) = true := by decide
/-- R294: FPSCR access needs MSR.FP = 1. -/
theorem test_fpscr_access :
    refusedIs (moveToFpscr 0xFF 0x2 State.reset) .fpscrUnavailable = true ∧
    nextIs (moveToFpscr 0xF 0x12 { State.reset with msr := 0x2000 }) (fun t => t.fpscr.toWord == 2) = true :=
  ⟨by decide, by decide +kernel⟩

/-- 95_test_vectors.md V9, V10: in little-endian mode the instruction at 0 is the physical word at 4. -/
theorem test_fetch_little_endian :
    nextIs (step { inLittleEndian (testState [] [(0, [0x41, 0x82, 0, 0x14, 0x28, 5, 0, 0])]) with pc := 0 })
      (fun t => t.cr == 0x20000000 && t.pc == 4) = true := by decide
theorem test_step_withFetchWord :
    nextIs (step (State.reset.withFetchWord 32 0x38A5FFFF)) (fun t => t.readGpr 5 == 0xFFFFFFFF && t.pc == 0x104) =
      true := by decide
theorem test_step_not_in_table : refusedIs (step State.reset) (.notInTable 0) = true := by decide
theorem test_step_stored :
    refusedIs (step (State.reset.physWrite 0x103 0)) (.fetchOfStoredByte 0x100) = true := by decide
/-- R284: ILE is copied into LE, and LE comes back with the return (R290). -/
theorem test_exception_and_return :
    let t := ({ State.reset with msr := 0x0001C030 } : State).takeException 0 .floatAssist
    t.msr = 0x00010001 ∧ t.pc = 0xE00 ∧ t.returnFromException.msr = 0x0001C030 ∧ t.returnFromException.pc = 0x100 := by
  decide
/-- 95_test_vectors.md D-FP6b and D-FP6d: one rounding of the multiply-add, and a carry out of the rounding. -/
theorem test_madd_one_rounding :
    arithOutcome Platform.reset Fpscr.zero .double .madd 0x3FF0000000000001 0xBFF0000000000002 0x3FF0000000000001 =
      .deliver 0x3970000000000000 false false false := by decide +kernel
theorem test_round_carry :
    arithOutcome Platform.reset Fpscr.zero .double .add 0x3FFFFFFFFFFFFFFF 0x3CA0000000000000 0 =
      .deliver 0x4000000000000000 true true true := by decide +kernel

/-! ### Witnesses: a state and operands that meet the hypotheses of each statement, clause by clause -/

theorem test_witness_EncodeOfDecode : decodeWord 0x4BFFFFEC = some (.b 0xFFFFFB) := by decide

theorem test_witness_DecodesExactlyTheRows :
    rowB ∈ rows ∧ rowB.selects 0x4BFFFFEC = true := ⟨by simp [rows], by decide⟩

theorem test_witness_StepKeepsInvariant :
    ∃ s t, s.wf = true ∧ step s = .next t ∧ t.pc ≠ s.pc :=
  ⟨State.reset.withFetchWord 32 0x38A5FFFF, _, by decide, rfl, by decide⟩

theorem test_witness_FetchReadsAWordLoad :
    (0x100 : Word) = (if manualBit State.reset.msr 31 then State.reset.pc ^^^ 4 else State.reset.pc) ∧
    State.reset.pc.toNat % 4 = 0 ∧ State.reset.platform.mappedRange (0x100 : Word).toNat 4 = true ∧
    State.reset.storedInRange (0x100 : Word).toNat 4 = false := by decide

theorem test_witness_StepRunsDecodedInstruction :
    (State.reset.withFetchWord 32 0x38A5FFFF).pc.toNat % 4 = 0 ∧
    (State.reset.withFetchWord 32 0x38A5FFFF).platform.mappedRange 0x100 4 = true ∧
    (State.reset.withFetchWord 32 0x38A5FFFF).storedInRange 0x100 4 = false ∧
    decode ((State.reset.withFetchWord 32 0x38A5FFFF).physBytes 0x100 4) = .ok (.subi 5 5 0xFFFF, []) :=
  ⟨by decide, by decide, by decide, rfl⟩

/-- A launch whose `mem_region` is one word at 0. -/
def smallPlatform : Platform := { Platform.reset with memRegion := [{ base := 0, size := 4 }] }

theorem test_witness_FetchRefusals :
    ({ State.reset with platform := smallPlatform, pc := 4 } : State).platform.mappedRange 4 4 = false ∧
    (State.reset.physWrite 0x103 1).platform.mappedRange 0x100 4 = true ∧
    (State.reset.physWrite 0x103 1).storedInRange 0x100 4 = true ∧
    State.reset.storedInRange 0x100 4 = false ∧ decodeWord (wordAt State.reset 0x100) = none := by decide

theorem test_witness_PlacedWordRuns :
    (inLittleEndian (atEnd State.reset)).wf = true ∧ decodeTableWord 32 0x4BFFFFEC = some (.b 0xFFFFFB) := by decide

theorem test_witness_NextInstructionAddress :
    nextIs (exec (.b 1) State.reset) (fun t => t.pc == 0x104) = true ∧
    nextIs (exec (.beq 7 0x3FFF) { State.reset with cr := 2 }) (fun t => t.pc == 0xFC) = true ∧
    nextIs (exec (.stswx 0 0 0) (inLittleEndian State.reset)) (fun t => t.pc == 0x600) = true := by decide

theorem test_witness_MsrChanges :
    ∃ s t, s.wf = true ∧ step s = .next t ∧ t.msr ≠ s.msr ∧
      s.platform.traps.saveAddress ≠ s.platform.traps.saveMsr :=
  ⟨(inLittleEndian State.reset).withFetchWord 32 0x7CA4352A, _, by decide, rfl, by decide, by decide⟩

theorem test_witness_UserMode :
    ∃ s t, s.wf = true ∧ step s = .next t ∧ s.platform.privilegeLevels = true ∧ manualBit s.msr 17 = true ∧
      sprSupervisor 26 = true :=
  ⟨({ State.reset with msr := 0x4000 } : State).withFetchWord 32 0x7C7A03A6, _, by decide, rfl, by decide, by decide,
    by decide⟩

theorem test_witness_StepKeepsControls :
    ∃ s t, step s = .next t ∧ s.fpscr.rn = 3 :=
  ⟨(fpState 0x3FF0000010000000 0x3 .exception).withFetchWord 32 0xFC400818, _, rfl, by decide⟩

/-- A launch that says every exception ends the run (D11). -/
def faultPlatform : Platform := { Platform.reset with raises := .fault }

theorem test_witness_FaultsOnlyAtUnalignedPcOrEndingException :
    (∃ f, step { State.reset with pc := 0x102 } = .fault f) ∧
    step (({ inLittleEndian State.reset with platform := faultPlatform } : State).withFetchWord 32 0x7CA4352A) =
      .fault (.raised 0x7CA4352A (.alignment 0)) := ⟨⟨_, rfl⟩, rfl⟩

theorem test_witness_LittleEndianAddressModification :
    (∃ a, State.reset.dataAddress 0 0xFFFFFFFC 4 = .ok a) ∧ (0xFFFFFFFC : Word).toNat % 4 = 0 :=
  ⟨⟨_, rfl⟩, by decide⟩

theorem test_witness_LoadCases :
    (1 : Word).toNat % 2 ≠ 0 ∧ manualBit (inLittleEndian State.reset).msr 31 = true ∧
    (0xFFFFFFF8 : Word).toNat % 8 = 0 ∧ (State.reset.physicalAddress 0xFFFFFFF8 8).toNat + 8 ≤ 2 ^ 32 ∧
    State.reset.platform.mappedRange (State.reset.physicalAddress 0xFFFFFFF8 8).toNat 8 = true := by decide

/-- The clause on an access outside `mem_region`, at the first address after it. -/
theorem test_witness_LoadCases_outside :
    (4 : Word).toNat % 2 = 0 ∧
    (({ State.reset with platform := smallPlatform } : State).physicalAddress 4 2).toNat + 2 ≤ 2 ^ 32 ∧
    smallPlatform.mappedRange (({ State.reset with platform := smallPlatform } : State).physicalAddress 4 2).toNat 2 =
      false ∧ smallPlatform.mappedRange 2 2 = true := by decide

/-- The clause on an operand past the last address needs a misaligned access that big-endian mode handles, which the
opaque parameter leaves open; its other conditions are met at 0xFFFFFFFD. -/
theorem test_witness_LoadCases_past_end (w : Word) (h : Config.beMisaligned w 0xFFFFFFFD 4 = true) :
    manualBit State.reset.msr 31 = false ∧ Config.beMisaligned w 0xFFFFFFFD 4 = true ∧
    (State.reset.physicalAddress 0xFFFFFFFD 4).toNat + 4 > 2 ^ 32 := ⟨by decide, h, by decide⟩

theorem test_witness_StoreLayout :
    Memory.wf State.reset.mem = true ∧ (∃ u, State.reset.memRead 0 0xFFFFFFFC 4 = .ok u) ∧
    (∃ e, (inLittleEndian State.reset).memRead 0 1 4 = .raise e) ∧
    (∃ r, ({ State.reset with platform := smallPlatform } : State).memRead 0 4 4 = .refuse r) :=
  ⟨rfl, ⟨_, rfl⟩, ⟨_, rfl⟩, ⟨_, rfl⟩⟩

theorem test_witness_LoadAfterStore :
    ∃ t, State.reset.memWrite 0 0xFFFFFFF8 8 (1 : BitVec 64) = .ok t ∧ t.accessRaises 0 0xFFFFFFF8 8 = false :=
  ⟨_, rfl, by decide⟩

theorem test_witness_LittleEndianView :
    manualBit (inLittleEndian State.reset).msr 31 = true ∧
    (inLittleEndian State.reset).platform.mapped ((0xFFFFFFFF : Word) ^^^ 7).toNat = true ∧
    Memory.wf (inLittleEndian State.reset).mem = true ∧
    ∃ t, (inLittleEndian State.reset).memWrite 0 0xFFFFFFF8 8 (1 : BitVec 64) = .ok t :=
  ⟨by decide, by decide, rfl, ⟨_, rfl⟩⟩

theorem test_witness_BigEndianAndMixedViews :
    manualBit State.reset.msr 31 = false ∧ manualBit 1 31 = true ∧ Memory.wf State.reset.mem = true ∧
    (0xFFFFFFFC : Word).toNat % 4 = 0 ∧ ∃ t, State.reset.memWrite 0 0xFFFFFFFC 4 (1 : BitVec 32) = .ok t :=
  ⟨by decide, by decide, rfl, by decide, ⟨_, rfl⟩⟩

theorem test_witness_HostStreamPlacement :
    manualBit (inLittleEndian State.reset).msr 31 = true ∧ Memory.wf (inLittleEndian State.reset).mem = true ∧
    ([1, 2] : List Byte).length ≤ 2 ^ 32 := by decide

/-- Both outcomes of raising, the floating-point assist one by `fp_envelope` alone (D11, D12), and a table whose save
registers are not the family's. -/
theorem test_witness_ExceptionEntry :
    Platform.reset.stopsAt (.alignment 4) = false ∧ faultPlatform.stopsAt .privileged = true ∧
    ({ Platform.reset with fpEnvelope := .fault } : Platform).stopsAt .floatAssist = true ∧
    sparseWf 0 State.reset.otherSpr = true ∧ TrapTable.family.saveAddress ≠ TrapTable.family.saveMsr ∧
    State.reset.platform.traps = TrapTable.family ∧ ¬ SavedInto State.reset 19 ∧ ¬ SavedInto State.reset 1 := by
  unfold SavedInto
  decide

theorem test_witness_StringAndMultiple : manualBit (inLittleEndian State.reset).msr 31 = true := by decide

theorem test_witness_MisalignedAccess :
    (5 : Reg) ≠ 0 ∧ (5 : Reg) ≠ 4 ∧
    ((inLittleEndian (testState [(5, 1)] [])).readGpr 5 + (inLittleEndian (testState [(5, 1)] [])).readGpr 6).toNat % 4
      ≠ 0 ∧
    (State.reset.eaDisp 0 3).toNat % 4 ≠ 0 ∧ manualBit (inLittleEndian State.reset).msr 31 = true ∧
    (28 : Reg).toNat < (29 : Reg).toNat := by decide

theorem test_witness_InvalidForms :
    manualBit State.reset.msr 31 = false ∧ (29 : Reg).toNat ≤ (29 : Reg).toNat ∧ (29 : Reg).toNat ≤ (31 : Reg).toNat ∧
    StringFills 31 32 6 ∧
    StringFills 5 (({ State.reset with xer := 5 } : State).xer.toNat % 128) 6 ∧
    State.reset.platform.lscbxPresent = true ∧
    exec (.lscbx 5 4 6 true) { State.reset with platform := { Platform.reset with lscbxPresent := false } } =
      .refused .lscbxAbsent :=
  ⟨by decide, by decide, by decide, ⟨31, by decide⟩, ⟨4, by decide⟩, by decide, rfl⟩

/-- Completion of the instructions that only need a next address: one address before the last. -/
theorem test_witness_sequential : ({ State.reset with pc := 0xFFFFFFF8 } : State).pc ≠ 0xFFFFFFFC := by decide

theorem test_witness_BeqCompletes :
    manualBit ({ State.reset with cr := 2 } : State).cr (4 * (7 : BitVec 3).toNat + 2) = true ∧
    manualBit State.reset.cr (4 * (7 : BitVec 3).toNat + 2) = false ∧ State.reset.pc ≠ 0xFFFFFFFC := by decide

/-- R153: a conditional branch with link writes LR whether or not it branches, and may return through the old LR. -/
theorem test_bcl_links_either_way :
    nextIs (branchConditionalRelative true 12 2 0x40 { State.reset with cr := 0x20000000 })
      (fun t => t.lr == 0x104 && t.pc == 0x140) = true ∧
    nextIs (branchConditionalAbsolute true 12 2 0x40 State.reset) (fun t => t.lr == 0x104 && t.pc == 0x104) = true := by
  decide
theorem test_bclrl_reads_lr_first :
    nextIs (branchToLinkRegister true 12 2 { State.reset with cr := 0x20000000, lr := 0x80 })
      (fun t => t.lr == 0x104 && t.pc == 0x80) = true := by decide

theorem test_witness_BranchAndLink :
    State.reset.pc ≠ 0xFFFFFFFC ∧ ConditionMet 12 2 0x20000000 ∧ ¬ ConditionMet 12 2 0 ∧ BranchTaken 16 0 0 1 ∧
    ¬ BranchTaken 16 0 0 0 ∧ (atEnd State.reset).pc = 0xFFFFFFFC := by
  unfold BranchTaken ConditionMet
  decide

theorem test_witness_LwzuxCompletes :
    accessible (testState [(5, 0xFFFFFFFC)] []) (encode (.lwzux 4 5 6)) 0xFFFFFFFC 4 = true ∧
    accessible (inLittleEndian (testState [(5, 0xFFFFFFFC)] [])) (encode (.lwzux 4 5 6)) 0xFFFFFFFC 4 = true := by
  decide

theorem test_witness_word_store_and_load :
    Memory.wf State.reset.mem = true ∧
    accessible State.reset (encode (.stw 7 0 0xFFFC)) (State.reset.eaDisp 0 0xFFFC) 4 = true ∧
    accessible (inLittleEndian State.reset) (encode (.stfs 7 0 0xFFFC)) (State.reset.eaDisp 0 0xFFFC) 4 = true ∧
    accessible State.reset (encode (.lfs 7 0 0xFFFC)) (State.reset.eaDisp 0 0xFFFC) 4 = true ∧
    reprSingle (State.reset.readFpr 7) = true := by decide

theorem test_witness_DoubleMoves :
    accessible State.reset 0 0xFFFFFFF8 8 = true ∧ (4 : Word).toNat % 8 ≠ 0 ∧
    manualBit (inLittleEndian State.reset).msr 31 = true := by decide

theorem test_witness_multiples :
    manualBit State.reset.msr 31 = false ∧ Memory.wf State.reset.mem = true ∧ (30 : Reg).toNat < (31 : Reg).toNat ∧
    (State.reset.eaDisp 30 0xFFFC).toNat % 4 = 0 ∧
    plainBytes State.reset (State.reset.eaDisp 30 0xFFFC).toNat (4 * (32 - (31 : Reg).toNat)) = true := by decide

theorem test_witness_StringLoads :
    manualBit State.reset.msr 31 = false ∧ plainBytes State.reset (State.reset.baseOrZero 0).toNat 32 = true ∧
    plainBytes (testState [(4, 0xFFFFFFFE)] []) 0xFFFFFFFE 2 = true :=
  ⟨by decide, by decide, by decide⟩

theorem test_witness_StringLoads_forms :
    ¬ StringFills 5 32 4 ∧ ¬ StringFills 5 4 6 ∧ ({ State.reset with xer := 4 } : State).xer.toNat % 128 ≠ 0 ∧
    State.reset.xer.toNat % 128 = 0 := by
  unfold StringFills
  decide

theorem test_witness_StringStores :
    plainBytes (testState [(4, 0xFFFFFFFE)] []) 0xFFFFFFFE 2 = true ∧ plainBytes State.reset 0 0 = true ∧
    Memory.wf State.reset.mem = true := by decide

theorem test_witness_LscbxCompletes :
    byteOf 0x00000205 2 = 2 ∧ ¬ StringFills 5 5 4 ∧ ¬ StringFills 5 5 7 ∧
    (testState [] [(0x100, [1, 2, 3])]).physRead 0x100 ≠ 2 ∧ (testState [] [(0x100, [1, 2, 3])]).physRead 0x101 = 2 ∧
    plainBytes (testState [] [(0x100, [1, 2, 3])]) 0x100 2 = true ∧ State.reset.platform.lscbxPresent = true := by
  unfold StringFills
  decide

theorem test_witness_Mtspr :
    State.reset.wf = true ∧ manualBit State.reset.msr 17 = false ∧ sprSupervisor 1 = false ∧
    manualBit ({ State.reset with msr := 0x4000 } : State).msr 17 = true ∧ sprSupervisor 1023 = true := by decide

theorem test_witness_FrspKeeps :
    reprSingle 0x36A0000000000000 = true ∧ isSNaN 0x36A0000000000000 = false ∧ reprSingle 0x7FF8000000000000 = true ∧
    isSNaN 0x7FF8000000000000 = false := by decide

theorem test_witness_FrspRounds :
    (897 ≤ expField 0x3810000010000000 ∧ (0x3810000010000000 : Double).toNat % 2 ^ 29 ≠ 0 ∧
      expField (frspRounded 2 0x3810000010000000) ≤ 1150) ∧
    (expField 0x47EFFFFFEFFFFFFF ≤ 1150 ∧ expField (frspRounded 0 0x47EFFFFFEFFFFFFF) ≤ 1150) ∧
    (fpState 0x3810000010000000 0 .exception).fpscr.xe = false ∧
    (fpState 0x3810000010000000 0x8 .exception).fpscr.xe = true := by decide

theorem test_witness_FrspTiny :
    reprSingle 0x380FFFFFFFFFFFFF = false ∧ expField 0x380FFFFFFFFFFFFF = 896 ∧
    (fpState 0 0x4 .exception).fpscr.ni = true ∧ (fpState 0 0x4 .exception).fpscr.ue = false ∧
    (fpState 0 0x24 .ieee).fpscr.ue = true ∧ (fpState 0 0 .ieee).fpscr.ni = false ∧
    reprSingle 0x0000000000000001 = false ∧ expField 0x0000000000000001 = 0 := by decide

theorem test_witness_FrspOfNaN :
    expField 0x7FF0000000000001 = 2047 ∧ fracField 0x7FF0000000000001 ≠ 0 ∧
    (0x7FF0000000000001 : Double).getLsbD 51 = false ∧ (0x7FF8000000000001 : Double).getLsbD 51 = true ∧
    (fpState 0 0x80 .ieee).fpscr.ve = true := by decide

theorem test_witness_FrspOverflow :
    1151 ≤ expField (frspRounded 0 0x47EFFFFFF0000000) ∧ 1151 ≤ expField (frspRounded 1 0x47F0000000000000) ∧
    expField 0x47EFFFFFF0000000 = 1150 ∧ (fpState 0 0x40 .ieee).fpscr.oe = true ∧
    (fpState 0 0x8 .exception).fpscr.xe = true ∧ (fpState 0 0 .exception).fpscr.oe = false := by decide

theorem test_witness_Conversions :
    reprSingle 0x36A0000000000000 = true ∧ singleClass 1 = .denormalized false ∧ singleClass 0x7F7FFFFF = .normalized false := by
  decide

theorem test_witness_Rounding : (⟨true, 3, 2 ^ 150⟩ : Exact).num ≠ 0 ∧ (⟨true, 3, 2 ^ 150⟩ : Exact).den ≠ 0 := by decide

theorem test_witness_NanResult :
    isNaN 0x7FF0000000000001 = true ∧ isDenormalized 0x7FF0000000000001 = false ∧ isNaN 0x3FF0000000000000 = false ∧
    reprSingle 0x7FF0000020000000 = true ∧ isNaN 0x7FF0000020000000 = true ∧
    FpOp.exact .mul .nearest (doubleDatum 0x7FF0000000000000) (doubleDatum 0) (doubleDatum 0) = .invalid := by decide

/-- The comparison and conversion clauses: a QNaN, with the invalid operation exception disabled and enabled. -/
theorem test_witness_NanResult_compare :
    isNaN 0x7FF8000000000000 = true ∧ isSNaN 0x7FF8000000000000 = false ∧ Fpscr.zero.ve = false ∧
    ({ Fpscr.zero with ve := true } : Fpscr).ve = true ∧ Platform.reset.fpEnvelope ≠ .ieee := by decide

theorem test_witness_ExactZeroSums :
    isNaN 0x7FEFFFFFFFFFFFFF = false ∧ expField 0x7FEFFFFFFFFFFFFF ≠ 2047 ∧
    isDenormalized 0x7FEFFFFFFFFFFFFF = false ∧ (0x8000000000000000 : Double).toNat % 2 ^ 63 = 0 ∧
    isNaN 0x0000000000000001 = false ∧ expField 0x0000000000000001 ≠ 2047 ∧ isDenormalized 0x0000000000000001 = true ∧
    (fpState 0 0 .ieee).platform.fpEnvelope = .ieee := by decide

/-- R203's examples: -0 times +5, and +1 divided by -infinity. -/
theorem test_witness_signs :
    arithOutcome Platform.reset Fpscr.zero .double .mul 0x8000000000000000 0 0x4014000000000000 =
      .deliver 0x8000000000000000 false false false ∧
    arithOutcome Platform.reset Fpscr.zero .double .div 0x3FF0000000000000 0xFFF0000000000000 0 =
      .deliver 0x8000000000000000 false false false := by decide

/-- A tiny product flushed, -2^-600 times 2^-600, and the results the spec does not state: -1 divided by +0, and the same
product with UE = 1 under `fp_envelope = ieee`. -/
theorem test_witness_signs_unstated :
    arithOutcome Platform.reset { Fpscr.zero with ni := true } .double .mul 0x9A70000000000000 0 0x1A70000000000000 =
      .flush 0x8000000000000000 ∧
    arithOutcome Platform.reset Fpscr.zero .double .div 0xBFF0000000000000 0 0 = .unstated .double (some true) ∧
    arithOutcome { Platform.reset with fpEnvelope := .ieee } { Fpscr.zero with ue := true } .double .mul
      0x9A70000000000000 0 0x1A70000000000000 = .unstated .double (some true) := by decide +kernel

/-- Zero divide with ZE = 1 (log 22): the assist exception. -/
theorem test_zero_divide_enabled :
    arithOutcome Platform.reset { Fpscr.zero with ze := true } .single .div 0x3FF0000000000000 0 0 = .assist := by decide

/-- 95_test_vectors.md D-FP6c: the positive form rounds up toward plus infinity, and then the sign is inverted. -/
theorem test_witness_NegatedMultiplyAdd :
    arithOutcome Platform.reset { Fpscr.zero with rn := 2 } .double .madd 0x3FF0000000000001 0xBCA0000000000000
      0x3FF0000000000000 = .deliver 0x3FF0000000000001 true true true ∧
    arithOutcome Platform.reset { Fpscr.zero with rn := 2 } .double .nmadd 0x3FF0000000000001 0xBCA0000000000000
      0x3FF0000000000000 = .deliver 0xBFF0000000000001 true true true := by decide +kernel

/-- The other clauses: the assist exception of a tiny positive form, its zero of non-IEEE mode, a multiply-subtract, and
a signaling NaN whose result is not stated. -/
theorem test_witness_NegatedMultiplyAdd_clauses :
    arithOutcome Platform.reset Fpscr.zero .double .madd 0x1A70000000000000 0 0x1A70000000000000 = .assist ∧
    arithOutcome Platform.reset { Fpscr.zero with ni := true } .double .madd 0x1A70000000000000 0 0x1A70000000000000 =
      .flush 0 ∧
    arithOutcome Platform.reset Fpscr.zero .double .msub 0x4000000000000000 0x3FF0000000000000 0x4000000000000000 =
      .deliver 0x4008000000000000 false false false ∧
    arithOutcome { Platform.reset with fpEnvelope := .ieee } { Fpscr.zero with ve := true } .single .msub
      0x7FF0000020000000 0 0 = .unstated .single none := by decide +kernel

theorem test_witness_NoAssist :
    (fpState 0x3690000000000000 0x4 .exception).envelopeFree = true ∧ isDenormalized 0x3690000000000000 = false ∧
    FpOp.madd ≠ FpOp.div ∧ reprSingle 0x3FF0000000000000 = true ∧ isDenormalized 0x3FF0000000000000 = false := by
  decide

end Sys2Proof.Tests
end

section
/-! PROOFS. Exception entry and the return (spec/60_exceptions.md R280, R284, R285, R289, R290): first the rules of what
an entry does to the special-purpose registers, the MSR and the instruction address, then the statement. -/

namespace Sys2Proof.Machine

/-! ### Special-purpose registers across an entry -/

/-- A write of a special-purpose register keeps the unnamed ones in canonical form. -/
theorem writeSpr_otherSpr_wf (s : State) (n : BitVec 10) (v : Word) (h : sparseWf 0 s.otherSpr = true) :
    sparseWf 0 (s.writeSpr n v).otherSpr = true := by
  unfold State.writeSpr
  iterate 7 (split; · exact h)
  exact sparseWf_set _ _ _ h

/-- DAR and DSISR are the special-purpose registers 19 and 18. -/
theorem dar_eq_readSpr (s : State) : s.dar = s.readSpr 19 := rfl
theorem dsisr_eq_readSpr (s : State) : s.dsisr = s.readSpr 18 := rfl

/-- The record of an alignment exception changes no register but DAR and DSISR (R280). -/
theorem readSpr_recordAlignment_other (s : State) (w : Word) (e : Exc) (n : BitVec 10)
    (h : (n ≠ 18 ∧ n ≠ 19) ∨ ∀ ea, e ≠ .alignment ea) : (s.recordAlignment w e).readSpr n = s.readSpr n := by
  cases e with
  | alignment ea =>
    obtain ⟨hdsisr, hdar⟩ : n ≠ sprDsisr ∧ n ≠ sprDar := h.resolve_right fun k => k ea rfl
    simp [State.readSpr, State.recordAlignment, hdsisr, hdar]
  | privileged => rfl
  | floatAssist => rfl

/-- Every special-purpose register after an exception entry: the two save registers are written, the MSR's second. -/
theorem readSpr_enterException (s : State) (o : Word) (n : BitVec 10) :
    (s.enterException o).readSpr n =
      ((s.writeSpr s.platform.traps.saveAddress s.pc).writeSpr s.platform.traps.saveMsr s.msr).readSpr n := rfl

/-- A register that an entry does not save into holds what the record of the exception left in it. -/
theorem readSpr_takeException_other (s : State) (w : Word) (e : Exc) (n : BitVec 10) (h : ¬ SavedInto s n) :
    (s.takeException w e).readSpr n = (s.recordAlignment w e).readSpr n := by
  obtain ⟨haddress, hmsr⟩ := not_or.mp h
  rw [State.takeException, readSpr_enterException, readSpr_writeSpr_other _ _ _ _ (by simpa using hmsr),
    readSpr_writeSpr_other _ _ _ _ (by simpa using haddress)]

/-- An entry saves the whole MSR (R284). -/
theorem readSpr_takeException_saveMsr (s : State) (w : Word) (e : Exc) (h : sparseWf 0 s.otherSpr = true) :
    (s.takeException w e).readSpr s.platform.traps.saveMsr = s.msr := by
  have hwf := writeSpr_otherSpr_wf (s.recordAlignment w e) s.platform.traps.saveAddress s.pc (by simpa using h)
  simpa [State.takeException, readSpr_enterException] using
    readSpr_writeSpr_same _ s.platform.traps.saveMsr s.msr hwf

/-- An entry saves the address of the instruction, where the MSR does not go to the same register (R285). -/
theorem readSpr_takeException_saveAddress (s : State) (w : Word) (e : Exc) (h : sparseWf 0 s.otherSpr = true)
    (hne : s.platform.traps.saveAddress ≠ s.platform.traps.saveMsr) :
    (s.takeException w e).readSpr s.platform.traps.saveAddress = s.pc := by
  simp only [State.takeException, readSpr_enterException, recordAlignment_platform, recordAlignment_pc,
    recordAlignment_msr]
  rw [readSpr_writeSpr_other _ _ _ _ hne, readSpr_writeSpr_same _ _ _ (by simpa using h)]

/-- An alignment exception leaves the effective address in DAR and the description of its instruction in DSISR, where
the entry does not save over them (R280). -/
theorem takeException_dar (s : State) (w ea : Word) (h : ¬ SavedInto s 19) :
    (s.takeException w (.alignment ea)).dar = ea := by
  rw [dar_eq_readSpr, readSpr_takeException_other _ _ _ _ h]
  rfl
theorem takeException_dsisr (s : State) (w ea : Word) (h : ¬ SavedInto s 18) :
    (s.takeException w (.alignment ea)).dsisr = Config.dsisr w := by
  rw [dsisr_eq_readSpr, readSpr_takeException_other _ _ _ _ h]
  rfl

/-- What an entry leaves alone beside special-purpose registers (R281). -/
theorem sameUnderException_takeException (s : State) (w : Word) (e : Exc) :
    SameUnderException s (s.takeException w e) := by simp [SameUnderException]

/-! ### The MSR and the vector -/

/-- The MSR at entry, bit by bit: LE is ILE, every other bit stays or is cleared (R284, R289). -/
theorem manualBit_msrAtEntry (cleared msr : Word) (i : Nat) (hi : i < 32) :
    manualBit (msrAtEntry cleared msr) i =
      if i = 31 then manualBit msr 15 else manualBit msr i && !manualBit cleared i := by
  have hbit : 31 - i < 32 := by omega
  unfold msrAtEntry msrIle manualBit
  by_cases h : i = 31
  · cases hile : msr.getLsbD (31 - 15) <;> simp [h]
  · have hone : 31 - i ≠ 0 := by omega
    cases hile : msr.getLsbD (31 - 15) <;> simp [h, hone, hbit]

/-- The bits the family's table clears are 16, 17, 26 and 27. -/
theorem manualBit_family_cleared (i : Nat) (hi : i < 32) :
    manualBit TrapTable.family.cleared i = decide (i ∈ [16, 17, 26, 27]) := by
  revert i
  decide

/-- The family's vectors are multiples of four, so that clearing the two low bits changes none of them (R24, R289). -/
theorem family_vector (msr : Word) (e : Exc) :
    (TrapTable.family.base msr + TrapTable.family.offset e) &&& ~~~3 =
      (if manualBit msr 25 then 0xFFF00000 else 0) + TrapTable.family.offset e := by
  have hbase : TrapTable.family.base msr = if manualBit msr 25 then 0xFFF00000 else 0 := rfl
  rw [hbase]
  cases manualBit msr 25 <;> cases e <;> simp [TrapTable.offset, TrapTable.family]

/-! ### The return -/

/-- Clearing the two low bits of a multiple of four changes nothing (R24). -/
theorem clear_low_bits_of_aligned (a : Word) (h : a.toNat % 4 = 0) : a &&& ~~~3 = a := by
  refine BitVec.eq_of_getLsbD_eq fun i hi => ?_
  have hlow : i < 2 → a.getLsbD i = false := fun hi2 => by
    have hmod := Nat.testBit_mod_two_pow a.toNat 2 i
    rw [show a.toNat % 2 ^ 2 = 0 from h] at hmod
    simpa [hi2, BitVec.getLsbD] using hmod
  have hmask : ∀ k < 32, (3 : Word).getLsbD k = decide (k < 2) := by decide
  rw [BitVec.getLsbD_and, BitVec.getLsbD_not, hmask i hi]
  by_cases hi2 : i < 2
  · rw [hlow hi2, Bool.false_and]
  · simp [hi, hi2]

/-- The return restores the MSR that the entry saved (R284, R290). -/
theorem takeException_return_msr (s : State) (w : Word) (e : Exc) (h : sparseWf 0 s.otherSpr = true) :
    (s.takeException w e).returnFromException.msr = s.msr := by
  simpa [State.returnFromException] using readSpr_takeException_saveMsr s w e h

/-- The return goes back to the instruction whose address the entry saved (R285, R290). -/
theorem takeException_return_pc (s : State) (w : Word) (e : Exc) (h : sparseWf 0 s.otherSpr = true)
    (hne : s.platform.traps.saveAddress ≠ s.platform.traps.saveMsr) (hpc : s.pc.toNat % 4 = 0) :
    (s.takeException w e).returnFromException.pc = s.pc := by
  simp only [State.returnFromException, takeException_platform, readSpr_takeException_saveAddress s w e h hne]
  exact clear_low_bits_of_aligned s.pc hpc

/-! ### The statement -/

/-- Settles O26: each clause is one of the rules above. -/
theorem exceptionEntryAndReturn : Obligations.ExceptionEntryAndReturn := by
  rintro s u w e p rfl rfl
  refine ⟨fun hgo => (raise_eq_next s _ w e).mpr ⟨hgo, rfl⟩, fun hstop => (raise_eq_fault s w e _).mpr ⟨hstop, rfl⟩,
    fun hwf => ⟨readSpr_takeException_saveMsr s w e hwf, fun hne =>
      ⟨readSpr_takeException_saveAddress s w e hwf hne, takeException_return_msr s w e hwf,
        takeException_return_pc s w e hwf hne⟩⟩,
    fun i hi => ?msr, ?vector, ?dar, ?dsisr, fun n hsaved hn => ?frame, sameUnderException_takeException s w e,
    fun hfamily => ?family⟩
  case msr => rw [takeException_msr, manualBit_msrAtEntry _ _ i hi]
  case vector =>
    rw [takeException_pc]
    cases e <;> rfl
  case dar =>
    rintro ea rfl hsaved
    exact takeException_dar s w ea hsaved
  case dsisr =>
    rintro ea rfl hsaved
    exact takeException_dsisr s w ea hsaved
  case frame => rw [readSpr_takeException_other s w e n hsaved, readSpr_recordAlignment_other s w e n hn]
  case family =>
    obtain ⟨hsrr0, hsrr1⟩ := takeException_srr_family s w e hfamily
    refine ⟨hsrr0, hsrr1, fun i hi => ?_, ?_⟩
    · rw [takeException_msr, hfamily, manualBit_msrAtEntry _ _ i hi, manualBit_family_cleared i hi]
      by_cases hclear : i ∈ [16, 17, 26, 27] <;> simp [hclear]
    · rw [takeException_pc, hfamily]
      cases e <;> exact family_vector s.msr _

end Sys2Proof.Machine
end

section
/-! PROOFS. What one step can do, said once (spec/10_state.md, spec/20_memory.md R70, spec/60_exceptions.md R289): the
canonical forms and their writes, the instruction addresses, what the operation of an instruction keeps, and how every
instruction ends. -/

namespace Sys2Proof.Machine

/-! ### Canonical forms -/

/-- A sparse list in canonical form whose numbers are all in `P`. -/
structure Canonical {α : Type} [DecidableEq α] (z : α) (P : Nat → Prop) (l : List (Nat × α)) : Prop where
  wf : sparseWf z l = true
  keys : ∀ c ∈ l, P c.1

theorem canonical_iff {α : Type} [DecidableEq α] (z : α) (P : Nat → Prop) (l : List (Nat × α)) :
    Canonical z P l ↔ sparseWf z l = true ∧ ∀ c ∈ l, P c.1 :=
  ⟨fun ⟨hwf, hkeys⟩ => ⟨hwf, hkeys⟩, fun ⟨hwf, hkeys⟩ => ⟨hwf, hkeys⟩⟩

/-- A write at a number of `P` keeps the canonical form. -/
theorem Canonical.set {α : Type} [DecidableEq α] {z : α} {P : Nat → Prop} {l : List (Nat × α)}
    (h : Canonical z P l) (k : Nat) (v : α) (hk : P k) : Canonical z P (sparseSet z l k v) :=
  ⟨sparseWf_set l k v h.wf, sparseSet_mem P l k v hk h.keys⟩

/-- A 10-bit special-purpose register number that no named register has (R162). -/
def UnnamedSpr (n : Nat) : Prop := n < 2 ^ 10 ∧ n ∉ namedSprNumbers

/-- The part of the invariant that speaks of memory and the unnamed special-purpose registers (R32, R162). -/
structure State.DataWf (s : State) : Prop where
  mem : Canonical unwrittenByte (· < 2 ^ 32) s.mem
  stored : Canonical false (· < 2 ^ 32) s.stored
  otherSpr : Canonical 0 UnnamedSpr s.otherSpr

theorem dataWf_iff (s : State) : s.DataWf ↔
    Canonical unwrittenByte (· < 2 ^ 32) s.mem ∧ Canonical false (· < 2 ^ 32) s.stored ∧
    Canonical 0 UnnamedSpr s.otherSpr :=
  ⟨fun ⟨hmem, hstored, hspr⟩ => ⟨hmem, hstored, hspr⟩, fun ⟨hmem, hstored, hspr⟩ => ⟨hmem, hstored, hspr⟩⟩

/-- The invariant: the instruction address is a multiple of four (R24), and the data is in canonical form. -/
theorem wf_iff (s : State) : s.wf = true ↔ aligned s.pc 4 = true ∧ s.DataWf := by
  simp [dataWf_iff, canonical_iff, State.wf, Memory.wf, UnnamedSpr, and_assoc]

theorem physWrite_dataWf (s : State) (a : Nat) (v : Byte) (ha : a < 2 ^ 32) (h : s.DataWf) :
    (s.physWrite a v).DataWf :=
  ⟨h.mem.set a v ha, h.stored.set a true ha, h.otherSpr⟩

/-- Memory writes inside the address space keep the canonical forms. -/
theorem physWriteBytes_dataWf (s : State) (a : Nat) (l : List Byte) (hb : a + l.length ≤ 2 ^ 32) (h : s.DataWf) :
    (s.physWriteBytes a l).DataWf := by
  induction l generalizing s a with
  | nil => exact h
  | cons v rest ih =>
    rw [List.length_cons] at hb
    exact ih (s.physWrite a v) (a + 1) (by omega) (physWrite_dataWf s a v (by omega) h)

/-- A write of a special-purpose register changes the list of the unnamed ones only at the number of one. -/
theorem writeSpr_otherSpr (s : State) (n : BitVec 10) (v : Word) :
    (s.writeSpr n v).otherSpr = s.otherSpr ∨
      (UnnamedSpr n.toNat ∧ (s.writeSpr n v).otherSpr = sparseSet 0 s.otherSpr n.toNat v) := by
  have hne : ∀ {m : BitVec 10}, n ≠ m → n.toNat ≠ m.toNat := fun h k => h (BitVec.eq_of_toNat_eq k)
  unfold State.writeSpr
  iterate 7 (split; · exact .inl rfl)
  next hxer hlr hctr hdsisr hdar hsrr0 hsrr1 =>
    refine .inr ⟨⟨n.isLt, ?_⟩, rfl⟩
    simpa [namedSprNumbers] using
      ⟨hne hxer, hne hlr, hne hctr, hne hdsisr, hne hdar, hne hsrr0, hne hsrr1⟩

theorem writeSpr_dataWf (s : State) (n : BitVec 10) (v : Word) (h : s.DataWf) : (s.writeSpr n v).DataWf := by
  refine ⟨by simpa using h.mem, by simpa using h.stored, ?_⟩
  obtain heq | ⟨hn, heq⟩ := writeSpr_otherSpr s n v
  · rw [heq]
    exact h.otherSpr
  · rw [heq]
    exact h.otherSpr.set n.toNat v hn

/-- An exception entry keeps the canonical forms: it writes special-purpose registers alone. -/
theorem takeException_dataWf (s : State) (w : Word) (e : Exc) (h : s.DataWf) : (s.takeException w e).DataWf := by
  have hrecord : (s.recordAlignment w e).DataWf :=
    ⟨by simpa using h.mem, by simpa using h.stored, by simpa using h.otherSpr⟩
  obtain ⟨hmem, hstored, hspr⟩ := writeSpr_dataWf _ (s.recordAlignment w e).platform.traps.saveMsr
    (s.recordAlignment w e).msr (writeSpr_dataWf _ (s.recordAlignment w e).platform.traps.saveAddress
      (s.recordAlignment w e).pc hrecord)
  exact ⟨hmem, hstored, hspr⟩

/-! ### Instruction addresses (R24) -/

theorem aligned_four_iff (a : Word) : aligned a 4 = true ↔ a.toNat % 4 = 0 := by simp [aligned]

theorem aligned_add (a b : Word) (ha : aligned a 4 = true) (hb : aligned b 4 = true) : aligned (a + b) 4 = true := by
  rw [aligned_four_iff] at ha hb ⊢
  rw [BitVec.toNat_add]
  omega

/-- Clearing the two low bits gives a multiple of four. -/
theorem aligned_clear_low_bits (a : Word) : aligned (a &&& ~~~3) 4 = true := by
  rw [aligned_four_iff, BitVec.toNat_and]
  exact (Nat.and_mod_two_pow (n := 2)).trans (Nat.and_zero _)

/-- A word that is four times a number, as a signed one, is a multiple of four. -/
theorem aligned_of_toInt (a : Word) (k : Int) (h : a.toInt = 4 * k) : aligned a 4 = true := by
  rw [aligned_four_iff]
  rw [BitVec.toInt_eq_toNat_cond] at h
  split at h <;> omega

theorem takeException_pc_aligned (s : State) (w : Word) (e : Exc) : aligned (s.takeException w e).pc 4 = true := by
  rw [takeException_pc]
  exact aligned_clear_low_bits _

/-! ### What the operation of an instruction keeps -/

/-- What the operation of instruction `i` makes of `s`, before the instruction address advances and without an
exception: the instruction address, the MSR and the launch parameters are as before, the FPSCR too but for the status bits that
`frsp` writes (R29, R288), and the canonical forms are kept. -/
structure Keeps (i : Instr) (s u : State) : Prop where
  pc : u.pc = s.pc
  msr : u.msr = s.msr
  platform : u.platform = s.platform
  controls : SameFpscrControls s u
  fpscr : u.fpscr = s.fpscr ∨ ∃ frD frB rc, i = .frsp frD frB rc
  dataWf : s.DataWf → u.DataWf

/-- Every field but the registers a program computes with, and the count of free values, is unchanged. -/
def OnlyRegisters (s u : State) : Prop :=
  u.pc = s.pc ∧ u.msr = s.msr ∧ u.platform = s.platform ∧ u.fpscr = s.fpscr ∧ u.mem = s.mem ∧ u.stored = s.stored ∧
  u.otherSpr = s.otherSpr

section
variable {i : Instr} {s u t : State}

theorem sameFpscrControls_of_eq (h : u.fpscr = s.fpscr) : SameFpscrControls s u := by simp [SameFpscrControls, h]

theorem sameFpscrControls_trans (h : SameFpscrControls s u) (k : SameFpscrControls u t) : SameFpscrControls s t := by
  simp_all [SameFpscrControls]

theorem OnlyRegisters.keeps (h : OnlyRegisters s u) : Keeps i s u := by
  obtain ⟨hpc, hmsr, hplatform, hfpscr, hmem, hstored, hspr⟩ := h
  exact ⟨hpc, hmsr, hplatform, sameFpscrControls_of_eq hfpscr, .inl hfpscr,
    fun ⟨wmem, wstored, wspr⟩ => ⟨hmem ▸ wmem, hstored ▸ wstored, hspr ▸ wspr⟩⟩

/-- A memory write inside the address space (R66, R67). -/
theorem keeps_physWriteBytes (s : State) (a : Nat) (l : List Byte) (hb : a + l.length ≤ 2 ^ 32) :
    Keeps i s (s.physWriteBytes a l) :=
  ⟨by simp, by simp, by simp, sameFpscrControls_of_eq (by simp), .inl (by simp), physWriteBytes_dataWf s a l hb⟩

theorem keeps_writeSpr (s : State) (n : BitVec 10) (v : Word) : Keeps i s (s.writeSpr n v) :=
  ⟨by simp, by simp, by simp, sameFpscrControls_of_eq (by simp), .inl (by simp), writeSpr_dataWf s n v⟩

theorem Keeps.refl (i : Instr) (s : State) : Keeps i s s := OnlyRegisters.keeps ⟨rfl, rfl, rfl, rfl, rfl, rfl, rfl⟩

theorem Keeps.trans (h : Keeps i s u) (k : Keeps i u t) : Keeps i s t where
  pc := k.pc.trans h.pc
  msr := k.msr.trans h.msr
  platform := k.platform.trans h.platform
  controls := sameFpscrControls_trans h.controls k.controls
  fpscr := h.fpscr.elim (fun hu => k.fpscr.imp_left (·.trans hu)) .inr
  dataWf := k.dataWf ∘ h.dataWf

/-- The memory writes of a store multiple or a string store. -/
theorem keeps_writesOf (s : State) (l : List (Nat × List Byte)) (hb : ∀ p ∈ l, p.1 + p.2.length ≤ 2 ^ 32) :
    Keeps i s (writesOf s l) := by
  induction l generalizing s with
  | nil => exact Keeps.refl i s
  | cons p rest ih =>
    obtain ⟨hp, hrest⟩ := List.forall_mem_cons.mp hb
    exact (keeps_physWriteBytes s p.1 p.2 hp).trans (ih (s.physWriteBytes p.1 p.2) hrest)

theorem keeps_memWrite {m n : Nat} {w ea : Word} {v : BitVec m} (h : s.memWrite w ea n v = .ok u) : Keeps i s u := by
  obtain ⟨a, ha, rfl⟩ := (memWrite_eq_ok s u w ea n v).mp h
  obtain ⟨-, -, hend, -⟩ := (dataAddress_eq_ok s w ea a n).mp ha
  exact keeps_physWriteBytes s a.toNat _ (by simpa using hend)

theorem keeps_storeWords {w ea : Word} {r : Reg} {n : Nat} (h : s.storeWords w ea r n = .ok u) : Keeps i s u := by
  obtain ⟨l, rfl, hb⟩ := storeWords_ok s u w ea r n h
  exact keeps_writesOf s l hb

theorem keeps_writeString {w : Word} {src : State} {r : Reg} {k a n : Nat}
    (h : s.writeString w src r k a n = .ok u) : Keeps i s u := by
  obtain ⟨l, rfl, hb⟩ := writeString_ok s u w src r k a n h
  exact keeps_writesOf s l hb

theorem keeps_loadWords {w ea : Word} {r : Reg} {n : Nat} (h : s.loadWords w ea r n = .ok u) : Keeps i s u := by
  obtain ⟨g, rfl⟩ := loadWords_ok_frame s u w ea r n h
  exact OnlyRegisters.keeps ⟨rfl, rfl, rfl, rfl, rfl, rfl, rfl⟩

/-- The word that `stfs` draws changes the count of free values alone. -/
theorem keeps_stfsDrawn (s : State) (d : Double) : Keeps i s (s.stfsDrawn d) := by
  unfold State.stfsDrawn
  split
  · exact Keeps.refl i s
  · exact OnlyRegisters.keeps ⟨rfl, rfl, rfl, rfl, rfl, rfl, rfl⟩

/-- `frsp` alone writes FPSCR bits, and no control among them (R29, R212). -/
theorem keeps_applyFp {frD frB : Reg} {rc : Bool} {o : FpOutcome} (h : s.applyFp frD rc o = .ok u) :
    Keeps (.frsp frD frB rc) s u := by
  obtain ⟨d, f, c, rfl, -, hve, hoe, hue, hze, hxe, hni, hrn, hreserved⟩ := applyFp_eq_ok s u frD rc o h
  exact ⟨by simp, by simp, by simp, by simp [SameFpscrControls, *], .inr ⟨frD, frB, rc, rfl⟩,
    fun ⟨wmem, wstored, wspr⟩ => ⟨by simpa using wmem, by simpa using wstored, by simpa using wspr⟩⟩

end

/-! ### How every instruction ends -/

/-- In `s`, instruction `i` is a branch that is taken, by this displacement (R151, R152). -/
inductive TakesBranch (s : State) : Instr → Word → Prop where
  | b (li : BitVec 24) : TakesBranch s (.b li) (branchDispI li)
  | beq (crf : BitVec 3) (bd : BitVec 14) (h : crEq s.cr crf = true) : TakesBranch s (.beq crf bd) (branchDispB bd)

/-- The four ends of an instruction: its operation and then the next address, a taken branch, an exception in the state
before it, a refusal. -/
inductive Ends (i : Instr) (s : State) : Host.Outcome State Fault Refusal → Prop where
  | advance (u : State) (h : Keeps i s u) : Ends i s u.advance
  | branch (disp : Word) (h : TakesBranch s i disp) : Ends i s (.next (s.branchRelative disp))
  | raise (w : Word) (e : Exc) : Ends i s (s.raise w e)
  | refused (r : Refusal) : Ends i s (.refused r)

section
variable {i : Instr} {s : State}

theorem OnlyRegisters.ends {u : State} (h : OnlyRegisters s u) : Ends i s u.advance := .advance u h.keeps

theorem ends_finish (w : Word) (x : Access State) (h : ∀ u, x = .ok u → Keeps i s u) : Ends i s (s.finish w x) := by
  cases x with
  | ok u => exact .advance u (h u rfl)
  | raise e => exact .raise w e
  | refuse r => exact .refused r

theorem ends_finishMultiple (w ea : Word) (first rA : Reg) (x : Access State) (h : ∀ u, x = .ok u → Keeps i s u) :
    Ends i s (s.finishMultiple w ea first rA x) := by
  unfold State.finishMultiple
  split
  · exact .raise w _
  split
  · exact .refused _
  split
  · exact .raise w _
  split
  · exact .refused _
  · exact ends_finish w x h

end

/-! The instructions whose meaning has checks of its own: the cases are those checks, in their order. -/

theorem ends_beq (crf : BitVec 3) (bd : BitVec 14) (s : State) : Ends (.beq crf bd) s (execBeq crf bd s) := by
  unfold execBeq
  split
  next h => exact .branch _ (.beq crf bd h)
  · exact .advance s (Keeps.refl _ s)

theorem ends_lwzux (rD rA rB : Reg) (s : State) : Ends (.lwzux rD rA rB) s (execLwzux rD rA rB s) := by
  unfold execLwzux
  dsimp only
  split
  · exact .refused _
  cases h : s.loadGpr (encode (.lwzux rD rA rB)) (s.eaUpdateIndexed rA rB) 4 .zero rD with
  | ok u =>
    obtain ⟨v, -, rfl⟩ := (loadGpr_eq_ok s u _ _ _ _ _).mp h
    exact OnlyRegisters.ends ⟨rfl, rfl, rfl, rfl, rfl, rfl, rfl⟩
  | raise e => exact .raise _ e
  | refuse r => exact .refused r

theorem ends_add (rD rA rB : Reg) (rc : Bool) (s : State) : Ends (.add rD rA rB rc) s (execAdd rD rA rB rc s) := by
  cases rc <;> exact OnlyRegisters.ends ⟨rfl, rfl, rfl, rfl, rfl, rfl, rfl⟩

theorem ends_lscbx (rD rA rB : Reg) (rc : Bool) (s : State) :
    Ends (.lscbx rD rA rB rc) s (execLscbx rD rA rB rc s) := by
  unfold execLscbx
  dsimp only
  split
  · exact .raise _ _
  split
  · exact .refused _
  split
  · exact OnlyRegisters.ends (by simp [OnlyRegisters])
  split
  · exact .refused _
  split
  · exact OnlyRegisters.ends (by simp [OnlyRegisters])
  · exact .raise _ _
  · exact .refused _

theorem ends_mtspr (spr : BitVec 10) (rS : Reg) (s : State) : Ends (.mtspr spr rS) s (execMtspr spr rS s) := by
  unfold execMtspr
  dsimp only
  split
  · exact .raise _ _
  · exact .advance _ (keeps_writeSpr s spr _)

theorem ends_lswx (rD rA rB : Reg) (s : State) : Ends (.lswx rD rA rB) s (execLswx rD rA rB s) := by
  unfold execLswx
  dsimp only
  split
  · exact .raise _ _
  split
  · exact OnlyRegisters.ends (by simp [OnlyRegisters])
  split
  · exact .refused _
  split
  · exact OnlyRegisters.ends (by simp [OnlyRegisters])
  · exact .raise _ _
  · exact .refused _

theorem ends_lswi (rD rA : Reg) (nb : BitVec 5) (s : State) : Ends (.lswi rD rA nb) s (execLswi rD rA nb s) := by
  unfold execLswi
  dsimp only
  split
  · exact .raise _ _
  split
  · exact .refused _
  split
  · exact OnlyRegisters.ends (by simp [OnlyRegisters])
  · exact .raise _ _
  · exact .refused _

theorem ends_stswx (rS rA rB : Reg) (s : State) : Ends (.stswx rS rA rB) s (execStswx rS rA rB s) := by
  unfold execStswx
  dsimp only
  split
  · exact .raise _ _
  · exact ends_finish _ _ fun u hu => keeps_writeString hu

theorem ends_stswi (rS rA : Reg) (nb : BitVec 5) (s : State) : Ends (.stswi rS rA nb) s (execStswi rS rA nb s) := by
  unfold execStswi
  dsimp only
  split
  · exact .raise _ _
  · exact ends_finish _ _ fun u hu => keeps_writeString hu

theorem ends_lfs (frD rA : Reg) (d : BitVec 16) (s : State) : Ends (.lfs frD rA d) s (execLfs frD rA d s) := by
  unfold execLfs
  dsimp only
  split
  · exact OnlyRegisters.ends ⟨rfl, rfl, rfl, rfl, rfl, rfl, rfl⟩
  · exact .raise _ _
  · exact .refused _

theorem ends_stfs (frS rA : Reg) (d : BitVec 16) (s : State) : Ends (.stfs frS rA d) s (execStfs frS rA d s) := by
  unfold execStfs
  dsimp only
  split
  next u hu => exact .advance _ ((keeps_memWrite hu).trans (keeps_stfsDrawn u _))
  · exact .raise _ _
  · exact .refused _

/-- Every instruction, in every state, has one of the four ends. -/
theorem exec_ends (i : Instr) (s : State) : Ends i s (exec i s) := by
  cases i with
  | cmplwi => exact OnlyRegisters.ends ⟨rfl, rfl, rfl, rfl, rfl, rfl, rfl⟩
  | subi => exact OnlyRegisters.ends ⟨rfl, rfl, rfl, rfl, rfl, rfl, rfl⟩
  | beq crf bd => exact ends_beq crf bd s
  | b li => exact .branch _ (.b li)
  | lwzux rD rA rB => exact ends_lwzux rD rA rB s
  | add rD rA rB rc => exact ends_add rD rA rB rc s
  | lscbx rD rA rB rc => exact ends_lscbx rD rA rB rc s
  | mtspr spr rS => exact ends_mtspr spr rS s
  | lswx rD rA rB => exact ends_lswx rD rA rB s
  | lswi rD rA nb => exact ends_lswi rD rA nb s
  | stswx rS rA rB => exact ends_stswx rS rA rB s
  | stswi rS rA nb => exact ends_stswi rS rA nb s
  | stw rS rA d => exact ends_finish _ _ fun u hu => keeps_memWrite hu
  | lmw rD rA d => exact ends_finishMultiple _ _ _ _ _ fun u hu => keeps_loadWords hu
  | stmw rS rA d => exact ends_finishMultiple _ _ _ _ _ fun u hu => keeps_storeWords hu
  | lfs frD rA d => exact ends_lfs frD rA d s
  | stfs frS rA d => exact ends_stfs frS rA d s
  | frsp frD frB rc => exact ends_finish _ _ fun u hu => keeps_applyFp hu

/-- How an instruction comes to a next state. -/
theorem exec_eq_next_cases {i : Instr} {s t : State} (h : exec i s = .next t) :
    (∃ u, Keeps i s u ∧ u.pc ≠ 0xFFFFFFFC ∧ t = u.withPc (u.pc + 4)) ∨
    (∃ disp, TakesBranch s i disp ∧ t = s.branchRelative disp) ∨ EntersException s t := by
  have hends := exec_ends i s
  rw [h] at hends
  generalize ho : (Host.Outcome.next t : Host.Outcome State Fault Refusal) = o at hends
  cases hends with
  | advance u hkeeps =>
    obtain ⟨hlast, ht⟩ := (advance_eq_next u t).mp ho.symm
    exact .inl ⟨u, hkeeps, hlast, ht⟩
  | branch disp hbranch =>
    cases ho
    exact .inr (.inl ⟨disp, hbranch, rfl⟩)
  | raise w e => exact .inr (.inr ⟨w, e, (raise_eq_next s t w e).mp ho.symm⟩)
  | refused r => cases ho

/-- An instruction faults only where the launch says that its exception ends the run (R12). -/
theorem exec_eq_fault {i : Instr} {s : State} {f : Fault} (h : exec i s = .fault f) :
    ∃ w e, f = .raised w e ∧ s.platform.stopsAt e = true := by
  have hends := exec_ends i s
  rw [h] at hends
  generalize ho : (Host.Outcome.fault f : Host.Outcome State Fault Refusal) = o at hends
  cases hends with
  | advance u _ =>
    unfold State.advance at ho
    split at ho <;> cases ho
  | branch disp _ => cases ho
  | raise w e =>
    obtain ⟨hstops, hf⟩ := (raise_eq_fault s w e f).mp ho.symm
    exact ⟨w, e, hf, hstops⟩
  | refused r => cases ho

/-! ### The step -/

/-- A step that answers a next state is one instruction that does. -/
theorem step_eq_next {s t : State} (h : step s = .next t) :
    aligned s.pc 4 = true ∧ ∃ i, exec i s = .next t := by
  unfold step at h
  split at h
  · cases h
  · cases h
  next w hfetch =>
    obtain ⟨haligned, -⟩ := (fetch_eq_word s w).mp hfetch
    split at h
    next i _ => exact ⟨haligned, i, h⟩
    · cases h

/-- The fetch faults at an address that is not a multiple of four only (R24, R56). -/
theorem fetch_eq_fault {s : State} {f : Fault} (h : s.fetch = .fault f) :
    aligned s.pc 4 = false ∧ f = .unalignedPc s.pc := by
  unfold State.fetch at h
  dsimp only at h
  split at h
  next halign =>
    cases h
    exact ⟨by simpa using halign, rfl⟩
  · split at h
    · cases h
    · split at h <;> cases h

/-- A step that faults is a fetch or an instruction that does. -/
theorem step_eq_fault {s : State} {f : Fault} (h : step s = .fault f) :
    s.fetch = .fault f ∨ ∃ i, exec i s = .fault f := by
  unfold step at h
  split at h
  next g hfetch =>
    cases h
    exact .inl hfetch
  · cases h
  · split at h
    next i _ => exact .inr ⟨i, h⟩
    · cases h

/-- An exception entry is at one of the three vectors (R289). -/
theorem entersException_atVector {s t : State} (h : EntersException s t) : AtVector s t := by
  obtain ⟨w, e, -, rfl⟩ := h
  exact ⟨s.platform.traps.offset e, by cases e <;> simp [TrapTable.offset], takeException_pc s w e⟩

end Sys2Proof.Machine
end

section
/-! PROOFS. The statements about the state that every step keeps (spec/10_state.md), from what one step can do; then the
operands, the branches with link, and three instructions in full. -/

namespace Sys2Proof.Machine

/-! ### What every step keeps -/

/-- The instruction address after a taken branch is a multiple of four (R24, R151, R152). -/
theorem TakesBranch.aligned_disp {i : Instr} {s : State} {disp : Word} (h : TakesBranch s i disp) :
    aligned disp 4 = true := by
  cases h with
  | b li => exact aligned_of_toInt _ _ (toInt_branchDispI li)
  | beq crf bd => exact aligned_of_toInt _ _ (toInt_branchDispB bd)

theorem exec_keeps_wf {i : Instr} {s t : State} (hwf : s.wf = true) (h : exec i s = .next t) : t.wf = true := by
  obtain ⟨hpc, hdata⟩ := (wf_iff s).mp hwf
  obtain ⟨u, hkeeps, -, rfl⟩ | ⟨disp, hbranch, rfl⟩ | ⟨w, e, -, rfl⟩ := exec_eq_next_cases h
  · obtain ⟨hmem, hstored, hspr⟩ := hkeeps.dataWf hdata
    exact (wf_iff _).mpr ⟨aligned_add _ 4 (hkeeps.pc ▸ hpc) (by decide), hmem, hstored, hspr⟩
  · obtain ⟨hmem, hstored, hspr⟩ := hdata
    exact (wf_iff _).mpr ⟨aligned_add _ _ hpc hbranch.aligned_disp, hmem, hstored, hspr⟩
  · exact (wf_iff _).mpr ⟨takeException_pc_aligned s w e, takeException_dataWf s w e hdata⟩

/-- Settles O9: each end of an instruction keeps the invariant. -/
theorem stepKeepsInvariant : Obligations.StepKeepsInvariant := by
  intro s t hwf h
  obtain ⟨-, i, hexec⟩ := step_eq_next h
  exact exec_keeps_wf hwf hexec

/-- Only the third end of an instruction changes the MSR. -/
theorem entersException_of_msr_ne {i : Instr} {s t : State} (h : exec i s = .next t) (hne : t.msr ≠ s.msr) :
    EntersException s t := by
  obtain ⟨u, hkeeps, -, rfl⟩ | ⟨disp, -, rfl⟩ | hentry := exec_eq_next_cases h
  · exact absurd hkeeps.msr hne
  · exact absurd rfl hne
  · exact hentry

/-- Settles O15: the step is an exception entry, whose rules O26's proof gives. -/
theorem msrChangesOnlyByExceptionEntry : Obligations.MsrChangesOnlyByExceptionEntry := by
  intro s t hwf h hne
  obtain ⟨-, i, hexec⟩ := step_eq_next h
  have hentry := entersException_of_msr_ne hexec hne
  have hvector := entersException_atVector hentry
  have hspr := ((wf_iff s).mp hwf).2.otherSpr.wf
  have ⟨w, e, _, ht⟩ := hentry
  subst ht
  refine ⟨readSpr_takeException_saveMsr s w e hspr, readSpr_takeException_saveAddress s w e hspr, ?ile,
    takeException_msr s w e, hentry, hvector, fun n hsaved h18 h19 => ?other,
    readGpr_eq_of_gpr (takeException_gpr s w e), readFpr_eq_of_fpr (takeException_fpr s w e), takeException_cr s w e,
    takeException_fpscr s w e, physRead_congr (takeException_mem s w e), takeException_stored s w e⟩
  case ile => simp [manualBit_msrAtEntry]
  case other =>
    rw [readSpr_takeException_other s w e n hsaved, readSpr_recordAlignment_other s w e n (.inl ⟨h18, h19⟩)]

/-- Settles O14: one target for each end of an instruction. -/
theorem nextInstructionAddress : Obligations.NextInstructionAddress := by
  intro i s t h
  obtain ⟨u, hkeeps, hlast, rfl⟩ | ⟨disp, hbranch, rfl⟩ | hentry := exec_eq_next_cases h
  · refine .inl ⟨hkeeps.pc ▸ hlast, ?_⟩
    rw [withPc_pc, hkeeps.pc]
  · cases hbranch with
    | b li => exact .inr (.inl ⟨li, rfl, by rw [← branchDispI_eq_ofInt]; rfl⟩)
    | beq crf bd hcr =>
      exact .inr (.inr (.inl ⟨crf, bd, rfl, crEq_eq_manualBit s.cr crf ▸ hcr, by rw [← branchDispB_eq_ofInt]; rfl⟩))
  · exact .inr (.inr (.inr ⟨hentry, entersException_atVector hentry⟩))

/-- An instruction keeps the FPSCR's controls and the launch parameters, and, but for `frsp`, the whole FPSCR. -/
theorem exec_keeps_fpscr {i : Instr} {s t : State} (h : exec i s = .next t) :
    SameFpscrControls s t ∧ t.platform = s.platform ∧ (t.fpscr = s.fpscr ∨ ∃ frD frB rc, i = .frsp frD frB rc) := by
  obtain ⟨u, hkeeps, -, rfl⟩ | ⟨disp, -, rfl⟩ | ⟨w, e, -, rfl⟩ := exec_eq_next_cases h
  · exact ⟨hkeeps.controls, hkeeps.platform, hkeeps.fpscr⟩
  · exact ⟨sameFpscrControls_of_eq rfl, rfl, .inl rfl⟩
  · have hfpscr := takeException_fpscr s w e
    exact ⟨sameFpscrControls_of_eq hfpscr, takeException_platform s w e, .inl hfpscr⟩

/-- Settles O17: every instruction keeps the controls, and only `frsp` writes the FPSCR. -/
theorem stepKeepsControls : Obligations.StepKeepsControls := by
  refine ⟨fun s t h => ?_, fun i s t h => ?_⟩
  · obtain ⟨-, i, hexec⟩ := step_eq_next h
    obtain ⟨hcontrols, hplatform, -⟩ := exec_keeps_fpscr hexec
    exact ⟨hcontrols, hplatform⟩
  · obtain ⟨-, -, hfpscr⟩ := exec_keeps_fpscr h
    exact hfpscr

/-- Settles O18: the fetch faults at an unaligned address only, an instruction only where its exception ends the run. -/
theorem faultsOnlyAtUnalignedPcOrEndingException : Obligations.FaultsOnlyAtUnalignedPcOrEndingException := by
  intro s f h
  obtain hfetch | ⟨i, hexec⟩ := step_eq_fault h
  · obtain ⟨hunaligned, rfl⟩ := fetch_eq_fault hfetch
    exact .inl ⟨by simpa [aligned] using hunaligned, rfl⟩
  · exact .inr (exec_eq_fault hexec)

/-- Settles O8: nothing is listed after reset, and the reset vector is a multiple of four. -/
theorem resetInvariant : Obligations.ResetInvariant := by
  have hdata : State.reset.DataWf :=
    ⟨⟨reset_memory_wf, by simp [State.reset]⟩, ⟨rfl, by simp [State.reset]⟩, ⟨rfl, by simp [State.reset]⟩⟩
  exact (wf_iff _).mpr ⟨by decide, hdata⟩

/-! ### Operands -/

/-- Settles O5: signed fields are compared by their integer values, and the byte count field is 0 exactly if its
number is. -/
theorem operandAssembly : Obligations.OperandAssembly := by
  refine ⟨fun s rA d => ?disp, fun s rA rB => rfl, fun d => ⟨?signed, ?unsigned⟩, toInt_branchDispI,
    toInt_branchDispB, fun nb => ?count⟩
  case disp => rw [State.eaDisp, signedImm_eq_ofInt]; rfl
  case signed => exact BitVec.toInt_signExtend_of_le (by omega)
  case unsigned => exact BitVec.toNat_setWidth_of_le (by omega)
  case count =>
    have hzero : nb = 0 ↔ nb.toNat = 0 := ⟨fun h => h ▸ rfl, fun h => BitVec.eq_of_toNat_eq h⟩
    simp only [stringCount, hzero]

/-! ### Branches with link -/

/-- How a branch of these classes ends, from a state that differs from `s` in the count register alone. -/
theorem goesTo_endBranch (s u : State) (link taken : Bool) (P : Prop) (target : Word)
    (hu : u = { s with ctr := u.ctr }) (hP : taken = true ↔ P) :
    GoesTo s link u.ctr P target (u.endBranch link taken target) := by
  have hpc : u.pc = s.pc := by rw [hu]
  have hlr : u.lr = s.lr := by rw [hu]
  constructor
  · intro h
    refine ⟨_, (endBranch_eq_next u _ link taken target).mpr ⟨by rwa [hpc, hP], rfl⟩, ?_⟩
    rw [← hP]
    cases link <;> cases taken <;> simp [hpc, hlr] <;> rw [hu] <;> rfl
  · rintro ⟨hlast, h⟩
    have hrefused : (decide (u.pc = 0xFFFFFFFC) && (link || !taken)) = true := by
      rw [Bool.and_eq_true, decide_eq_true_iff, Bool.or_eq_true, Bool.not_eq_true', ← Bool.not_eq_true, hP, hpc]
      exact ⟨hlast, h⟩
    rw [State.endBranch, if_pos hrefused, hpc]

theorem branchConditionHolds_iff (bo bi : BitVec 5) (cr : Word) :
    branchConditionHolds bo bi cr = true ↔ ConditionMet bo bi cr := by
  simp [branchConditionHolds, ConditionMet]

theorem branchTaken_iff (bo bi : BitVec 5) (cr ctr : Word) :
    (branchConditionHolds bo bi cr && branchCountHolds bo ctr) = true ↔ BranchTaken bo bi cr ctr := by
  have hcount : branchCountHolds bo ctr = true ↔ (bo.getLsbD 2 = true ∨ (ctr = 0 ↔ bo.getLsbD 1 = true)) := by
    refine Bool.or_eq_true_iff.trans (or_congr_right ?_)
    rw [beq_iff_eq, Bool.eq_iff_iff, beq_iff_eq]
  rw [Bool.and_eq_true, branchConditionHolds_iff, hcount, BranchTaken]

/-- A branch that counts down and tests both conditions, whatever its target (R152, R153). -/
theorem goesTo_conditional (s : State) (link : Bool) (bo bi : BitVec 5) (target : Word) :
    GoesTo s link (s.countDown bo).ctr (BranchTaken bo bi s.cr (s.countDown bo).ctr) target
      ((s.countDown bo).endBranch link
        (branchConditionHolds bo bi s.cr && branchCountHolds bo (s.countDown bo).ctr) target) := by
  refine goesTo_endBranch s _ link _ _ target ?_ (branchTaken_iff bo bi s.cr _)
  unfold State.countDown
  split <;> rfl

/-- Settles O36: every class ends as `goesTo_endBranch` says. -/
theorem branchAndLink : Obligations.BranchAndLink := by
  intro s x
  refine ⟨goesTo_endBranch s s true true True _ rfl (by simp), goesTo_endBranch s s true true True _ rfl (by simp),
    fun link bo bi => ⟨(s.countDown bo).ctr, countDown_ctr s bo, goesTo_conditional s link bo bi _,
      goesTo_conditional s link bo bi _, goesTo_conditional s link bo bi _,
      goesTo_endBranch s s link _ _ _ rfl (branchConditionHolds_iff bo bi s.cr)⟩⟩

/-! ### Fixed-point instructions -/

/-- Away from the last address an instruction that is no taken branch goes on to the next one (R24). -/
theorem advance_eq (s : State) (h : s.pc ≠ 0xFFFFFFFC) : s.advance = .next (s.withPc (s.pc + 4)) :=
  (advance_eq_next s _).mpr ⟨h, rfl⟩

/-- The field an unsigned comparison sets, in terms of the numbers compared (R158). -/
theorem compareUnsigned_eq (a b : Word) (so : Bool) :
    compareUnsigned a b so =
      crBits (decide (a.toNat < b.toNat)) (decide (b.toNat < a.toNat)) (decide (a.toNat = b.toNat)) so := by
  have heq : (a == b) = decide (a.toNat = b.toNat) := by
    rw [Bool.eq_iff_iff, beq_iff_eq, decide_eq_true_iff, BitVec.toNat_inj]
  rw [compareUnsigned, heq]
  rfl

/-- The field of the record bit, in terms of the signed number (R159). -/
theorem compareSignedZero_eq (r : Word) (so : Bool) :
    compareSignedZero r so =
      crBits (decide (r.toInt < 0)) (decide (0 < r.toInt)) (decide (r.toInt = 0)) so := by
  have heq : (r == 0) = decide (r.toInt = 0) := by
    rw [Bool.eq_iff_iff, beq_iff_eq, decide_eq_true_iff, ← BitVec.toInt_inj]
    rfl
  rw [compareSignedZero, heq]
  rfl

/-- Settles O31: only the condition register and the instruction address are written. -/
theorem cmplwiCompletes : Obligations.CmplwiCompletes := by
  intro crfD rA uimm s hpc
  have himm : (unsignedImm uimm).toNat = uimm.toNat := BitVec.toNat_setWidth_of_le (by omega)
  refine ⟨_, advance_eq _ hpc, ?field, sameCrBut_crSetField s _ crfD _ rfl, fun _ _ => rfl, fun _ _ => rfl, rfl, rfl,
    rfl, by simp [SameSystem], by simp [SameMemory]⟩
  case field =>
    refine crFieldIs_crSetField s _ crfD _ _ _ _ ?_
    rw [← himm, withPc_cr, ← compareUnsigned_eq]
    rfl

/-- Settles O33: with and without the record bit, the sum is in rD and the rest of the state is unchanged. -/
theorem addCompletes : Obligations.AddCompletes := by
  intro rD rA rB rc s hpc
  have hsum := readGpr_writeGpr_same s rD (s.readGpr rA + s.readGpr rB)
  have hothers : SameGprs (· ≠ rD) s (s.writeGpr rD (s.readGpr rA + s.readGpr rB)) := fun r hr => by
    rw [readGpr_writeGpr, if_neg (Ne.symm hr)]
  cases rc with
  | false =>
    exact ⟨_, advance_eq _ hpc, by simp, hothers, fun _ => rfl, nofun, fun _ _ => rfl, rfl, rfl, rfl,
      by simp [SameSystem], by simp [SameMemory]⟩
  | true =>
    refine ⟨_, advance_eq _ hpc, by simp, hothers, nofun,
      fun _ => ⟨?field, sameCrBut_crSetField s _ 0 _ rfl⟩, fun _ _ => rfl, rfl, rfl, rfl,
      by simp [SameSystem], by simp [SameMemory]⟩
    case field =>
      refine crFieldIs_crSetField s _ 0 _ _ _ _ ?_
      rw [← compareSignedZero_eq]
      exact congrArg (fun r => crSetField s.cr 0 (compareSignedZero r (xerSo s.xer))) hsum.symm

/-! ### `mtspr` -/

theorem userLevel_eq (s : State) : s.userLevel = (s.platform.privilegeLevels && manualBit s.msr 17) := rfl

/-- SRR0 and SRR1 are the special-purpose registers 26 and 27 (R28). -/
theorem srr0_eq_readSpr (s : State) : s.srr0 = s.readSpr 26 := rfl
theorem srr1_eq_readSpr (s : State) : s.srr1 = s.readSpr 27 := rfl

/-- Settles O47: the privilege check decides between the write of the register and the exception. -/
theorem mtsprWritesOrTraps : Obligations.MtsprWritesOrTraps := by
  intro n rS s hwf
  have hspr := ((wf_iff s).mp hwf).2.otherSpr.wf
  refine ⟨fun hallowed hpc => ?writes, fun hlevels huser hsuper => ?traps⟩
  case writes =>
    have hexec : exec (.mtspr n rS) s = (s.writeSpr n (s.readGpr rS)).advance := by
      refine if_neg ?_
      rw [userLevel_eq]
      rcases hallowed with h | h | h <;> simp [h]
    have hsame := readSpr_writeSpr_same s n (s.readGpr rS) hspr
    refine ⟨_, hexec.trans (advance_eq _ (by simpa using hpc)), hsame,
      fun m hm => readSpr_writeSpr_other s n m _ hm, fun h => (srr0_eq_readSpr _).trans (h ▸ hsame),
      fun h => (srr1_eq_readSpr _).trans (h ▸ hsame),
      readGpr_eq_of_gpr (writeSpr_gpr s n _), readFpr_eq_of_fpr (writeSpr_fpr s n _), by simp, by simp, by simp,
      by simp, by simp, physRead_congr (writeSpr_mem s n _), writeSpr_stored s n _⟩
  case traps =>
    refine if_pos ?_
    rw [userLevel_eq, hlevels, huser, hsuper]
    rfl

end Sys2Proof.Machine
end

section
/-! PROOFS. Data accesses (spec/20_memory.md R57 to R68, R83): the rules of the little-endian address modification, of
when an access goes through, and of the bytes a load reads and a store writes, with the statements they settle. -/

namespace Sys2Proof.Machine

/-! ### The little-endian address modification (R60) -/

theorem size_pos {n : Nat} (hn : n ∈ [1, 2, 4, 8]) : 0 < n := by fin_cases hn <;> decide

/-- The modification stays in the double word of the address. -/
theorem munge_div_eight (ea : Word) {n : Nat} (hn : n ∈ [1, 2, 4, 8]) : (munge ea n).toNat / 8 = ea.toNat / 8 := by
  have hsmall : (8 - n) % 2 ^ 32 / 2 ^ 3 = 0 := by fin_cases hn <;> rfl
  rw [munge, BitVec.toNat_xor, BitVec.toNat_ofNat]
  exact (Nat.xor_div_two_pow (n := 3)).trans (by rw [hsmall, Nat.xor_zero])

/-- Inside the double word the modification turns the offset over, for an offset that is a multiple of the size. -/
theorem munge_mod_eight (ea : Word) {n : Nat} (hn : n ∈ [1, 2, 4, 8]) (ha : ea.toNat % n = 0) :
    (munge ea n).toNat % 8 + n + ea.toNat % 8 = 8 := by
  have hturn : ∀ m ∈ [1, 2, 4, 8], ∀ r < 8, r % m = 0 → (r ^^^ (8 - m) % 2 ^ 32 % 8) + m + r = 8 := by decide
  have hoffset : ea.toNat % 8 % n = 0 := by
    have hdvd : n ∣ 8 := by fin_cases hn <;> decide
    rwa [Nat.mod_mod_of_dvd _ hdvd]
  have hxor : (munge ea n).toNat % 8 = ea.toNat % 8 ^^^ (8 - n) % 2 ^ 32 % 8 := by
    rw [munge, BitVec.toNat_xor, BitVec.toNat_ofNat]
    exact Nat.xor_mod_two_pow (n := 3)
  rw [hxor]
  exact hturn n hn _ (Nat.mod_lt _ (by decide)) hoffset

/-- The modified address of an aligned access, as a number. -/
theorem toNat_munge (ea : Word) {n : Nat} (hn : n ∈ [1, 2, 4, 8]) (ha : ea.toNat % n = 0) :
    (munge ea n).toNat + n + ea.toNat % 8 = 8 * (ea.toNat / 8) + 8 := by
  have hdiv := munge_div_eight ea hn
  have hmod := munge_mod_eight ea hn ha
  omega

/-- The modification undoes itself. -/
theorem munge_munge (ea : Word) (n : Nat) : munge (munge ea n) n = ea := by simp [munge]

/-- The modified address of an aligned access is aligned. -/
theorem munge_mod (ea : Word) {n : Nat} (hn : n ∈ [1, 2, 4, 8]) (ha : ea.toNat % n = 0) :
    (munge ea n).toNat % n = 0 := by
  have h := toNat_munge ea hn ha
  fin_cases hn <;> omega

theorem physicalAddress_littleEndian (s : State) (ea : Word) (n : Nat) (h : manualBit s.msr 31 = true) :
    s.physicalAddress ea n = munge ea n := if_pos h

theorem physicalAddress_bigEndian (s : State) (ea : Word) (n : Nat) (h : manualBit s.msr 31 = false) :
    s.physicalAddress ea n = ea := if_neg (by simp [littleEndian_eq, h])

/-- Settles O19: the clauses on the double word are the rules above. -/
theorem littleEndianAddressModification : Obligations.LittleEndianAddressModification := by
  refine ⟨fun ea => ⟨BitVec.xor_zero, rfl, rfl, rfl⟩, fun _ _ _ => rfl, fun s w ea a n h => ?address,
    fun ea n hn => ⟨munge_div_eight ea hn, fun ha => ?inside⟩⟩
  case address =>
    obtain ⟨-, heq, -⟩ := (dataAddress_eq_ok s w ea a n).mp h
    exact heq
  case inside =>
    have h := toNat_munge ea hn ha
    have hpos := size_pos hn
    omega

/-! ### When an access goes through (R63, R65, R66) -/

theorem accessRaises_eq_true (s : State) (w ea : Word) (n : Nat) :
    s.accessRaises w ea n = true ↔
      ea.toNat % n ≠ 0 ∧ (manualBit s.msr 31 = true ∨ Config.beMisaligned w ea n = false) := by
  simp [State.accessRaises, aligned, littleEndian_eq]

theorem accessRaises_eq_false (s : State) (w ea : Word) (n : Nat) :
    s.accessRaises w ea n = false ↔
      ea.toNat % n = 0 ∨ (manualBit s.msr 31 = false ∧ Config.beMisaligned w ea n = true) := by
  rw [← Bool.not_eq_true, accessRaises_eq_true]
  cases manualBit s.msr 31 <;> cases Config.beMisaligned w ea n <;> simp

theorem accessRaises_of_aligned (s : State) (w ea : Word) (n : Nat) (ha : ea.toNat % n = 0) :
    s.accessRaises w ea n = false := (accessRaises_eq_false s w ea n).mpr (.inl ha)

/-- In little-endian mode only aligned accesses go through (R63). -/
theorem aligned_of_accessRaises_littleEndian {s : State} {w ea : Word} {n : Nat} (hle : manualBit s.msr 31 = true)
    (h : s.accessRaises w ea n = false) : ea.toNat % n = 0 := by
  obtain ha | ⟨hbe, -⟩ := (accessRaises_eq_false s w ea n).mp h
  · exact ha
  · rw [hle] at hbe
    cases hbe

/-- An aligned access ends inside the address space (R91), in both byte orders. -/
theorem physicalAddress_add_le (s : State) (ea : Word) {n : Nat} (hn : n ∈ [1, 2, 4, 8]) (ha : ea.toNat % n = 0) :
    (s.physicalAddress ea n).toNat + n ≤ 2 ^ 32 := by
  have hlt := ea.isLt
  cases hmode : manualBit s.msr 31 with
  | true =>
    have h := toNat_munge ea hn ha
    rw [physicalAddress_littleEndian s ea n hmode]
    omega
  | false =>
    rw [physicalAddress_bigEndian s ea n hmode]
    fin_cases hn <;> omega

theorem accessible_eq_true (s : State) (w ea : Word) (n : Nat) :
    accessible s w ea n = true ↔ s.accessRaises w ea n = false ∧ (s.physicalAddress ea n).toNat + n ≤ 2 ^ 32 ∧
      s.platform.mappedRange (s.physicalAddress ea n).toNat n = true := by
  simp [accessible, and_assoc]

/-- An aligned access to plain memory goes through. -/
theorem accessible_of_aligned (s : State) (w ea : Word) {n : Nat} (hn : n ∈ [1, 2, 4, 8]) (ha : ea.toNat % n = 0)
    (hm : s.platform.mappedRange (s.physicalAddress ea n).toNat n = true) : accessible s w ea n = true :=
  (accessible_eq_true s w ea n).mpr ⟨accessRaises_of_aligned s w ea n ha, physicalAddress_add_le s ea hn ha, hm⟩

theorem dataAddress_past_end (s : State) (w ea : Word) (n : Nat) (hr : s.accessRaises w ea n = false)
    (hb : (s.physicalAddress ea n).toNat + n > 2 ^ 32) : s.dataAddress w ea n = .refuse (.operandPastEnd ea n) := by
  rw [State.dataAddress, hr, if_neg Bool.false_ne_true, if_pos hb]

theorem dataAddress_outside (s : State) (w ea : Word) (n : Nat) (hr : s.accessRaises w ea n = false)
    (hb : (s.physicalAddress ea n).toNat + n ≤ 2 ^ 32)
    (hm : s.platform.mappedRange (s.physicalAddress ea n).toNat n = false) :
    s.dataAddress w ea n = .refuse (.outsideMemRegion (s.physicalAddress ea n)) := by
  rw [State.dataAddress, hr, if_neg Bool.false_ne_true, if_neg (Nat.not_lt.mpr hb), hm, if_neg Bool.false_ne_true]

theorem memRead_eq_refuse (s : State) (w ea : Word) (n : Nat) (r : Refusal) :
    s.memRead w ea n = .refuse r ↔ s.dataAddress w ea n = .refuse r := by
  unfold State.memRead
  cases s.dataAddress w ea n <;> simp

theorem memWrite_eq_refuse {m : Nat} (s : State) (w ea : Word) (n : Nat) (v : BitVec m) (r : Refusal) :
    s.memWrite w ea n v = .refuse r ↔ s.dataAddress w ea n = .refuse r := by
  unfold State.memWrite
  cases s.dataAddress w ea n <;> simp

/-- A misaligned access that raises, as a load (R63, R65). -/
theorem memRead_misaligned (s : State) (w ea : Word) (n : Nat) (ha : ea.toNat % n ≠ 0)
    (hmode : manualBit s.msr 31 = true ∨ Config.beMisaligned w ea n = false) :
    s.memRead w ea n = .raise (.alignment ea) :=
  (memRead_eq_raise s w ea n _).mpr
    ((dataAddress_eq_raise s w ea n _).mpr ⟨rfl, (accessRaises_eq_true s w ea n).mpr ⟨ha, hmode⟩⟩)

/-- A misaligned access that raises, as a store. -/
theorem memWrite_misaligned {m : Nat} (s : State) (w ea : Word) (n : Nat) (v : BitVec m) (ha : ea.toNat % n ≠ 0)
    (hmode : manualBit s.msr 31 = true ∨ Config.beMisaligned w ea n = false) :
    s.memWrite w ea n v = .raise (.alignment ea) :=
  (memWrite_eq_raise s w ea n v _).mpr
    ((dataAddress_eq_raise s w ea n _).mpr ⟨rfl, (accessRaises_eq_true s w ea n).mpr ⟨ha, hmode⟩⟩)

/-! ### Scalars and their bytes (R57, R66, R67) -/

/-- The digit of weight `256 ^ (length - 1 - i)` of a number read off bytes is byte `i`. -/
theorem bytesValue_digit (l : List Byte) (i : Nat) (h : i < l.length) :
    bytesValue l / 256 ^ (l.length - 1 - i) % 256 = l[i].toNat := by
  induction l generalizing i with
  | nil => simp at h
  | cons v rest ih =>
    cases i with
    | zero =>
      have hrest := Nat.div_eq_of_lt (bytesValue_lt rest)
      have hpos : 0 < 256 ^ rest.length := Nat.pow_pos (by decide)
      simp only [bytesValue, List.length_cons, Nat.add_sub_cancel, Nat.sub_zero, List.getElem_cons_zero]
      rw [Nat.add_comm, Nat.add_mul_div_right _ _ hpos, hrest, Nat.zero_add]
      exact Nat.mod_eq_of_lt v.isLt
    | succ i =>
      have hi : i < rest.length := by simpa using h
      have hpow : v.toNat * 256 ^ rest.length =
          256 * (v.toNat * 256 ^ i) * 256 ^ (rest.length - 1 - i) := by
        rw [show rest.length = 1 + i + (rest.length - 1 - i) by omega, pow_add, pow_add]
        rw [show 1 + i + (rest.length - 1 - i) - 1 - i = rest.length - 1 - i by omega]
        ring
      have hpos : 0 < 256 ^ (rest.length - 1 - i) := Nat.pow_pos (by decide)
      simp only [bytesValue, List.length_cons, List.getElem_cons_succ]
      rw [show rest.length + 1 - 1 - (i + 1) = rest.length - 1 - i by omega, hpow, Nat.add_comm,
        Nat.add_mul_div_right _ _ hpos, Nat.add_mul_mod_self_left]
      exact ih i hi

/-- Byte `i` of the value a load of `n` bytes reads is the byte at physical address `a + i`. -/
theorem extractLsb'_ofNat_physBytes (s : State) (a n i : Nat) (h : i < n) :
    (BitVec.ofNat (8 * n) (bytesValue (s.physBytes a n))).extractLsb' (8 * (n - 1 - i)) 8 = s.physRead (a + i) := by
  have hbyte := bytesValue_digit (s.physBytes a n) i (by simpa using h)
  have hlt := bytesValue_lt (s.physBytes a n)
  rw [physBytes_getElem, physBytes_length] at hbyte
  rw [physBytes_length] at hlt
  apply BitVec.eq_of_toNat_eq
  rw [BitVec.extractLsb'_toNat, BitVec.toNat_ofNat, Nat.shiftRight_eq_div_pow, Nat.pow_mul, Nat.pow_mul,
    Nat.mod_eq_of_lt hlt]
  exact hbyte

/-- A load that goes through reads the value whose bytes lie at the physical address. -/
theorem memRead_eq_of_bytes (s : State) (w ea : Word) (n : Nat) (v : BitVec (8 * n))
    (hacc : accessible s w ea n = true)
    (hbytes : ∀ i, i < n → s.physRead ((s.physicalAddress ea n).toNat + i) = v.extractLsb' (8 * (n - 1 - i)) 8) :
    s.memRead w ea n = .ok v := by
  have hlist : s.physBytes (s.physicalAddress ea n).toNat n = valueBytes n v := by
    refine List.ext_getElem (by simp) fun i hi _ => ?_
    rw [physBytes_getElem, valueBytes_getElem]
    exact hbytes i (by simpa using hi)
  refine (memRead_eq_ok s w ea n v).mpr ⟨_, (accessible_iff s w ea n).mp hacc, ?_⟩
  have hlt : v.toNat < 256 ^ n := (Nat.pow_mul 2 8 n).symm ▸ v.isLt
  rw [hlist, bytesValue_valueBytes, Nat.mod_eq_of_lt hlt, BitVec.ofNat_toNat, BitVec.setWidth_eq]

/-- Settles O20: the value is read off its bytes. -/
theorem loadCases : Obligations.LoadCases := by
  intro s w ea n _
  refine ⟨fun ha hmode => memRead_misaligned s w ea n ha hmode, fun hgo => ?_⟩
  have hr := (accessRaises_eq_false s w ea n).mpr hgo
  refine ⟨fun hb => (memRead_eq_refuse s w ea n _).mpr (dataAddress_past_end s w ea n hr hb),
    fun hb hm => (memRead_eq_refuse s w ea n _).mpr (dataAddress_outside s w ea n hr hb hm),
    fun hb hm => ⟨_, ?value, fun i hi => extractLsb'_ofNat_physBytes s _ n i hi⟩⟩
  case value => exact (memRead_eq_ok s w ea n _).mpr ⟨_, (dataAddress_eq_ok s w ea _ n).mpr ⟨hr, rfl, hb, hm⟩, rfl⟩

/-- What a store that goes through does: the bytes of the value at the physical address, nothing else in memory, and no
change of the MSR or the launch parameters (R67). -/
theorem memWrite_ok_bytes {k : Nat} {s t : State} {w ea : Word} {n : Nat} {v : BitVec k}
    (hw : Memory.wf s.mem = true) (h : s.memWrite w ea n v = .ok t) :
    accessible s w ea n = true ∧ t.msr = s.msr ∧ t.platform = s.platform ∧
    (∀ i, i < n → t.physRead ((s.physicalAddress ea n).toNat + i) = v.extractLsb' (8 * (n - 1 - i)) 8) ∧
    SameMemoryBut (s.physicalAddress ea n).toNat n s t := by
  obtain ⟨a, ha, rfl⟩ := (memWrite_eq_ok s t w ea n v).mp h
  obtain ⟨-, rfl, -⟩ := (dataAddress_eq_ok s w ea a n).mp ha
  refine ⟨(accessible_iff s w ea n).mpr ha, by simp, by simp, fun i hi => ?_, sameMemoryBut_physWriteBytes s _ n v⟩
  rw [physRead_physWriteBytes_same _ _ _ _ hw (by simpa using hi), valueBytes_getElem]

/-- Settles O21: a load and a store have the same address and so the same cases. -/
theorem storeLayout : Obligations.StoreLayout := by
  intro s w ea n k v _ hw
  refine ⟨fun e => (memRead_eq_raise s w ea n e).trans (memWrite_eq_raise s w ea n v e).symm,
    fun r => (memRead_eq_refuse s w ea n r).trans (memWrite_eq_refuse s w ea n v r).symm, fun u hread => ?_⟩
  obtain ⟨a, ha, -⟩ := (memRead_eq_ok s w ea n u).mp hread
  have hstore := (memWrite_eq_ok s _ w ea n v).mpr ⟨a, ha, rfl⟩
  obtain ⟨-, -, -, hbytes, hframe⟩ := memWrite_ok_bytes hw hstore
  exact ⟨_, hstore, hbytes, hframe⟩

/-! ### Loads of what a store wrote (R57, R62, R68, R83) -/

/-- A part of a part of a value is a part of it. -/
theorem extractLsb'_part {k : Nat} (v : BitVec k) (lo len lo' len' : Nat) (h : lo' + len' ≤ len) :
    (v.extractLsb' lo len).extractLsb' lo' len' = v.extractLsb' (lo + lo') len' := by
  apply BitVec.eq_of_getLsbD_eq
  intro i hi
  simp [hi, show lo' + i < len by omega, Nat.add_assoc]

/-- After a store of `n` bytes, in any state with the memory it leaves, a load of `m` bytes whose physical address lies
`j` bytes above the store's reads the part that lies `j` bytes below the most significant end. -/
theorem memRead_part {s t u : State} {w w' ea ea' : Word} {n m : Nat} {v : BitVec (8 * n)} (j : Nat)
    (hw : Memory.wf s.mem = true) (hstore : s.memWrite w ea n v = .ok t) (hmem : u.mem = t.mem)
    (hplatform : u.platform = t.platform) (hr : u.accessRaises w' ea' m = false)
    (haddr : (u.physicalAddress ea' m).toNat = (s.physicalAddress ea n).toNat + j) (hj : j + m ≤ n) :
    u.memRead w' ea' m = .ok (v.extractLsb' (8 * (n - m - j)) (8 * m)) := by
  obtain ⟨hacc, -, hplatform', hbytes, -⟩ := memWrite_ok_bytes hw hstore
  obtain ⟨-, hend, hmapped⟩ := (accessible_eq_true s w ea n).mp hacc
  refine memRead_eq_of_bytes u w' ea' m _ ((accessible_eq_true u w' ea' m).mpr ⟨hr, by omega, ?mapped⟩)
    fun i hi => ?byte
  case mapped =>
    rw [hplatform, hplatform', haddr]
    exact mappedRange_sub _ _ _ _ _ hmapped (by omega) (by omega)
  case byte =>
    rw [physRead_congr hmem, haddr, Nat.add_assoc, hbytes (j + i) (by omega), extractLsb'_part _ _ _ _ _ (by omega)]
    congr 1
    omega

/-- The case of the whole scalar. -/
theorem memRead_whole {s t u : State} {w w' ea ea' : Word} {n : Nat} {v : BitVec (8 * n)}
    (hw : Memory.wf s.mem = true) (hstore : s.memWrite w ea n v = .ok t) (hmem : u.mem = t.mem)
    (hplatform : u.platform = t.platform) (hr : u.accessRaises w' ea' n = false)
    (haddr : u.physicalAddress ea' n = s.physicalAddress ea n) : u.memRead w' ea' n = .ok v := by
  rw [memRead_part 0 hw hstore hmem hplatform hr (by rw [haddr]; rfl) (by omega)]
  simp

theorem physicalAddress_congr {s t : State} (h : t.msr = s.msr) (ea : Word) (n : Nat) :
    t.physicalAddress ea n = s.physicalAddress ea n := by
  rw [State.physicalAddress, littleEndian_eq, h]
  rfl

/-- Settles O22: the case of the whole scalar at the same address. -/
theorem loadAfterStore : Obligations.LoadAfterStore := by
  intro s t w w' ea n v _ hw hstore hr
  obtain ⟨-, hmsr, -⟩ := memWrite_ok_bytes hw hstore
  exact memRead_whole hw hstore rfl rfl hr (physicalAddress_congr hmsr ea n)

/-- The address of an aligned part of an aligned scalar: it does not wrap, stays in the double word and is aligned. -/
theorem part_address (ea : Word) {n m k : Nat} (hn : n ∈ [1, 2, 4, 8]) (hm : m ∈ [1, 2, 4, 8])
    (ha : ea.toNat % n = 0) (hk : k % m = 0) (hkm : k + m ≤ n) :
    (ea + BitVec.ofNat 32 k).toNat = ea.toNat + k ∧ ea.toNat % 8 + n ≤ 8 ∧
    (ea + BitVec.ofNat 32 k).toNat % m = 0 := by
  have hpos := size_pos hm
  have hdvd : m ∣ n :=
    (by decide : ∀ x ∈ [1, 2, 4, 8], ∀ y ∈ [1, 2, 4, 8], y ≤ x → y ∣ x) n hn m hm (by omega)
  have hinside : ea.toNat % 8 + n ≤ 8 := by fin_cases hn <;> omega
  have hnat : (ea + BitVec.ofNat 32 k).toNat = ea.toNat + k := by
    have hlt := ea.isLt
    rw [BitVec.toNat_add, BitVec.toNat_ofNat]
    omega
  refine ⟨hnat, hinside, ?_⟩
  rw [hnat]
  exact Nat.mod_eq_zero_of_dvd
    (Nat.dvd_add (hdvd.trans (Nat.dvd_of_mod_eq_zero ha)) (Nat.dvd_of_mod_eq_zero hk))

/-- Settles O23: the modification turns the order of the parts over, so the part at EA + k lies `n - m - k` bytes above
the scalar's physical address. -/
theorem littleEndianView : Obligations.LittleEndianView := by
  refine ⟨fun s w b hle hmapped => ?byte, fun s t w w' ea n m k v hn hm hk hkm hle hw hstore => ?part⟩
  case byte =>
    have haddr := physicalAddress_littleEndian s b 1 hle
    refine memRead_eq_of_bytes s w b 1 _ (accessible_of_aligned s w b (by simp) (Nat.mod_one _) ?_) fun i hi => ?_
    · rwa [haddr, mappedRange_one]
    · obtain rfl : i = 0 := by omega
      rw [haddr]
      exact BitVec.extractLsb'_eq_self.symm
  case part =>
    obtain ⟨hacc, hmsr, -⟩ := memWrite_ok_bytes hw hstore
    obtain ⟨hr, -⟩ := (accessible_eq_true s w ea n).mp hacc
    have ha := aligned_of_accessRaises_littleEndian hle hr
    obtain ⟨hnat, hinside, hpart⟩ := part_address ea hn hm ha hk hkm
    have hscalar := toNat_munge ea hn ha
    have hparts := toNat_munge (ea + BitVec.ofNat 32 k) hm hpart
    have hpos := size_pos hm
    have haddr : (t.physicalAddress (ea + BitVec.ofNat 32 k) m).toNat =
        (s.physicalAddress ea n).toNat + (n - m - k) := by
      rw [physicalAddress_congr hmsr, physicalAddress_littleEndian s _ m hle, physicalAddress_littleEndian s ea n hle]
      omega
    rw [memRead_part (n - m - k) hw hstore rfl rfl (accessRaises_of_aligned t w' _ m hpart) haddr (by omega),
      show n - m - (n - m - k) = k by omega]

/-- Settles O24: in big-endian mode the part at EA + k lies `k` bytes above the scalar; after the change of mode the
modification of the modified address gives back the scalar's address. -/
theorem bigEndianAndMixedViews : Obligations.BigEndianAndMixedViews := by
  refine ⟨fun s t w w' ea n m k v hn hm ha hk hkm hbe hw hstore => ?part,
    fun s t w w' ea msr n v hn ha hbe hle hw hstore => ?mixed⟩
  case part =>
    obtain ⟨-, hmsr, -⟩ := memWrite_ok_bytes hw hstore
    obtain ⟨hnat, -, hpart⟩ := part_address ea hn hm ha hk hkm
    refine memRead_part k hw hstore rfl rfl (accessRaises_of_aligned t w' _ m hpart) ?_ (by omega)
    rw [physicalAddress_congr hmsr, physicalAddress_bigEndian s _ m hbe, physicalAddress_bigEndian s ea n hbe, hnat]
  case mixed =>
    refine memRead_whole hw hstore rfl rfl (accessRaises_of_aligned _ w' _ n (munge_mod ea hn ha)) ?_
    rw [physicalAddress_littleEndian _ _ n hle, munge_munge, physicalAddress_bigEndian s ea n hbe]

end Sys2Proof.Machine
end

section
/-! PROOFS. The fetch (spec/20_memory.md R70, R71, R85), what the host places for it and for a program (R72, R74), the
accesses that raise, and the word stores that complete. -/

namespace Sys2Proof.Machine

/-! ### The fetch (R70, R71, R85) -/

/-- The fetch of four bytes of plain memory that no store has written. -/
theorem fetch_word (s : State) (hpc : s.pc.toNat % 4 = 0)
    (hm : s.platform.mappedRange (s.fetchAddress s.pc).toNat 4 = true)
    (hst : s.storedInRange (s.fetchAddress s.pc).toNat 4 = false) :
    s.fetch = .word (wordAt s (s.fetchAddress s.pc).toNat) :=
  (fetch_eq_word s _).mpr ⟨(aligned_four_iff s.pc).mpr hpc, hm, hst, (ofNat_bytesValue_four s _).symm⟩

theorem fetch_outside (s : State) (hpc : s.pc.toNat % 4 = 0)
    (hm : s.platform.mappedRange (s.fetchAddress s.pc).toNat 4 = false) :
    s.fetch = .refuse (.outsideMemRegion (s.fetchAddress s.pc)) := by
  simp [State.fetch, (aligned_four_iff s.pc).mpr hpc, hm]

theorem fetch_stored (s : State) (hpc : s.pc.toNat % 4 = 0)
    (hm : s.platform.mappedRange (s.fetchAddress s.pc).toNat 4 = true)
    (hst : s.storedInRange (s.fetchAddress s.pc).toNat 4 = true) : s.fetch = .refuse (.fetchOfStoredByte s.pc) := by
  simp [State.fetch, (aligned_four_iff s.pc).mpr hpc, hm, hst]

theorem step_of_fetch_refuse {s : State} {r : Refusal} (h : s.fetch = .refuse r) : step s = .refused r := by
  simp [step, h]

theorem step_of_decode {s : State} {w : Word} {i : Instr} (h : s.fetch = .word w) (hd : decodeWord w = some i) :
    step s = exec i s := by
  simp [step, h, hd]

theorem step_of_not_decode {s : State} {w : Word} (h : s.fetch = .word w) (hd : decodeWord w = none) :
    step s = .refused (.notInTable w) := by
  simp [step, h, hd]

/-- The decoder takes exactly four bytes (R100, R101). -/
theorem decode_four_eq_ok (b0 b1 b2 b3 : Byte) (i : Instr) (rest : List Byte) :
    decode [b0, b1, b2, b3] = .ok (i, rest) ↔ decodeWord (b0 ++ b1 ++ b2 ++ b3) = some i ∧ rest = [] := by
  rw [decode]
  cases decodeWord (b0 ++ b1 ++ b2 ++ b3) <;> simp [eq_comm]

/-- The decoder on four bytes of memory is the decoder on the word of them. -/
theorem decodeWord_of_decode_physBytes {s : State} {a : Nat} {i : Instr} {rest : List Byte}
    (h : decode (s.physBytes a 4) = .ok (i, rest)) : decodeWord (wordAt s a) = some i :=
  ((decode_four_eq_ok _ _ _ _ i rest).mp h).1

/-- Settles O10: the fetch and the load both read the word at the physical address. -/
theorem fetchReadsAWordLoad : Obligations.FetchReadsAWordLoad := by
  rintro s w A rfl hpc hm
  exact ⟨fetch_word s hpc hm, memRead_four s w s.pc (accessible_of_aligned s w s.pc (by simp) hpc hm)⟩

/-- Settles O11: the fetch answers the word the bytes decode from. -/
theorem stepRunsDecodedInstruction : Obligations.StepRunsDecodedInstruction := fun s _ hpc hm hst hd =>
  step_of_decode (fetch_word s hpc hm hst) (decodeWord_of_decode_physBytes hd)

/-- Settles O12: the checks of the fetch, and the decoder's. -/
theorem fetchRefusals : Obligations.FetchRefusals := by
  rintro s A rfl hpc
  exact ⟨fun hm => step_of_fetch_refuse (fetch_outside s hpc hm),
    fun hm hst => step_of_fetch_refuse (fetch_stored s hpc hm hst),
    fun hm hst hd => step_of_not_decode (fetch_word s hpc hm hst) hd⟩

/-! ### What the host places (R72, R74) -/

/-- The host writes memory as a store does. -/
theorem hostByte_mem (s : State) (a : Nat) (v : Byte) : (s.hostByte a v).mem = (s.physWrite a v).mem := rfl

theorem mapped_hostByte (s : State) (a b : Nat) (v : Byte) :
    (s.hostByte a v).platform.mapped b = true ↔ s.platform.mapped b = true ∨ b = a := by
  unfold State.hostByte
  dsimp only
  split
  next hmapped => exact ⟨.inl, fun h => h.elim id (· ▸ hmapped)⟩
  next =>
    have hcell : a ≤ b ∧ b < a + 1 ↔ b = a := by omega
    simp only [Platform.mapped, List.any_cons, Bool.or_eq_true, Bool.and_eq_true, decide_eq_true_eq, hcell,
      or_comm]

theorem stored_hostByte (s : State) (a b : Nat) (v : Byte) (h : sparseWf false s.stored = true) :
    sparseGet false (s.hostByte a v).stored b = true ↔ sparseGet false s.stored b = true ∧ b ≠ a := by
  by_cases hb : b = a
  · subst hb
    simp [State.hostByte, sparseGet_set_same _ _ _ h]
  · simp [State.hostByte, sparseGet_set_other _ _ _ _ hb, hb]

/-- The host's bytes change memory, the set of stored bytes and `mem_region` only. -/
theorem hostBytes_eq (s : State) (a : Nat) (l : List Byte) :
    ∃ m st p, s.hostBytes a l = { s with mem := m, stored := st, platform := p } := by
  induction l generalizing s a with
  | nil => exact ⟨s.mem, s.stored, s.platform, rfl⟩
  | cons v rest ih =>
    obtain ⟨m, st, p, h⟩ := ih (s.hostByte a v) (a + 1)
    exact ⟨m, st, p, h⟩

theorem physWriteBytes_mem_congr {s t : State} (h : s.mem = t.mem) (a : Nat) (l : List Byte) :
    (s.physWriteBytes a l).mem = (t.physWriteBytes a l).mem := by
  induction l generalizing s t a with
  | nil => exact h
  | cons v rest ih => exact ih (congrArg (memoryWrite · a v) h) (a + 1)

/-- The host's bytes lie in memory as stored bytes do. -/
theorem hostBytes_mem (s : State) (a : Nat) (l : List Byte) :
    (s.hostBytes a l).mem = (s.physWriteBytes a l).mem := by
  induction l generalizing s a with
  | nil => rfl
  | cons v rest ih =>
    exact (ih (s.hostByte a v) (a + 1)).trans (physWriteBytes_mem_congr (hostByte_mem s a v) (a + 1) rest)

theorem mapped_hostBytes (s : State) (a b : Nat) (l : List Byte) :
    (s.hostBytes a l).platform.mapped b = true ↔ s.platform.mapped b = true ∨ (a ≤ b ∧ b < a + l.length) := by
  induction l generalizing s a with
  | nil => simp [State.hostBytes]
  | cons v rest ih =>
    have hrange : b = a ∨ (a + 1 ≤ b ∧ b < a + 1 + rest.length) ↔ a ≤ b ∧ b < a + (rest.length + 1) := by omega
    rw [State.hostBytes, ih, mapped_hostByte, or_assoc, hrange, List.length_cons]

theorem stored_hostBytes (s : State) (a b : Nat) (l : List Byte) (h : sparseWf false s.stored = true) :
    sparseGet false (s.hostBytes a l).stored b = true ↔
      sparseGet false s.stored b = true ∧ (b < a ∨ a + l.length ≤ b) := by
  induction l generalizing s a with
  | nil =>
    have hall : b < a ∨ a ≤ b := by omega
    simp [State.hostBytes, hall]
  | cons v rest ih =>
    have hrange : b ≠ a ∧ (b < a + 1 ∨ a + 1 + rest.length ≤ b) ↔ b < a ∨ a + (rest.length + 1) ≤ b := by omega
    rw [State.hostBytes, ih _ _ (sparseWf_set s.stored a false h), stored_hostByte s a b v h, and_assoc, hrange,
      List.length_cons]

theorem storedInRange_eq_false (s : State) (a n : Nat) (h : ∀ i, i < n → sparseGet false s.stored (a + i) = false) :
    s.storedInRange a n = false := by
  induction n generalizing a with
  | zero => rfl
  | succ n ih =>
    have hfirst := h 0 (by omega)
    have hrest := ih (a + 1) fun i hi => by
      rw [Nat.add_assoc, Nat.add_comm 1]
      exact h (i + 1) (by omega)
    rw [State.storedInRange, hrest, Bool.or_false]
    exact hfirst

theorem physBytes_congr {s t : State} (h : t.mem = s.mem) (a n : Nat) : t.physBytes a n = s.physBytes a n := by
  refine List.ext_getElem (by simp) fun i _ _ => ?_
  rw [physBytes_getElem, physBytes_getElem, physRead_congr h]

/-- The bytes the host wrote, with plain memory under them and no store on them. -/
theorem hostBytes_placed (s : State) (a : Nat) (l : List Byte) (hmem : Memory.wf s.mem = true)
    (hstored : sparseWf false s.stored = true) :
    (s.hostBytes a l).physBytes a l.length = l ∧ (s.hostBytes a l).platform.mappedRange a l.length = true ∧
    (s.hostBytes a l).storedInRange a l.length = false ∧ SameMemoryBut a l.length s (s.hostBytes a l) := by
  refine ⟨?bytes, ?mapped, ?stored, fun b hb => ?frame⟩
  case bytes => rw [physBytes_congr (hostBytes_mem s a l), physBytes_physWriteBytes s a l hmem]
  case mapped =>
    exact (mappedRange_iff _ _ _).mpr fun i hi => (mapped_hostBytes s a _ l).mpr (.inr (by omega))
  case stored =>
    refine storedInRange_eq_false _ _ _ fun i hi => Bool.eq_false_iff.mpr fun h => ?_
    obtain ⟨-, hout⟩ := (stored_hostBytes s a _ l hstored).mp h
    omega
  case frame => rw [physRead_congr (hostBytes_mem s a l), physRead_physWriteBytes_other s a b l hb]

/-- The bytes of a table word that decodes decode, with nothing after them. -/
theorem decode_of_decodeTableWord {nbits w : Nat} {i : Instr} (h : decodeTableWord nbits w = some i) :
    decode (wordBytes (BitVec.ofNat 32 (w % 2 ^ nbits))) = .ok (i, []) := by
  unfold decodeTableWord at h
  split at h
  next j rest hd =>
    cases h
    obtain ⟨-, rfl⟩ := (decode_four_eq_ok _ _ _ _ i rest).mp hd
    exact hd
  · cases h

/-- Settles O13: the placed bytes meet the premises of StepRunsDecodedInstruction. -/
theorem placedWordRuns : Obligations.PlacedWordRuns := by
  intro s nbits w i hwf hdecode
  obtain ⟨hpc, hdata⟩ := (wf_iff s).mp hwf
  obtain ⟨hbytes, hmapped, hstored, hframe⟩ := hostBytes_placed s (s.fetchAddress s.pc).toNat
    (wordBytes (BitVec.ofNat 32 (w % 2 ^ nbits))) hdata.mem.wf hdata.stored.wf
  obtain ⟨m, st, p, heq⟩ := hostBytes_eq s (s.fetchAddress s.pc).toNat (wordBytes (BitVec.ofNat 32 (w % 2 ^ nbits)))
  have hplaced : s.withFetchWord nbits w = { s with mem := m, stored := st, platform := p } := heq
  rw [heq] at hbytes hmapped hstored hframe
  rw [hplaced]
  refine ⟨stepRunsDecodedInstruction _ i ((aligned_four_iff s.pc).mp hpc) hmapped hstored ?decode, rfl, rfl, rfl, rfl,
    rfl, rfl, fun _ => rfl, rfl, hframe⟩
  case decode => exact (congrArg decode hbytes).trans (decode_of_decodeTableWord hdecode)

theorem physRead_hostByte_other (s : State) (a b : Nat) (v : Byte) (h : b ≠ a) :
    (s.hostByte a v).physRead b = s.physRead b := memoryRead_write_other s.mem a b v h

theorem physRead_hostByte_same (s : State) (a : Nat) (v : Byte) (h : Memory.wf s.mem = true) :
    (s.hostByte a v).physRead a = v := memoryRead_write_same s.mem a v h

/-- The first byte of a stream, and then the rest of it, in little-endian mode. -/
theorem placeStream_cons (s : State) (b : Word) (v : Byte) (rest : List Byte) (hle : manualBit s.msr 31 = true) :
    s.placeStream b (v :: rest) = (s.hostByte (littleEndianByte b).toNat v).placeStream (b + 1) rest := by
  rw [State.placeStream, littleEndian_eq, if_pos hle]

/-- The bytes of the rest of a stream are the bytes after the first. -/
theorem stream_address_succ (b : Word) (j : Nat) : b + 1 + BitVec.ofNat 32 j = b + BitVec.ofNat 32 (j + 1) := by
  rw [BitVec.add_assoc, Nat.add_comm, BitVec.ofNat_add]
  rfl

/-- The later bytes of a stream that does not go round the address space lie at other addresses than the first. -/
theorem stream_address_ne (b : Word) (j : Nat) (h : j + 1 < 2 ^ 32) :
    (littleEndianByte (b + BitVec.ofNat 32 (j + 1))).toNat ≠ (littleEndianByte b).toNat := by
  intro heq
  have hword : b + BitVec.ofNat 32 (j + 1) = b := (BitVec.xor_left_inj 7).mp (BitVec.eq_of_toNat_eq heq)
  have hnat := congrArg BitVec.toNat hword
  have hlt := b.isLt
  rw [BitVec.toNat_add, BitVec.toNat_ofNat] at hnat
  omega

/-- A byte at an address the stream does not take reads as before. -/
theorem physRead_placeStream_other (s : State) (b : Word) (l : List Byte) (c : Nat) (hle : manualBit s.msr 31 = true)
    (h : ∀ j < l.length, (littleEndianByte (b + BitVec.ofNat 32 j)).toNat ≠ c) :
    (s.placeStream b l).physRead c = s.physRead c := by
  induction l generalizing s b with
  | nil => rfl
  | cons v rest ih =>
    have hfirst : (littleEndianByte b).toNat ≠ c := by simpa using h 0 (by simp)
    have hmode : manualBit (s.hostByte (littleEndianByte b).toNat v).msr 31 = true := hle
    rw [placeStream_cons s b v rest hle, ih _ _ hmode, physRead_hostByte_other _ _ _ _ hfirst.symm]
    intro j hj
    rw [stream_address_succ]
    exact h (j + 1) (by simpa using hj)

/-- Settles O25: the bytes after the first lie elsewhere, and the rest of the stream is a stream. -/
theorem hostStreamPlacement : Obligations.HostStreamPlacement := by
  intro s b l hle hw hlen i hi
  change (s.placeStream b l).physRead (littleEndianByte (b + BitVec.ofNat 32 i)).toNat = l[i]
  induction l generalizing s b i with
  | nil => simp at hi
  | cons v rest ih =>
    rw [List.length_cons] at hlen hi
    have hmode : manualBit (s.hostByte (littleEndianByte b).toNat v).msr 31 = true := hle
    rw [placeStream_cons s b v rest hle]
    cases i with
    | zero =>
      have hothers : ∀ j < rest.length, (littleEndianByte (b + 1 + BitVec.ofNat 32 j)).toNat ≠
          (littleEndianByte b).toNat := fun j hj => by
        rw [stream_address_succ]
        exact stream_address_ne b j (by omega)
      rw [show b + BitVec.ofNat 32 0 = b from BitVec.add_zero b, physRead_placeStream_other _ _ _ _ hmode hothers,
        physRead_hostByte_same s _ v hw]
      rfl
    | succ i =>
      rw [← stream_address_succ]
      exact ih _ _ hmode (memoryWrite_wf s.mem _ v hw) (by omega) i (by omega)

/-! ### Exceptions of loads, stores, multiples and strings (R63, R65, R69) -/

/-- Settles O28: the first check of each of the seven is the byte order. -/
theorem stringAndMultipleInLittleEndianMode : Obligations.StringAndMultipleInLittleEndianMode := by
  intro s hle
  exact ⟨fun _ _ _ => if_pos hle, fun _ _ _ => if_pos hle, fun _ _ _ => if_pos hle, fun _ _ _ => if_pos hle,
    fun _ _ _ => if_pos hle, fun _ _ _ => if_pos hle, fun _ _ _ _ => if_pos hle⟩

theorem multipleValid_eq_true (first rA : Reg) : multipleValid first rA = true ↔ rA.toNat < first.toNat := by
  simp [multipleValid, inMultipleRange]

/-- A multiple of a valid form at an address that is not a multiple of four raises, in both byte orders (R126). -/
theorem finishMultiple_misaligned (s : State) (w ea : Word) (first rA : Reg) (transfer : Access State)
    (hvalid : rA.toNat < first.toNat) (ha : ea.toNat % 4 ≠ 0) :
    s.finishMultiple w ea first rA transfer = s.raise w (.alignment ea) := by
  have halign : aligned ea 4 = false := Bool.eq_false_iff.mpr (mt (aligned_four_iff ea).mp ha)
  unfold State.finishMultiple
  rw [(multipleValid_eq_true first rA).mpr hvalid, halign]
  cases s.littleEndian <;> rfl

theorem loadGpr_misaligned (s : State) (w ea : Word) (n : Nat) (ext : Widening) (rD : Reg) (ha : ea.toNat % n ≠ 0)
    (hmode : manualBit s.msr 31 = true ∨ Config.beMisaligned w ea n = false) :
    s.loadGpr w ea n ext rD = .raise (.alignment ea) := by
  rw [State.loadGpr, memRead_misaligned s w ea n ha hmode]

/-- `lwzux` of a valid form is a load with update (R122). -/
theorem exec_lwzux_valid (rD rA rB : Reg) (s : State) (h0 : rA ≠ 0) (hne : rA ≠ rD) :
    exec (.lwzux rD rA rB) s = s.finishUpdate (encode (.lwzux rD rA rB)) (some rA) (s.readGpr rA + s.readGpr rB)
      (s.loadGpr (encode (.lwzux rD rA rB)) (s.readGpr rA + s.readGpr rB) 4 .zero rD) :=
  if_neg (by simpa [lwzuxValid, hne] using h0)

/-- Settles O29: the access raises, and the outcome of the instruction is that of raising in the state before it. -/
theorem misalignedAccessTakesException : Obligations.MisalignedAccessTakesException := by
  intro s
  refine ⟨fun rD rA rB h0 hne ha hmode => ?lwzux, fun rS rA d ha hmode => ?stw, fun frD rA d ha hmode => ?lfs,
    fun frS rA d ha hmode => ?stfs, fun rD rA d hvalid ha => finishMultiple_misaligned s _ _ rD rA _ hvalid ha,
    fun rS rA d hvalid ha => finishMultiple_misaligned s _ _ rS rA _ hvalid ha⟩
  case lwzux =>
    rw [exec_lwzux_valid rD rA rB s h0 hne, loadGpr_misaligned s _ _ 4 _ rD ha hmode]
    rfl
  case stw =>
    change s.finish _ (s.memWrite _ _ 4 _) = _
    rw [memWrite_misaligned s _ _ 4 _ ha hmode, finish_raise]
  case lfs =>
    change execLfs frD rA d s = _
    unfold execLfs
    dsimp only
    rw [memRead_misaligned s _ _ 4 ha hmode]
    rfl
  case stfs =>
    change execStfs frS rA d s = _
    unfold execStfs
    dsimp only
    rw [memWrite_misaligned s _ _ 4 _ ha hmode]
    rfl

/-! ### Word stores that complete (R67, R123, R211) -/

theorem physWriteBytes_eq (s : State) (a : Nat) (l : List Byte) :
    ∃ m st, s.physWriteBytes a l = { s with mem := m, stored := st } := by
  induction l generalizing s a with
  | nil => exact ⟨s.mem, s.stored, rfl⟩
  | cons v rest ih =>
    obtain ⟨m, st, h⟩ := ih (s.physWrite a v) (a + 1)
    exact ⟨m, st, h⟩

/-- All that a word store that goes through does: the word is at the physical address, and every other byte and every
field but memory and the set of stored bytes is as before (R67). -/
theorem memWrite_four_frame (s : State) (w ea : Word) (v : Word) (hw : Memory.wf s.mem = true)
    (hacc : accessible s w ea 4 = true) :
    ∃ m st, s.memWrite w ea 4 v = .ok { s with mem := m, stored := st } ∧
      wordAt { s with mem := m, stored := st } (s.physicalAddress ea 4).toNat = v ∧
      SameMemoryBut (s.physicalAddress ea 4).toNat 4 s { s with mem := m, stored := st } := by
  obtain ⟨m, st, heq⟩ := physWriteBytes_eq s (s.physicalAddress ea 4).toNat (valueBytes 4 v)
  refine ⟨m, st, ?_⟩
  rw [← heq]
  exact ⟨memWrite_four s w ea v hacc, wordAt_physWriteBytes s _ v hw, sameMemoryBut_physWriteBytes s _ 4 v⟩

/-- Settles O38: the store and then the advance of the instruction address. -/
theorem stwCompletes : Obligations.StwCompletes := by
  intro rS rA d s hw hpc hacc
  obtain ⟨m, st, hstore, hword, hsame⟩ := memWrite_four_frame s _ (s.eaDisp rA d) (s.readGpr rS) hw hacc
  have hexec : exec (.stw rS rA d) s = ({ s with mem := m, stored := st } : State).advance :=
    congrArg (s.finish (encode (.stw rS rA d))) hstore
  exact ⟨_, hexec.trans (advance_eq _ hpc), hword, hsame, fun _ _ => rfl, fun _ _ => rfl, rfl, rfl, rfl, rfl,
    by simp [SameSystem]⟩

/-- The word that `stfs` draws, if any, changes the count of free values alone. -/
theorem stfsDrawn_eq (s : State) (d : Double) : ∃ k, s.stfsDrawn d = { s with draws := k } := by
  unfold State.stfsDrawn
  split
  · exact ⟨s.draws, rfl⟩
  · exact ⟨s.draws + 1, rfl⟩

/-- Settles O40: as `stw`, but for the word stored and the count of free values. -/
theorem stfsCompletes : Obligations.StfsCompletes := by
  intro frS rA d s hw hpc hacc
  obtain ⟨m, st, hstore, hword, hsame⟩ :=
    memWrite_four_frame s _ (s.eaDisp rA d) (s.stfsWord (s.readFpr frS)) hw hacc
  obtain ⟨k, hdrawn⟩ := stfsDrawn_eq { s with mem := m, stored := st } (s.readFpr frS)
  have hexec : exec (.stfs frS rA d) s = ({ s with mem := m, stored := st, draws := k } : State).advance := by
    change execStfs frS rA d s = _
    unfold execStfs
    dsimp only
    rw [hstore]
    exact congrArg State.advance hdrawn
  exact ⟨_, hexec.trans (advance_eq _ hpc), fun hrepr => hword.trans (if_pos hrepr), hsame, fun _ _ => rfl,
    fun _ _ => rfl, rfl, rfl, rfl, rfl, by simp [SameSystem]⟩

end Sys2Proof.Machine
end

section
/-! PROOFS. The encoding (spec/30_encoding.md R100, R101, R107 to R110): the rows of the opcode table exclude each other,
so that decoding is a search for the one row a word matches; and a word of a row is the row's form of the word's own
fields. -/

namespace Sys2Proof

/-! ### The decoder as a search through the table -/

/-- The instruction of `i`'s row with the operands that the fields of `w` hold (R107, R108). -/
def Instr.reread (i : Instr) (w : Word) : Instr :=
  match i with
  | .cmplwi _ _ _ => .cmplwi (bits w 25 23) (fieldA w) (fieldImm w)
  | .subi _ _ _ => .subi (fieldD w) (fieldA w) (fieldImm w)
  | .beq _ _ => .beq (bits w 20 18) (bits w 15 2)
  | .b _ => .b (bits w 25 2)
  | .lwzux _ _ _ => .lwzux (fieldD w) (fieldA w) (fieldB w)
  | .add _ _ _ _ => .add (fieldD w) (fieldA w) (fieldB w) (fieldRc w)
  | .lscbx _ _ _ _ => .lscbx (fieldD w) (fieldA w) (fieldB w) (fieldRc w)
  | .mtspr _ _ => .mtspr (fieldSpr w) (fieldD w)
  | .lswx _ _ _ => .lswx (fieldD w) (fieldA w) (fieldB w)
  | .lswi _ _ _ => .lswi (fieldD w) (fieldA w) (fieldB w)
  | .stswx _ _ _ => .stswx (fieldD w) (fieldA w) (fieldB w)
  | .stswi _ _ _ => .stswi (fieldD w) (fieldA w) (fieldB w)
  | .stw _ _ _ => .stw (fieldD w) (fieldA w) (fieldImm w)
  | .lmw _ _ _ => .lmw (fieldD w) (fieldA w) (fieldImm w)
  | .stmw _ _ _ => .stmw (fieldD w) (fieldA w) (fieldImm w)
  | .lfs _ _ _ => .lfs (fieldD w) (fieldA w) (fieldImm w)
  | .stfs _ _ _ => .stfs (fieldD w) (fieldA w) (fieldImm w)
  | .frsp _ _ _ => .frsp (fieldD w) (fieldB w) (fieldRc w)

/-- One instruction of each row of the table, in its order, every operand zero. -/
def blankInstrs : List Instr :=
  [.cmplwi 0 0 0, .subi 0 0 0, .beq 0 0, .b 0, .lwzux 0 0 0, .add 0 0 0 false, .lscbx 0 0 0 false, .mtspr 0 0,
   .lswx 0 0 0, .lswi 0 0 0, .stswx 0 0 0, .stswi 0 0 0, .stw 0 0 0, .lmw 0 0 0, .stmw 0 0 0, .lfs 0 0 0, .stfs 0 0 0,
   .frsp 0 0 false]

theorem map_row_blankInstrs : blankInstrs.map Instr.row = rows := rfl

theorem row_reread (i : Instr) (w : Word) : (i.reread w).row = i.row := by cases i <;> rfl

theorem reread_reread (i : Instr) (w w' : Word) : (i.reread w').reread w = i.reread w := by cases i <;> rfl

/-- Every instruction has the row of one in the list. -/
theorem reread_zero_mem_blankInstrs (i : Instr) : i.reread 0 ∈ blankInstrs := by
  cases i <;> exact of_decide_eq_true rfl

theorem row_mem_rows (i : Instr) : i.row ∈ rows := by
  rw [← row_reread i 0, ← map_row_blankInstrs]
  exact List.mem_map_of_mem (reread_zero_mem_blankInstrs i)

/-- A chain of tests is a search for the first that succeeds. -/
theorem foldr_ite_eq_map_find? {α β : Type} (p : α → Bool) (f : α → β) (l : List α) :
    l.foldr (fun a rest => if p a then some (f a) else rest) none = (l.find? p).map f := by
  induction l with
  | nil => rfl
  | cons a l ih =>
    rw [List.foldr_cons, List.find?_cons, ih]
    cases p a <;> rfl

/-- The decoder reads the operands of the first row that the word matches. -/
theorem decodeWord_eq_map_find? (w : Word) :
    decodeWord w = (blankInstrs.find? fun k => k.row.selects w).map fun k => k.reread w :=
  foldr_ite_eq_map_find? (fun k : Instr => k.row.selects w) (fun k => k.reread w) blankInstrs

/-! ### The rows exclude each other (R109) -/

/-- Where a word matches two rows, their patterns agree in the bits that both masks hold. -/
theorem Row.patterns_agree {r r' : Row} {w : Word} (h : r.selects w = true) (h' : r'.selects w = true) :
    r.pattern &&& r'.mask = r'.pattern &&& r.mask := by
  rw [Row.selects, beq_iff_eq] at h h'
  rw [← h, ← h', BitVec.and_assoc, BitVec.and_assoc, BitVec.and_comm r.mask]

/-- The patterns of no two rows agree so. -/
theorem blankInstrs_patterns_differ :
    blankInstrs.Pairwise fun k k' => k.row.pattern &&& k'.row.mask ≠ k'.row.pattern &&& k.row.mask := by
  decide

theorem blankInstrs_eq_of_selects {k k' : Instr} (hk : k ∈ blankInstrs) (hk' : k' ∈ blankInstrs) {w : Word}
    (h : k.row.selects w = true) (h' : k'.row.selects w = true) : k = k' := by
  by_contra hne
  have hsymm : Std.Symm fun k k' : Instr => k.row.pattern &&& k'.row.mask ≠ k'.row.pattern &&& k.row.mask :=
    ⟨fun _ _ hdiffer => hdiffer.symm⟩
  exact blankInstrs_patterns_differ.forall hk hk' hne (Row.patterns_agree h h')

/-- Where a word decodes, it matches the row of the instruction, whose operands are the word's fields. -/
theorem selects_of_decodeWord {w : Word} {i : Instr} (h : decodeWord w = some i) :
    i.row.selects w = true ∧ i.reread w = i := by
  rw [decodeWord_eq_map_find?] at h
  obtain ⟨k, hfind, rfl⟩ := Option.map_eq_some_iff.mp h
  have hselects := List.find?_some (p := fun k : Instr => k.row.selects w) hfind
  exact ⟨(row_reread k w).symm ▸ hselects, reread_reread k w w⟩

/-- A word that matches a row decodes to the instruction of the row with the word's fields as operands. -/
theorem decodeWord_of_selects {w : Word} (i : Instr) (h : i.row.selects w = true) :
    decodeWord w = some (i.reread w) := by
  rw [← row_reread i 0] at h
  have hmem := reread_zero_mem_blankInstrs i
  obtain ⟨k, hfind⟩ := Option.isSome_iff_exists.mp
    (List.find?_isSome (p := fun k : Instr => k.row.selects w) |>.mpr ⟨_, hmem, h⟩)
  have hk : i.reread 0 = k := blankInstrs_eq_of_selects hmem (List.mem_of_find?_eq_some hfind) h
    (List.find?_some (p := fun k : Instr => k.row.selects w) hfind)
  rw [decodeWord_eq_map_find?, hfind, ← hk, Option.map_some, reread_reread]

/-- Settles O3: the rows are those of the instructions in the list. -/
theorem decodesExactlyTheRows : Obligations.DecodesExactlyTheRows := by
  have hrow : ∀ r ∈ rows, ∃ k ∈ blankInstrs, k.row = r := fun r hr => List.mem_map.mp hr
  refine ⟨fun w => ⟨fun h => ?row, ?decodes⟩, fun w r hr r' hr' h h' => ?unique⟩
  case row =>
    obtain ⟨i, hi⟩ := Option.isSome_iff_exists.mp h
    exact ⟨i.row, row_mem_rows i, (selects_of_decodeWord hi).1⟩
  case decodes =>
    rintro ⟨r, hr, h⟩
    obtain ⟨k, -, rfl⟩ := hrow r hr
    rw [decodeWord_of_selects k h]
    rfl
  case unique =>
    obtain ⟨k, hk, rfl⟩ := hrow r hr
    obtain ⟨k', hk', rfl⟩ := hrow r' hr'
    rw [blankInstrs_eq_of_selects hk hk' h h']

/-! ### Decoding what was encoded -/

/-- The word of every instruction matches the instruction's row. -/
theorem selects_encode (i : Instr) : i.row.selects (encode i) = true := by
  cases i with
  | cmplwi => exact Laws.EncodesItsRow.cmplwi ..
  | subi => exact Laws.EncodesItsRow.subi ..
  | beq => exact Laws.EncodesItsRow.beq ..
  | b => exact Laws.EncodesItsRow.b ..
  | lwzux => exact Laws.EncodesItsRow.lwzux ..
  | add => exact Laws.EncodesItsRow.add ..
  | lscbx => exact Laws.EncodesItsRow.lscbx ..
  | mtspr => exact Laws.EncodesItsRow.mtspr ..
  | lswx => exact Laws.EncodesItsRow.lswx ..
  | lswi => exact Laws.EncodesItsRow.lswi ..
  | stswx => exact Laws.EncodesItsRow.stswx ..
  | stswi => exact Laws.EncodesItsRow.stswi ..
  | stw => exact Laws.EncodesItsRow.stw ..
  | lmw => exact Laws.EncodesItsRow.lmw ..
  | stmw => exact Laws.EncodesItsRow.stmw ..
  | lfs => exact Laws.EncodesItsRow.lfs ..
  | stfs => exact Laws.EncodesItsRow.stfs ..
  | frsp => exact Laws.EncodesItsRow.frsp ..

/-- The fields of an instruction's word are its operands, form by form. -/
theorem reread_encode (i : Instr) : i.reread (encode i) = i := by
  cases i with
  | cmplwi => simp only [encode, Instr.reread, bits_crf_cmpForm, fieldA_cmpForm, fieldImm_cmpForm]
  | beq => simp only [encode, Instr.reread, bits_crf_bForm, bits_bd_bForm]
  | b => simp only [encode, Instr.reread, bits_li_iForm]
  | mtspr => simp only [encode, Instr.reread, fieldSpr_xForm, fieldD_xForm]
  | lwzux | add | lscbx | lswx | lswi | stswx | stswi | frsp =>
    simp only [encode, Instr.reread, fieldD_xForm, fieldA_xForm, fieldB_xForm, fieldRc_xForm]
  | subi | stw | lmw | stmw | lfs | stfs =>
    simp only [encode, Instr.reread, fieldD_dForm, fieldA_dForm, fieldImm_dForm]

theorem decodeWord_encode (i : Instr) : decodeWord (encode i) = some i := by
  rw [decodeWord_of_selects i (selects_encode i), reread_encode]

/-! ### A word is made of its fields

The parts of a word that a form puts side by side are bits `lo + m` to `lo + m + n - 1` and bits `lo` to `lo + m - 1`:
together they are one part again, and in the end the word. -/

/-- The four bytes of a word, the most significant first, are the word (R57, R101). -/
theorem bytes_append_eq (w : Word) :
    w.extractLsb 31 24 ++ w.extractLsb 23 16 ++ w.extractLsb 15 8 ++ w.extractLsb 7 0 = w := by
  change w.extractLsb' 24 8 ++ w.extractLsb' 16 8 ++ w.extractLsb' 8 8 ++ w.extractLsb' 0 8 = w
  simp only [BitVec.extractLsb'_append_extractLsb'_eq_extractLsb', BitVec.extractLsb'_eq_self]

theorem dForm_fields (w : Word) : dForm (bits w 31 26) (fieldD w) (fieldA w) (fieldImm w) = w := by
  change w.extractLsb' 26 6 ++ w.extractLsb' 21 5 ++ w.extractLsb' 16 5 ++ w.extractLsb' 0 16 = w
  simp only [BitVec.extractLsb'_append_extractLsb'_eq_extractLsb', BitVec.extractLsb'_eq_self]

theorem cmpForm_fields (w : Word) (hzero : bits w 22 21 = 0#2) :
    cmpForm (bits w 31 26) (bits w 25 23) (fieldA w) (fieldImm w) = w := by
  rw [cmpForm, ← hzero]
  change w.extractLsb' 26 6 ++ w.extractLsb' 23 3 ++ w.extractLsb' 21 2 ++ w.extractLsb' 16 5 ++ w.extractLsb' 0 16 = w
  simp only [BitVec.extractLsb'_append_extractLsb'_eq_extractLsb', BitVec.extractLsb'_eq_self]

theorem iForm_fields (w : Word) (hzero : bits w 1 0 = 0#2) : iForm (bits w 31 26) (bits w 25 2) = w := by
  rw [iForm, ← hzero]
  change w.extractLsb' 26 6 ++ w.extractLsb' 2 24 ++ w.extractLsb' 0 2 = w
  simp only [BitVec.extractLsb'_append_extractLsb'_eq_extractLsb', BitVec.extractLsb'_eq_self]

theorem bForm_fields (w : Word) (hzero : bits w 1 0 = 0#2) :
    bForm (bits w 31 26) (bits w 25 21) (bits w 20 18 ++ bits w 17 16) (bits w 15 2) = w := by
  rw [bForm, ← hzero]
  change w.extractLsb' 26 6 ++ w.extractLsb' 21 5 ++ (w.extractLsb' 18 3 ++ w.extractLsb' 16 2) ++ w.extractLsb' 2 14 ++
    w.extractLsb' 0 2 = w
  simp only [BitVec.extractLsb'_append_extractLsb'_eq_extractLsb', BitVec.extractLsb'_eq_self]

theorem ofBool_fieldRc (w : Word) : BitVec.ofBool (fieldRc w) = bits w 0 0 := by
  refine BitVec.eq_of_getLsbD_eq fun i hi => ?_
  obtain rfl : i = 0 := by omega
  simp [fieldRc, bits]

theorem xForm_fields (w : Word) :
    xForm (bits w 31 26) (fieldD w) (fieldA w) (fieldB w) (bits w 10 1) (fieldRc w) = w := by
  rw [xForm, ofBool_fieldRc]
  change w.extractLsb' 26 6 ++ w.extractLsb' 21 5 ++ w.extractLsb' 16 5 ++ w.extractLsb' 11 5 ++ w.extractLsb' 1 10 ++
    w.extractLsb' 0 1 = w
  simp only [BitVec.extractLsb'_append_extractLsb'_eq_extractLsb', BitVec.extractLsb'_eq_self]

/-- The halves of the SPR number are the rA and the rB field, in this order (R108). -/
theorem extractLsb_fieldSpr (w : Word) :
    (fieldSpr w).extractLsb 4 0 = fieldA w ∧ (fieldSpr w).extractLsb 9 5 = fieldB w :=
  ⟨BitVec.extractLsb'_append_eq_right, BitVec.extractLsb'_append_eq_left⟩

/-- Settles O1: the word of an instruction matches the instruction's row, its fields are the operands, and its bytes are
the word. -/
theorem decodeOfEncode : Obligations.DecodeOfEncode := by
  refine fun i rest => ⟨decodeWord_encode i, ?bytes⟩
  case bytes =>
    have hbytes := decodeWord_encode i
    rw [← bytes_append_eq (encode i)] at hbytes
    change decode (_ :: _ :: _ :: _ :: rest) = _
    rw [decode, hbytes]

/-! ### Encoding what was decoded -/

/-- The row's mask and pattern fix bits `hi` to `lo` to `v`. -/
def Row.fixes (r : Row) (hi lo : Nat) (v : BitVec (hi - lo + 1)) : Bool :=
  bits r.mask hi lo == BitVec.allOnes _ && bits r.pattern hi lo == v

section
variable {r : Row} {w : Word} (h : r.selects w = true)
include h

/-- The bits of a word that its row fixes. -/
theorem bits_of_selects {hi lo : Nat} {v : BitVec (hi - lo + 1)} (hfix : r.fixes hi lo v = true) :
    bits w hi lo = v := by
  rw [Row.fixes, Bool.and_eq_true, beq_iff_eq, beq_iff_eq] at hfix
  rw [Row.selects, beq_iff_eq] at h
  obtain ⟨hmask, hpattern⟩ := hfix
  have hand : bits (w &&& r.mask) hi lo = bits w hi lo &&& bits r.mask hi lo := BitVec.extractLsb'_and
  rw [← hpattern, ← h, hand, hmask, BitVec.and_allOnes]

theorem dForm_of_selects {o : BitVec 6} (hopcd : r.fixes 31 26 o = true) :
    dForm o (fieldD w) (fieldA w) (fieldImm w) = w := by
  rw [← bits_of_selects h hopcd, dForm_fields]

theorem cmpForm_of_selects {o : BitVec 6} (hopcd : r.fixes 31 26 o = true) (hzero : r.fixes 22 21 0#2 = true) :
    cmpForm o (bits w 25 23) (fieldA w) (fieldImm w) = w := by
  rw [← bits_of_selects h hopcd, cmpForm_fields w (bits_of_selects h hzero)]

theorem iForm_of_selects {o : BitVec 6} (hopcd : r.fixes 31 26 o = true) (hzero : r.fixes 1 0 0#2 = true) :
    iForm o (bits w 25 2) = w := by
  rw [← bits_of_selects h hopcd, iForm_fields w (bits_of_selects h hzero)]

theorem bForm_of_selects {o : BitVec 6} {bo : BitVec 5} {bi : BitVec 2} (hopcd : r.fixes 31 26 o = true)
    (hbo : r.fixes 25 21 bo = true) (hbi : r.fixes 17 16 bi = true) (hzero : r.fixes 1 0 0#2 = true) :
    bForm o bo (bits w 20 18 ++ bi) (bits w 15 2) = w := by
  rw [← bits_of_selects h hopcd, ← bits_of_selects h hbo, ← bits_of_selects h hbi,
    bForm_fields w (bits_of_selects h hzero)]

theorem xForm_of_selects {o : BitVec 6} {xo : BitVec 10} (hopcd : r.fixes 31 26 o = true)
    (hxo : r.fixes 10 1 xo = true) : xForm o (fieldD w) (fieldA w) (fieldB w) xo (fieldRc w) = w := by
  rw [← bits_of_selects h hopcd, ← bits_of_selects h hxo, xForm_fields]

theorem xForm_of_selects_rc {o : BitVec 6} {xo : BitVec 10} {rc : Bool} (hopcd : r.fixes 31 26 o = true)
    (hxo : r.fixes 10 1 xo = true) (hrc : r.fixes 0 0 (BitVec.ofBool rc) = true) :
    xForm o (fieldD w) (fieldA w) (fieldB w) xo rc = w := by
  have hform := xForm_of_selects h hopcd hxo
  rwa [xForm, ofBool_fieldRc, bits_of_selects h hrc] at hform

end

/-- A word that matches a row is the encoding of the row's instruction with the word's fields as operands. -/
theorem encode_reread {i : Instr} {w : Word} (h : i.row.selects w = true) : encode (i.reread w) = w := by
  cases i <;> simp only [Instr.row] at h
  case cmplwi => exact cmpForm_of_selects h (by decide) (by decide)
  case beq => exact bForm_of_selects h (by decide) (by decide) (by decide) (by decide)
  case b => exact iForm_of_selects h (by decide) (by decide)
  case mtspr =>
    obtain ⟨hlow, hhigh⟩ := extractLsb_fieldSpr w
    rw [Instr.reread, encode, hlow, hhigh]
    exact xForm_of_selects_rc h (by decide) (by decide) (by decide)
  case frsp =>
    have hrA : fieldA w = 0 := bits_of_selects h (by decide)
    rw [Instr.reread, encode, ← hrA]
    exact xForm_of_selects h (by decide) (by decide)
  case add | lscbx => exact xForm_of_selects h (by decide) (by decide)
  case lwzux | lswx | lswi | stswx | stswi => exact xForm_of_selects_rc h (by decide) (by decide) (by decide)
  case subi | stw | lmw | stmw | lfs | stfs => exact dForm_of_selects h (by decide)

/-- Settles O2: a word that decodes matches the row of its instruction, whose operands are the word's fields. -/
theorem encodeOfDecode : Obligations.EncodeOfDecode := by
  intro w i h
  obtain ⟨hselects, hreread⟩ := selects_of_decodeWord h
  exact ⟨hreread ▸ encode_reread hselects, hselects⟩

end Sys2Proof
end

section
/-! PROOFS. `beq` (spec/41_branch_and_other_named_instructions.md R152), and the string loads and stores in big-endian mode
(spec/40_load_store_single_multiple_string.md R130 to R133): byte `k` of a string is byte `k mod 4` of register rD + `k / 4`,
so that after `k` turns of R130's loop the registers hold the first `k` bytes, and a store is one write of the registers'
bytes. -/

namespace Sys2Proof.Machine

/-! ### `beq` (R106, R152) -/

/-- Settles O35: the bit that BI names decides between the branch and the next address. -/
theorem beqCompletes : Obligations.BeqCompletes := by
  intro k bd s
  rw [← crEq_eq_manualBit, ← branchDispB_eq_ofInt]
  exact ⟨fun htaken => ⟨_, if_pos htaken, rfl, rfl⟩,
    fun hnot hpc => ⟨_, (if_neg (Bool.eq_false_iff.mp hnot)).trans (advance_eq s hpc), rfl, rfl⟩⟩

/-! ### Counts, ranges and bytes of a string -/

theorem stringCount_eq (nb : BitVec 5) : stringCount nb = if nb.toNat = 0 then 32 else nb.toNat := by
  obtain ⟨-, -, -, -, -, hcount⟩ := operandAssembly
  exact hcount nb

theorem stringCount_le (nb : BitVec 5) : stringCount nb ≤ 128 := by
  rw [stringCount_eq]
  split <;> omega

/-- The byte count of the indexed forms is XER modulo 128 (R131). -/
theorem xerCount_eq (xer : Word) : xerCount xer = xer.toNat % 128 := by
  simp [xerCount]

theorem byteOf_eq_regByte (x : Word) (i : Nat) : byteOf x i = regByte x i := by
  refine BitVec.eq_of_getLsbD_eq fun k hk => ?_
  simp [byteOf, regByte]

/-- Two bytes of a string that fits the registers lie in the same register exactly if their quotients agree. -/
theorem stringReg_inj (first : Reg) {j k : Nat} (hj : j < 128) (hk : k < 128) :
    first + BitVec.ofNat 5 (j / 4) = first + BitVec.ofNat 5 (k / 4) ↔ j / 4 = k / 4 := by
  rw [BitVec.add_right_inj, ← BitVec.toNat_inj, BitVec.toNat_ofNat, BitVec.toNat_ofNat]
  omega

/-- The invalid-form ranges are the registers a string fills (R130). -/
theorem inStringRange_iff (first : Reg) (n : Nat) (r : Reg) :
    inStringRange first (stringRegCount n) r = true ↔ StringFills first n r := by
  rw [inStringRange, stringRegCount, decide_eq_true_iff]
  constructor
  · intro h
    refine ⟨4 * (r - first).toNat, by omega, ?_⟩
    rw [Nat.mul_div_cancel_left _ (by omega), BitVec.ofNat_toNat, BitVec.setWidth_eq,
      BitVec.add_comm, BitVec.sub_add_cancel]
  · rintro ⟨j, hj, rfl⟩
    rw [BitVec.add_comm, BitVec.add_sub_cancel, BitVec.toNat_ofNat]
    have := Nat.mod_le (j / 4) (2 ^ 5)
    omega

/-- The bytes of a plain range are what `readString` asks for (R66, D7). -/
theorem plainBytes_iff (s : State) (a n : Nat) :
    plainBytes s a n = true ↔ a + n ≤ 2 ^ 32 ∧ ∀ k, k < n → s.platform.mapped (a + k) = true := by
  rw [plainBytes, Bool.and_eq_true, decide_eq_true_iff, mappedRange_iff]

/-! ### The registers of a string load (R130) -/

/-- One turn of R130's loop: byte `k` of a string into its register, which is cleared when its first byte arrives. -/
def State.setStringByte (s : State) (rD : Reg) (k : Nat) (v : Byte) : State :=
  s.writeGpr (rD + BitVec.ofNat 5 (k / 4))
    (setRegByte (if k % 4 = 0 then 0 else s.readGpr (rD + BitVec.ofNat 5 (k / 4))) (k % 4) v)

/-- R130's `r` after `k` bytes: the register of the last one. R130's `i` is then `k mod 4`. -/
def stringCursor (rD : Reg) (k : Nat) : Reg := rD - 1 + BitVec.ofNat 5 ((k + 3) / 4)

theorem stringCursor_zero (rD : Reg) : stringCursor rD 0 = rD - 1 := by simp [stringCursor]

theorem stringCursor_succ (rD : Reg) (k : Nat) : stringCursor rD (k + 1) = rD + BitVec.ofNat 5 (k / 4) := by
  rw [stringCursor, show (k + 1 + 3) / 4 = k / 4 + 1 by omega, BitVec.ofNat_add]
  grind

/-- The register of byte `k`: the next one if the byte is a register's first. -/
theorem stringCursor_next (rD : Reg) (k : Nat) :
    (if k % 4 = 0 then stringCursor rD k + 1 else stringCursor rD k) = rD + BitVec.ofNat 5 (k / 4) := by
  rw [← stringCursor_succ, stringCursor, stringCursor]
  split
  next hfirst =>
    rw [show (k + 1 + 3) / 4 = (k + 3) / 4 + 1 by omega, BitVec.ofNat_add, ← BitVec.add_assoc]
    rfl
  next hlater => rw [show (k + 1 + 3) / 4 = (k + 3) / 4 by omega]

theorem fillRegs_cons_at (s : State) (rD : Reg) (k : Nat) (v : Byte) (rest : List Byte) :
    s.fillRegs (stringCursor rD k) (k % 4) (v :: rest) =
      (s.setStringByte rD k v).fillRegs (stringCursor rD (k + 1)) ((k + 1) % 4) rest := by
  rw [State.fillRegs, stringCursor_next, stringCursor_succ, State.setStringByte,
    show (k % 4 + 1) % 4 = (k + 1) % 4 by omega]

/-- A string of `k` bytes in the registers, and its next byte: one byte more. -/
theorem holdsString_setStringByte {s : State} {rD : Reg} {k : Nat} {l : Nat → Byte} (h : HoldsString s rD k l)
    (hk : k < 128) : HoldsString (s.setStringByte rD k (l k)) rD (k + 1) l := by
  intro j hj
  have hold := h j
  rw [byteOf_eq_regByte] at hold ⊢
  rw [State.setStringByte, readGpr_writeGpr]
  simp only [stringReg_inj rD hk (show j < 128 by omega)]
  by_cases hreg : k / 4 = j / 4
  case neg =>
    rw [if_neg hreg, hold (by omega), if_pos (by omega), if_pos (by omega)]
  case pos =>
    rw [if_pos hreg, hreg, regByte_setRegByte _ _ _ _ (Nat.mod_lt k (by omega)) (Nat.mod_lt j (by omega))]
    by_cases hbyte : k % 4 = j % 4
    · obtain rfl : k = j := by omega
      rw [if_pos hbyte, if_pos (by omega)]
    · rw [if_neg hbyte]
      by_cases hfirst : k % 4 = 0
      · rw [if_pos hfirst, regByte_zero, if_neg (by omega)]
      · rw [if_neg hfirst, hold (by omega)]
        exact if_congr (by omega) rfl rfl

theorem readGpr_setStringByte_other (s : State) (rD r : Reg) (k : Nat) (v : Byte)
    (h : r ≠ rD + BitVec.ofNat 5 (k / 4)) : (s.setStringByte rD k v).readGpr r = s.readGpr r := by
  rw [State.setStringByte, readGpr_writeGpr, if_neg h.symm]

/-- The loop from byte `k` on keeps what the registers hold of the string (R130). -/
theorem holdsString_fillRegs {s : State} {rD : Reg} {l : Nat → Byte} (bytes : List Byte) {k : Nat}
    (h : HoldsString s rD k l) (hbytes : ∀ j (hj : j < bytes.length), bytes[j] = l (k + j))
    (hk : k + bytes.length ≤ 128) :
    HoldsString (s.fillRegs (stringCursor rD k) (k % 4) bytes) rD (k + bytes.length) l := by
  induction bytes generalizing s k with
  | nil => exact h
  | cons v rest ih =>
    rw [List.length_cons] at hk
    obtain rfl : v = l k := hbytes 0 (Nat.succ_pos _)
    rw [fillRegs_cons_at, List.length_cons, show k + (rest.length + 1) = k + 1 + rest.length by omega]
    refine ih (holdsString_setStringByte h (by omega)) (fun j hj => ?_) (by omega)
    rw [show k + 1 + j = k + (j + 1) by omega]
    exact hbytes (j + 1) (Nat.succ_lt_succ hj)

/-- And it writes no register but those of the bytes it puts there. -/
theorem readGpr_fillRegs_other {s : State} {rD r : Reg} (bytes : List Byte) {k : Nat}
    (h : ∀ j, j < bytes.length → r ≠ rD + BitVec.ofNat 5 ((k + j) / 4)) :
    (s.fillRegs (stringCursor rD k) (k % 4) bytes).readGpr r = s.readGpr r := by
  induction bytes generalizing s k with
  | nil => rfl
  | cons v rest ih =>
    rw [List.length_cons] at h
    rw [fillRegs_cons_at, ih fun j hj => ?_, readGpr_setStringByte_other s rD r k v (h 0 (by omega))]
    rw [show k + 1 + j = k + (j + 1) by omega]
    exact h (j + 1) (by omega)

theorem loadString_eq_fillRegs (s : State) (rD : Reg) (bytes : List Byte) :
    s.loadString rD bytes = s.fillRegs (stringCursor rD 0) (0 % 4) bytes := by
  rw [State.loadString, stringCursor_zero]

/-- After a string load the registers from rD on hold the bytes of memory. -/
theorem holdsString_loadString (s : State) (rD : Reg) (a n : Nat) (hn : n ≤ 128) :
    HoldsString (s.loadString rD (s.physBytes a n)) rD n (fun j => s.physRead (a + j)) := by
  rw [loadString_eq_fillRegs]
  have hnone : HoldsString s rD 0 (fun j => s.physRead (a + j)) := fun j hj => by omega
  simpa using holdsString_fillRegs (s.physBytes a n) hnone
    (fun j hj => by rw [physBytes_getElem, Nat.zero_add]) (by simpa using hn)

theorem sameGprs_loadString (s : State) (rD : Reg) (bytes : List Byte) :
    SameGprs (fun r => ¬ StringFills rD bytes.length r) s (s.loadString rD bytes) := by
  intro r hr
  rw [loadString_eq_fillRegs]
  refine readGpr_fillRegs_other bytes fun j hj hreg => hr ⟨j, hj, ?_⟩
  rwa [Nat.zero_add] at hreg

/-! ### String loads that complete -/

/-- A string of plain memory in big-endian mode is the bytes at its addresses (R66, R130). -/
theorem readString_of_plainBytes (s : State) (w : Word) (a n : Nat) (hbe : manualBit s.msr 31 = false)
    (hplain : plainBytes s a n = true) : s.readString w a n = .ok (s.physBytes a n) := by
  obtain ⟨hend, hmapped⟩ := (plainBytes_iff s a n).mp hplain
  exact (readString_eq_ok s w a n _ hbe).mpr ⟨fun k hk => ⟨by omega, hmapped k hk⟩, rfl⟩

theorem exec_lswi_valid (rD rA : Reg) (nb : BitVec 5) (s : State) (hbe : manualBit s.msr 31 = false)
    (hvalid : ¬ StringFills rD (stringCount nb) rA)
    (hplain : plainBytes s (s.baseOrZero rA).toNat (stringCount nb) = true) :
    exec (.lswi rD rA nb) s =
      (s.loadString rD (s.physBytes (s.baseOrZero rA).toNat (stringCount nb))).advance := by
  have hform : lswiValid rD rA nb = true := by simpa [lswiValid, ← Bool.not_eq_true, inStringRange_iff] using hvalid
  change execLswi rD rA nb s = _
  simp [execLswi, littleEndian_eq, hbe, hform, readString_of_plainBytes s _ _ _ hbe hplain]

theorem exec_lswx_valid (rD rA rB : Reg) (s : State) (hbe : manualBit s.msr 31 = false) (hn : xerCount s.xer ≠ 0)
    (hrA : ¬ StringFills rD (xerCount s.xer) rA) (hrB : ¬ StringFills rD (xerCount s.xer) rB)
    (hplain : plainBytes s (s.eaIndexed rA rB).toNat (xerCount s.xer) = true) :
    exec (.lswx rD rA rB) s =
      (s.loadString rD (s.physBytes (s.eaIndexed rA rB).toNat (xerCount s.xer))).advance := by
  have hform : lswxValid rD rA rB (xerCount s.xer) = true := by
    simpa [lswxValid, ← Bool.not_eq_true, inStringRange_iff] using ⟨hrA, hrB⟩
  change execLswx rD rA rB s = _
  simp [execLswx, littleEndian_eq, hbe, hn, hform, readString_of_plainBytes s _ _ _ hbe hplain]

/-- `lswx` of no bytes (R131). -/
theorem exec_lswx_zero (rD rA rB : Reg) (s : State) (hbe : manualBit s.msr 31 = false) (hn : xerCount s.xer = 0) :
    exec (.lswx rD rA rB) s = (s.loadNothing rD).advance := by
  change execLswx rD rA rB s = _
  simp [execLswx, littleEndian_eq, hbe, hn]

/-- The next state after a string load: the string is in the registers, everything else is unchanged. -/
theorem loadString_advance_completes (s : State) (rD : Reg) (a n : Nat) (hn : n ≤ 128) (hpc : s.pc ≠ 0xFFFFFFFC) :
    ∃ t, (s.loadString rD (s.physBytes a n)).advance = .next t ∧
      HoldsString t rD n (fun j => s.physRead (a + j)) ∧ SameGprs (fun r => ¬ StringFills rD n r) s t ∧
      SameFprs (fun _ => True) s t ∧ t.cr = s.cr ∧ t.xer = s.xer ∧ t.fpscr = s.fpscr ∧ t.pc = s.pc + 4 ∧
      SameSystem s t ∧ SameMemory s t := by
  have hsame := sameGprs_loadString s rD (s.physBytes a n)
  rw [physBytes_length] at hsame
  exact ⟨_, advance_eq _ (by simpa using hpc), holdsString_loadString s rD a n hn, hsame,
    readFpr_eq_of_fpr (by simp), by simp, by simp, by simp, by simp, by simp [SameSystem], by simp [SameMemory]⟩

/-- Settles O44: a valid string load is the loop of R130 on the bytes of memory; one of no bytes writes rD alone. -/
theorem stringLoadsComplete : Obligations.StringLoadsComplete := by
  refine ⟨fun rD rA nb s n hn hbe hvalid hplain hpc => ?lswi, fun rD rA rB s n hn hne hbe hrA hrB hplain hpc => ?lswx,
    fun rD rA rB s hn hbe hpc => ?nothing⟩
  case lswi =>
    rw [← stringCount_eq] at hn
    subst hn
    rw [exec_lswi_valid rD rA nb s hbe hvalid hplain]
    exact loadString_advance_completes s rD _ _ (stringCount_le nb) hpc
  case lswx =>
    rw [← xerCount_eq] at hn
    subst hn
    have hle : xerCount s.xer ≤ 128 := by rw [xerCount_eq]; omega
    rw [exec_lswx_valid rD rA rB s hbe hne hrA hrB hplain]
    exact loadString_advance_completes s rD _ _ hle hpc
  case nothing =>
    rw [← xerCount_eq] at hn
    rw [exec_lswx_zero rD rA rB s hbe hn]
    have hothers : SameGprs (· ≠ rD) s (s.loadNothing rD) := fun r hr =>
      (readGpr_writeGpr s rD r _).trans (if_neg (Ne.symm hr))
    exact ⟨_, advance_eq _ hpc, hothers, fun _ _ => rfl, rfl, rfl, rfl, rfl, by simp [SameSystem, State.loadNothing],
      fun _ => rfl, rfl⟩

/-! ### String stores that complete (R132, R133) -/

/-- The bytes of a string store from byte `k` on. -/
def State.stringSources (s : State) (rS : Reg) (k n : Nat) : List Byte := (List.range' k n).map (s.stringSource rS)

/-- A store of one byte in big-endian mode. -/
theorem memWrite_one (s : State) (w : Word) (a : Nat) (v : Byte) (hbe : manualBit s.msr 31 = false) (ha : a < 2 ^ 32)
    (hm : s.platform.mapped a = true) : s.memWrite w (BitVec.ofNat 32 a) 1 v = .ok (s.physWrite a v) := by
  have htoNat : (BitVec.ofNat 32 a).toNat = a := Nat.mod_eq_of_lt ha
  have hdata : s.dataAddress w (BitVec.ofNat 32 a) 1 = .ok (BitVec.ofNat 32 a) := by
    rw [dataAddress_eq_ok, htoNat, mappedRange_one]
    exact ⟨accessRaises_of_aligned s w _ 1 (Nat.mod_one _), (physicalAddress_bigEndian s _ 1 hbe).symm, by omega,
      hm⟩
  have hbyte : valueBytes 1 v = [v] := by simp [valueBytes]
  rw [(memWrite_eq_ok s _ w _ 1 v).mpr ⟨_, hdata, rfl⟩, htoNat, hbyte]
  rfl

/-- The loop of R132 over plain memory in big-endian mode is one write of the bytes. -/
theorem writeString_of_plainBytes (s : State) (w : Word) (src : State) (rS : Reg) (k a n : Nat)
    (hbe : manualBit s.msr 31 = false) (hplain : plainBytes s a n = true) :
    s.writeString w src rS k a n = .ok (s.physWriteBytes a (src.stringSources rS k n)) := by
  induction n generalizing s k a with
  | zero => rfl
  | succ n ih =>
    obtain ⟨hend, hmapped⟩ := (plainBytes_iff s a (n + 1)).mp hplain
    have hrest : plainBytes s (a + 1) n = true := (plainBytes_iff s (a + 1) n).mpr
      ⟨by omega, fun i hi => by rw [show a + 1 + i = a + (i + 1) by omega]; exact hmapped (i + 1) (by omega)⟩
    have hfirst := memWrite_one s w a (src.stringSource rS k) hbe (by omega) (hmapped 0 (by omega))
    rw [State.writeString, if_neg (by omega), hfirst]
    exact ih (s.physWrite a _) (k + 1) (a + 1) hbe hrest

/-- The next state after a string store: the bytes are in memory, everything else is unchanged. -/
theorem writeString_finish_completes (s : State) (w : Word) (rS : Reg) (a n : Nat) (hbe : manualBit s.msr 31 = false)
    (hw : Memory.wf s.mem = true) (hplain : plainBytes s a n = true) (hpc : s.pc ≠ 0xFFFFFFFC) :
    ∃ t, s.finish w (s.writeString w s rS 0 a n) = .next t ∧
      (∀ j, j < n → t.physRead (a + j) = byteOf (s.readGpr (rS + BitVec.ofNat 5 (j / 4))) (j % 4)) ∧
      SameMemoryBut a n s t ∧ SameGprs (fun _ => True) s t ∧ SameFprs (fun _ => True) s t ∧ t.cr = s.cr ∧
      t.xer = s.xer ∧ t.fpscr = s.fpscr ∧ t.pc = s.pc + 4 ∧ SameSystem s t := by
  have hlength : (s.stringSources rS 0 n).length = n := by simp [State.stringSources]
  rw [writeString_of_plainBytes s w s rS 0 a n hbe hplain, finish_ok]
  refine ⟨_, advance_eq _ (by simpa using hpc), fun j hj => ?bytes, fun b hb => ?others, readGpr_eq_of_gpr (by simp),
    readFpr_eq_of_fpr (by simp), by simp, by simp, by simp, by simp, sameSystem_physWriteBytes s a _ _⟩
  case bytes =>
    rw [physRead_withPc, physRead_physWriteBytes_same s a j _ hw (by omega), byteOf_eq_regByte]
    simp [State.stringSources, State.stringSource]
  case others => rw [physRead_withPc, physRead_physWriteBytes_other s a b _ (by omega)]

/-- Settles O45: in big-endian mode a string store is the loop of R132. -/
theorem stringStoresComplete : Obligations.StringStoresComplete := by
  refine ⟨fun rS rA nb s n hn hbe hw hplain hpc => ?stswi, fun rS rA rB s n hn hbe hw hplain hpc => ?stswx⟩
  case stswi =>
    have hexec : exec (.stswi rS rA nb) s = s.finish (encode (.stswi rS rA nb))
        (s.writeString (encode (.stswi rS rA nb)) s rS 0 (s.baseOrZero rA).toNat (stringCount nb)) :=
      if_neg (Bool.eq_false_iff.mp hbe)
    rw [hexec, stringCount_eq, ← hn]
    exact writeString_finish_completes s _ rS _ n hbe hw hplain hpc
  case stswx =>
    have hexec : exec (.stswx rS rA rB) s = s.finish (encode (.stswx rS rA rB))
        (s.writeString (encode (.stswx rS rA rB)) s rS 0 (s.eaIndexed rA rB).toNat (xerCount s.xer)) :=
      if_neg (Bool.eq_false_iff.mp hbe)
    rw [hexec, xerCount_eq, ← hn]
    exact writeString_finish_completes s _ rS _ n hbe hw hplain hpc

end Sys2Proof.Machine
end

section
/-! PROOFS. The update load, the multiples and `lscbx` (spec/40_load_store_single_multiple_string.md R122, R124, R126,
R127, R131, R134): the invalid forms are refused by their own check, before memory is touched; a valid form in big-endian
mode is its loop over plain memory, which for `lscbx` ends after the first byte equal to XER{16:23}. -/

namespace Sys2Proof.Machine

/-! ### The invalid forms (R122, R126, R127, R130, R131, R134) -/

theorem multipleValid_eq_false (first rA : Reg) : multipleValid first rA = false ↔ first.toNat ≤ rA.toNat := by
  rw [← Bool.not_eq_true, multipleValid_eq_true, Nat.not_lt]

theorem lswiValid_eq_true (rD rA : Reg) (nb : BitVec 5) :
    lswiValid rD rA nb = true ↔ ¬ StringFills rD (stringCount nb) rA := by
  rw [lswiValid, Bool.not_eq_true', ← Bool.not_eq_true, inStringRange_iff]

theorem lswxValid_eq_true (rD rA rB : Reg) (n : Nat) :
    lswxValid rD rA rB n = true ↔ ¬ StringFills rD n rA ∧ ¬ StringFills rD n rB := by
  rw [lswxValid, Bool.and_eq_true, Bool.not_eq_true', Bool.not_eq_true', ← Bool.not_eq_true, ← Bool.not_eq_true,
    inStringRange_iff, inStringRange_iff]

theorem lswxValid_eq_false (rD rA rB : Reg) (n : Nat) :
    lswxValid rD rA rB n = false ↔ StringFills rD n rA ∨ StringFills rD n rB := by
  rw [← Bool.not_eq_true, lswxValid_eq_true, not_and_or, not_not, not_not]

/-- A string that fills a register has a byte. -/
theorem ne_zero_of_stringFills {first r : Reg} {n : Nat} (h : StringFills first n r) : n ≠ 0 := by
  obtain ⟨j, hj, -⟩ := h
  omega

/-- A multiple whose base register is in its own range is refused in big-endian mode, at any address (R126, R127). -/
theorem finishMultiple_invalid (s : State) (w ea : Word) (first rA : Reg) (transfer : Access State)
    (hbe : manualBit s.msr 31 = false) (hrange : first.toNat ≤ rA.toNat) :
    s.finishMultiple w ea first rA transfer = .refused (.invalidForm w) := by
  rw [State.finishMultiple, littleEndian_eq, hbe, (multipleValid_eq_false first rA).mpr hrange]
  rfl

/-- Settles O30: of each instruction the check that its form meets, those before it being passed. -/
theorem invalidFormsRefused : Obligations.InvalidFormsRefused := by
  refine ⟨fun s rD rA rB hform => ?lwzux, fun s rD rA d hbe hrange => finishMultiple_invalid s _ _ rD rA _ hbe hrange,
    fun s rS rA d hbe hrange => finishMultiple_invalid s _ _ rS rA _ hbe hrange, fun s rD rA nb hbe hfills => ?lswi,
    fun s rD rA rB hbe hfills => ?lswx, fun s rD rA rB rc hbe hpresent hfills => ?lscbx,
    fun s rD rA rB rc hbe habsent => ?absent⟩
  case lwzux =>
    have hinvalid : lwzuxValid rD rA = false := by simpa [lwzuxValid, or_iff_not_imp_left] using hform
    change execLwzux rD rA rB s = _
    simp [execLwzux, hinvalid]
  case lswi =>
    rw [← stringCount_eq] at hfills
    have hinvalid : lswiValid rD rA nb = false :=
      Bool.eq_false_iff.mpr fun hvalid => (lswiValid_eq_true rD rA nb).mp hvalid hfills
    change execLswi rD rA nb s = _
    simp [execLswi, littleEndian_eq, hbe, hinvalid]
  case lswx =>
    rw [← xerCount_eq] at hfills
    have hcount : xerCount s.xer ≠ 0 := hfills.elim ne_zero_of_stringFills ne_zero_of_stringFills
    have hinvalid := (lswxValid_eq_false rD rA rB _).mpr hfills
    change execLswx rD rA rB s = _
    simp [execLswx, littleEndian_eq, hbe, hcount, hinvalid]
  case lscbx =>
    rw [← xerCount_eq] at hfills
    have hcount : xerCount s.xer ≠ 0 := hfills.elim ne_zero_of_stringFills ne_zero_of_stringFills
    have hinvalid := (lswxValid_eq_false rD rA rB _).mpr hfills
    change execLscbx rD rA rB rc s = _
    simp [execLscbx, littleEndian_eq, hbe, hpresent, hcount, hinvalid]
  case absent =>
    change execLscbx rD rA rB rc s = _
    simp [execLscbx, littleEndian_eq, hbe, habsent]

/-! ### `lwzux` (R122, R124) -/

/-- A word load that goes through writes the word at the physical address, whole, to its target (R120). -/
theorem loadGpr_four (s : State) (w ea : Word) (rD : Reg) (hacc : accessible s w ea 4 = true) :
    s.loadGpr w ea 4 .zero rD = .ok (s.writeGpr rD (wordAt s (s.physicalAddress ea 4).toNat)) :=
  (loadGpr_eq_ok s _ w ea 4 .zero rD).mpr
    ⟨_, memRead_four s w ea hacc, congrArg (s.writeGpr rD) (BitVec.setWidth_eq _).symm⟩

/-- Settles O37: the write of the target, then that of the base, which is another register. -/
theorem lwzuxCompletes : Obligations.LwzuxCompletes := by
  intro rD rA rB s h0 hne hpc hacc
  rw [exec_lwzux_valid rD rA rB s h0 hne, loadGpr_four s _ _ rD hacc]
  refine ⟨_, advance_eq _ hpc, ?target, readGpr_writeGpr_same _ rA _, fun r ⟨hrD, hrA⟩ => ?others, fun _ _ => rfl,
    rfl, rfl, rfl, rfl, by simp [SameSystem, State.updateBase], fun _ => rfl, rfl⟩
  case target => rw [readGpr_withPc, State.updateBase, readGpr_writeGpr, if_neg hne, readGpr_writeGpr_same]
  case others =>
    rw [readGpr_withPc, State.updateBase, readGpr_writeGpr, if_neg hrA.symm, readGpr_writeGpr, if_neg hrD.symm]

/-! ### Multiples that complete (R126, R127) -/

/-- A valid, aligned multiple that ends inside the address space passes the checks in big-endian mode. -/
theorem finishMultiple_valid (s : State) (w ea : Word) (first rA : Reg) (transfer : Access State)
    (hbe : manualBit s.msr 31 = false) (hvalid : rA.toNat < first.toNat) (ha : ea.toNat % 4 = 0)
    (hend : ea.toNat + 4 * multipleCount first ≤ 2 ^ 32) :
    s.finishMultiple w ea first rA transfer = s.finish w transfer := by
  rw [State.finishMultiple, littleEndian_eq, hbe, (multipleValid_eq_true first rA).mpr hvalid,
    (aligned_four_iff ea).mpr ha, if_neg (show ¬ ea.toNat + 4 * multipleCount first > 2 ^ 32 by omega)]
  rfl

/-- The registers of a multiple end with r31. -/
theorem toNat_add_multipleCount (first : Reg) : first.toNat + multipleCount first = 32 := by
  have := first.isLt
  unfold multipleCount
  omega

/-- The words of a multiple lie in plain memory: what the checks and the loop ask for (R66, D7). -/
theorem plainBytes_multiple_iff (s : State) (a : Nat) (first : Reg) :
    plainBytes s a (4 * (32 - first.toNat)) = true ↔
      a + 4 * multipleCount first ≤ 2 ^ 32 ∧ s.platform.mappedRange a (4 * multipleCount first) = true := by
  rw [plainBytes, Bool.and_eq_true, decide_eq_true_iff, multipleCount]

/-- Settles O42: R126's loop over plain memory, from rD to r31. -/
theorem lmwCompletes : Obligations.LmwCompletes := by
  intro rD rA d s hbe hvalid ha hplain hpc
  have hcount := toNat_add_multipleCount rD
  obtain ⟨hend, hmapped⟩ := (plainBytes_multiple_iff s _ rD).mp hplain
  obtain ⟨g, hload, hwords, hothers⟩ :=
    loadWords_ok_words s (encode (.lmw rD rA d)) (s.eaDisp rA d) rD _ hbe ha hend hmapped hcount.le
  have hexec : exec (.lmw rD rA d) s = ({ s with gpr := g } : State).advance :=
    (finishMultiple_valid s _ _ rD rA _ hbe hvalid ha hend).trans (congrArg (s.finish _) hload)
  exact ⟨_, hexec.trans (advance_eq _ hpc), fun r hr => hwords r hr (hcount.symm ▸ r.isLt),
    fun r hr => hothers r (.inl hr), fun _ _ => rfl, rfl, rfl, rfl, rfl, by simp [SameSystem], fun _ => rfl, rfl⟩

/-- Settles O43: R127's loop over plain memory, from rS to r31. -/
theorem stmwCompletes : Obligations.StmwCompletes := by
  intro rS rA d s hbe hvalid hw ha hplain hpc
  have hcount := toNat_add_multipleCount rS
  obtain ⟨hend, hmapped⟩ := (plainBytes_multiple_iff s _ rS).mp hplain
  obtain ⟨m, st, hstore, hwords, hothers⟩ :=
    storeWords_ok_words s (encode (.stmw rS rA d)) (s.eaDisp rA d) rS _ hbe hw ha hend hmapped hcount.le
  have hexec : exec (.stmw rS rA d) s = ({ s with mem := m, stored := st } : State).advance :=
    (finishMultiple_valid s _ _ rS rA _ hbe hvalid ha hend).trans (congrArg (s.finish _) hstore)
  exact ⟨_, hexec.trans (advance_eq _ hpc), fun r hr => hwords r hr (hcount.symm ▸ r.isLt), hothers,
    fun _ _ => rfl, fun _ _ => rfl, rfl, rfl, rfl, rfl, by simp [SameSystem]⟩

/-! ### What `lscbx` reads (R134) -/

theorem xerCompareByte_eq (xer : Word) : xerCompareByte xer = byteOf xer 2 := by
  refine BitVec.eq_of_getLsbD_eq fun k hk => ?_
  simp [xerCompareByte, byteOf, hk]

/-- In big-endian mode the `m` bytes of plain memory up to the first equal to `key`, or all `n` where none is, are what
R134 loads. -/
theorem readStringUntil_of_plainBytes (s : State) (w : Word) (key : Byte) (a n m : Nat)
    (hbe : manualBit s.msr 31 = false) (hplain : plainBytes s a m = true) (hm : 1 ≤ m) (hmn : m ≤ n)
    (hbefore : ∀ j, j + 1 < m → s.physRead (a + j) ≠ key) (hlast : m = n ∨ s.physRead (a + (m - 1)) = key) :
    s.readStringUntil w key a n = .ok (s.physBytes a m) := by
  induction m, hm using Nat.le_induction generalizing a n with
  | base =>
    obtain ⟨hend, hmapped⟩ := (plainBytes_iff s a 1).mp hplain
    have hbyte := (stringByte_eq_ok s w a _ hbe).mpr ⟨by omega, hmapped 0 (by omega), rfl⟩
    obtain ⟨n, rfl⟩ := Nat.exists_eq_add_of_le' hmn
    rw [State.readStringUntil, hbyte]
    by_cases hkey : s.physRead a = key
    · exact if_pos hkey
    · obtain rfl : n = 0 := by
        rcases hlast with hall | hmatch
        · omega
        · exact absurd hmatch hkey
      exact if_neg hkey
  | succ m hm ih =>
    obtain ⟨hend, hmapped⟩ := (plainBytes_iff s a (m + 1)).mp hplain
    have hbyte := (stringByte_eq_ok s w a _ hbe).mpr ⟨by omega, hmapped 0 (by omega), rfl⟩
    obtain ⟨n, rfl⟩ := Nat.exists_eq_add_of_le' (show 1 ≤ n by omega)
    have hshift : ∀ j, a + 1 + j = a + (j + 1) := fun j => by omega
    have hrest : s.readStringUntil w key (a + 1) n = .ok (s.physBytes (a + 1) m) := by
      refine ih (a + 1) n ((plainBytes_iff s (a + 1) m).mpr ⟨by omega, fun j hj => ?_⟩) (by omega) (fun j hj => ?_) ?_
      · rw [hshift]
        exact hmapped (j + 1) (by omega)
      · rw [hshift]
        exact hbefore (j + 1) (by omega)
      · rw [hshift, Nat.sub_add_cancel hm]
        exact hlast.imp_left (by omega)
    have hfirst : s.physRead a ≠ key := hbefore 0 (by omega)
    simp only [State.readStringUntil, hbyte, if_neg hfirst, hrest, State.physBytes]

/-- Of those bytes only the last can be equal to `key`. -/
theorem contains_physBytes (s : State) (key : Byte) (a m : Nat) (hm : 1 ≤ m)
    (hbefore : ∀ j, j + 1 < m → s.physRead (a + j) ≠ key) :
    (s.physBytes a m).contains key = decide (s.physRead (a + (m - 1)) = key) := by
  rw [Bool.eq_iff_iff, List.contains_iff_mem, List.mem_iff_getElem, decide_eq_true_iff]
  simp only [physBytes_getElem, physBytes_length]
  constructor
  · rintro ⟨j, hj, hmatch⟩
    obtain rfl : j = m - 1 := by
      by_contra hne
      exact hbefore j (by omega) hmatch
    exact hmatch
  · exact fun hmatch => ⟨m - 1, by omega, hmatch⟩

/-! ### What `lscbx` writes to XER and CR0 (R134) -/

/-- XER after its count is written: the count, and above it the bits that were there (R134). -/
theorem toNat_xerSetCount (xer : Word) {n : Nat} (hn : n < 128) :
    (xerSetCount xer n).toNat = 128 * (xer.toNat / 128) + n := by
  have hhigh : (xer.extractLsb 31 7).toNat = xer.toNat / 128 := by
    rw [BitVec.extractLsb_toNat, Nat.shiftRight_eq_div_pow]
    have := xer.isLt
    omega
  have hlow : (BitVec.ofNat 7 n).toNat = n := Nat.mod_eq_of_lt hn
  rw [xerSetCount, BitVec.toNat_append, ← Nat.shiftLeft_add_eq_or_of_lt (BitVec.isLt _), hhigh, hlow, Nat.shiftLeft_eq]
  omega

/-- Writing the count that is there changes nothing. -/
theorem xerSetCount_of_count (xer : Word) {n : Nat} (hn : xerCount xer = n) : xerSetCount xer n = xer := by
  rw [xerCount_eq] at hn
  exact BitVec.eq_of_toNat_eq ((toNat_xerSetCount xer (by omega)).trans (by omega))

/-- The bits of CR0, from the left (R26). -/
theorem getLsbD_crField_zero (cr : Word) (i : Nat) (hi : i < 4) : (crField cr 0).getLsbD (3 - i) = manualBit cr i := by
  rw [crField, BitVec.getLsbD_extractLsb', decide_eq_true (show 3 - i < 4 by omega), Bool.true_and, manualBit]
  congr 1
  change 28 - 4 * 0 + (3 - i) = 31 - i
  omega

/-- With the record bit the EQ bit of CR0 says whether a byte matched, and no other bit of CR changes. -/
theorem manualBit_lscbxResult_cr (s : State) (n : Nat) (found : Bool) {i : Nat} (hi : i < 32) :
    manualBit (s.lscbxResult n found true).cr i = if i = 2 then found else manualBit s.cr i := by
  obtain ⟨hlt, hgt, heq, hso⟩ := crFieldIs_crSetField s (s.lscbxResult n found true) 0 _ _ _ _ rfl
  match i, hi with
  | 0, _ => exact hlt.trans (getLsbD_crField_zero s.cr 0 (by omega))
  | 1, _ => exact hgt.trans (getLsbD_crField_zero s.cr 1 (by omega))
  | 2, _ => exact heq
  | 3, _ => exact hso.trans (getLsbD_crField_zero s.cr 3 (by omega))
  | i + 4, hi =>
    rw [if_neg (by omega)]
    exact sameCrBut_crSetField s _ 0 _ rfl (i + 4) hi (show (i + 4) / 4 ≠ 0 by omega)

/-- What the record bit of `lscbx` does: without it CR is unchanged. -/
theorem lscbxResult_record (s : State) (n : Nat) (found rc : Bool) :
    (rc = false → (s.lscbxResult n found rc).cr = s.cr) ∧
    (rc = true → manualBit (s.lscbxResult n found rc).cr 2 = found ∧
      ∀ i, i < 32 → i ≠ 2 → manualBit (s.lscbxResult n found rc).cr i = manualBit s.cr i) := by
  cases rc with
  | false => exact ⟨fun _ => rfl, nofun⟩
  | true =>
    exact ⟨nofun, fun _ => ⟨(manualBit_lscbxResult_cr s n found (by omega)).trans (if_pos rfl),
      fun i hi hne => (manualBit_lscbxResult_cr s n found hi).trans (if_neg hne)⟩⟩

@[simp] theorem readGpr_lscbxResult (s : State) (n : Nat) (found rc : Bool) (r : Reg) :
    (s.lscbxResult n found rc).readGpr r = s.readGpr r := readGpr_congr (by simp) r

/-! ### `lscbx` that completes (R134) -/

/-- A valid `lscbx` of at least one byte: R130's loop on the `m` bytes up to the first that matches. -/
theorem exec_lscbx_valid (rD rA rB : Reg) (rc : Bool) (s : State) (m : Nat) (hbe : manualBit s.msr 31 = false)
    (hpresent : s.platform.lscbxPresent = true) (hn : xerCount s.xer ≠ 0) (hrA : ¬ StringFills rD (xerCount s.xer) rA)
    (hrB : ¬ StringFills rD (xerCount s.xer) rB)
    (hread : s.readStringUntil (encode (.lscbx rD rA rB rc)) (xerCompareByte s.xer) (s.eaIndexed rA rB).toNat
      (xerCount s.xer) = .ok (s.physBytes (s.eaIndexed rA rB).toNat m)) :
    exec (.lscbx rD rA rB rc) s =
      ((s.loadString rD (s.physBytes (s.eaIndexed rA rB).toNat m)).lscbxResult m
        ((s.physBytes (s.eaIndexed rA rB).toNat m).contains (xerCompareByte s.xer)) rc).advance := by
  have hform := (lswxValid_eq_true rD rA rB _).mpr ⟨hrA, hrB⟩
  change execLscbx rD rA rB rc s = _
  simp [execLscbx, littleEndian_eq, hbe, hpresent, hn, hform, hread]

/-- `lscbx` of no bytes. -/
theorem exec_lscbx_zero (rD rA rB : Reg) (rc : Bool) (s : State) (hbe : manualBit s.msr 31 = false)
    (hpresent : s.platform.lscbxPresent = true) (hn : xerCount s.xer = 0) :
    exec (.lscbx rD rA rB rc) s = ((s.loadNothing rD).lscbxResult 0 false rc).advance := by
  change execLscbx rD rA rB rc s = _
  simp [execLscbx, littleEndian_eq, hbe, hpresent, hn]

/-- Settles O46: the string load of `lswx` on the bytes up to the first that matches, then the results in XER and CR0. -/
theorem lscbxCompletes : Obligations.LscbxCompletes := by
  refine ⟨fun rD rA rB rc s n m key hn hkey hbe hpresent hrA hrB hm hmn hbefore hlast hplain hpc => ?bytes,
    fun rD rA rB rc s hn hbe hpresent hpc => ?nothing⟩
  case bytes =>
    rw [← xerCount_eq] at hn
    rw [← xerCompareByte_eq] at hkey
    subst hn hkey
    have hcount : xerCount s.xer < 128 := by rw [xerCount_eq]; omega
    have hread := readStringUntil_of_plainBytes s (encode (.lscbx rD rA rB rc)) _ _ _ m hbe hplain hm hmn hbefore hlast
    have hexec := exec_lscbx_valid rD rA rB rc s m hbe hpresent (by omega) hrA hrB hread
    rw [contains_physBytes s _ _ m hm hbefore] at hexec
    have hstring := holdsString_loadString s rD (s.eaIndexed rA rB).toNat m (by omega)
    have hothers := sameGprs_loadString s rD (s.physBytes (s.eaIndexed rA rB).toNat m)
    rw [physBytes_length] at hothers
    have hxer := toNat_xerSetCount s.xer (show m < 128 by omega)
    obtain ⟨hcr, hrecord⟩ := lscbxResult_record (s.loadString rD (s.physBytes (s.eaIndexed rA rB).toNat m)) m
      (decide (s.physRead ((s.eaIndexed rA rB).toNat + (m - 1)) = xerCompareByte s.xer)) rc
    rw [loadString_cr] at hcr hrecord
    refine ⟨_, hexec.trans (advance_eq _ (by simpa using hpc)), fun j hj => ?string, fun r hr => ?others, ?count, ?rest,
      hcr, hrecord, readFpr_eq_of_fpr (by simp), by simp, by simp, by simp [SameSystem],
      fun b => physRead_congr (by simp) b, by simp⟩
    case string =>
      rw [readGpr_withPc, readGpr_lscbxResult]
      exact hstring j hj
    case others =>
      rw [readGpr_withPc, readGpr_lscbxResult]
      exact hothers r hr
    case count =>
      rw [withPc_xer, lscbxResult_xer, loadString_xer, hxer]
      omega
    case rest =>
      rw [withPc_xer, lscbxResult_xer, loadString_xer, hxer]
      omega
  case nothing =>
    rw [← xerCount_eq] at hn
    obtain ⟨hcr, hrecord⟩ := lscbxResult_record (s.loadNothing rD) 0 false rc
    refine ⟨_, (exec_lscbx_zero rD rA rB rc s hbe hpresent hn).trans (advance_eq _ (by simpa using hpc)),
      fun r hr => ?others, ?count, hcr, hrecord, readFpr_eq_of_fpr (by simp), by simp, by simp, by simp [SameSystem],
      fun b => physRead_congr (by simp) b, by simp⟩
    case others =>
      rw [readGpr_withPc, readGpr_lscbxResult]
      exact (readGpr_writeGpr s rD r _).trans (if_neg (Ne.symm hr))
    case count =>
      rw [withPc_xer, lscbxResult_xer, loadNothing_xer]
      exact xerSetCount_of_count s.xer hn

end Sys2Proof.Machine
end

section
/-! PROOFS. The user level and the supervisor-level special registers (spec/41_branch_and_other_named_instructions.md R162,
R294): the state operations that leave those registers alone, then each instruction; only `mtspr` writes one, after its
privilege check. Then `subi` (R160), `b` (R151), and the words that the spec writes out. -/

namespace Sys2Proof.Machine

/-! ### State operations that leave the supervisor-level special registers alone -/

/-- Every supervisor-level special register reads in `u` as in `s`. -/
def SameSupervisorSprs (s u : State) : Prop := ∀ n, sprSupervisor n = true → u.readSpr n = s.readSpr n

/-- XER, LR and CTR are no supervisor-level registers, so a state may differ in them. -/
theorem sameSupervisorSprs_of_fields {s u : State} (hdsisr : u.dsisr = s.dsisr) (hdar : u.dar = s.dar)
    (hsrr0 : u.srr0 = s.srr0) (hsrr1 : u.srr1 = s.srr1) (hother : u.otherSpr = s.otherSpr) :
    SameSupervisorSprs s u := by
  intro n hsuper
  have hxer : n ≠ sprXer := by rintro rfl; cases hsuper
  have hlr : n ≠ sprLr := by rintro rfl; cases hsuper
  have hctr : n ≠ sprCtr := by rintro rfl; cases hsuper
  simp only [State.readSpr, hxer, hlr, hctr, hdsisr, hdar, hsrr0, hsrr1, hother, if_false]

theorem SameSupervisorSprs.trans {s u t : State} (h : SameSupervisorSprs s u) (k : SameSupervisorSprs u t) :
    SameSupervisorSprs s t := fun n hsuper => (k n hsuper).trans (h n hsuper)

theorem sameSupervisorSprs_physWriteBytes (s : State) (a : Nat) (l : List Byte) :
    SameSupervisorSprs s (s.physWriteBytes a l) :=
  sameSupervisorSprs_of_fields (by simp) (by simp) (by simp) (by simp) (by simp)

theorem sameSupervisorSprs_writesOf (s : State) (l : List (Nat × List Byte)) : SameSupervisorSprs s (writesOf s l) := by
  induction l generalizing s with
  | nil => exact fun _ _ => rfl
  | cons p rest ih => exact (sameSupervisorSprs_physWriteBytes s p.1 p.2).trans (ih (s.physWriteBytes p.1 p.2))

theorem sameSupervisorSprs_memWrite {m n : Nat} {s u : State} {w ea : Word} {v : BitVec m}
    (h : s.memWrite w ea n v = .ok u) : SameSupervisorSprs s u := by
  obtain ⟨a, -, rfl⟩ := (memWrite_eq_ok s u w ea n v).mp h
  exact sameSupervisorSprs_physWriteBytes s a.toNat _

theorem sameSupervisorSprs_storeWords {s u : State} {w ea : Word} {r : Reg} {n : Nat}
    (h : s.storeWords w ea r n = .ok u) : SameSupervisorSprs s u := by
  obtain ⟨l, rfl, -⟩ := storeWords_ok s u w ea r n h
  exact sameSupervisorSprs_writesOf s l

theorem sameSupervisorSprs_writeString {s u src : State} {w : Word} {r : Reg} {k a n : Nat}
    (h : s.writeString w src r k a n = .ok u) : SameSupervisorSprs s u := by
  obtain ⟨l, rfl, -⟩ := writeString_ok s u w src r k a n h
  exact sameSupervisorSprs_writesOf s l

theorem sameSupervisorSprs_loadWords {s u : State} {w ea : Word} {r : Reg} {n : Nat}
    (h : s.loadWords w ea r n = .ok u) : SameSupervisorSprs s u := by
  obtain ⟨g, rfl⟩ := loadWords_ok_frame s u w ea r n h
  exact fun _ _ => rfl

theorem sameSupervisorSprs_loadString (s : State) (r : Reg) (l : List Byte) :
    SameSupervisorSprs s (s.loadString r l) :=
  sameSupervisorSprs_of_fields (by simp) (by simp) (by simp) (by simp) (by simp)

/-- The results of `lscbx` are in XER and CR0 (R134). -/
theorem sameSupervisorSprs_lscbxResult (s : State) (n : Nat) (found rc : Bool) :
    SameSupervisorSprs s (s.lscbxResult n found rc) :=
  sameSupervisorSprs_of_fields (by simp) (by simp) (by simp) (by simp) (by simp)

theorem sameSupervisorSprs_stfsDrawn (s : State) (d : Double) : SameSupervisorSprs s (s.stfsDrawn d) := by
  obtain ⟨k, hk⟩ := stfsDrawn_eq s d
  rw [hk]
  exact fun _ _ => rfl

theorem sameSupervisorSprs_applyFp {s u : State} {frD : Reg} {rc : Bool} {o : FpOutcome}
    (h : s.applyFp frD rc o = .ok u) : SameSupervisorSprs s u := by
  obtain ⟨d, f, c, rfl, -⟩ := applyFp_eq_ok s u frD rc o h
  exact sameSupervisorSprs_of_fields (by simp) (by simp) (by simp) (by simp) (by simp)

/-- A write of a user-level special register is none of a supervisor-level one. -/
theorem sameSupervisorSprs_writeSpr (s : State) (n : BitVec 10) (v : Word) (huser : sprSupervisor n = false) :
    SameSupervisorSprs s (s.writeSpr n v) := by
  intro m hsuper
  refine readSpr_writeSpr_other s n m v ?_
  rintro rfl
  exact absurd hsuper (Bool.eq_false_iff.mp huser)

/-! ### Outcomes that protect those registers -/

/-- A next state of `o`, an outcome of an instruction in `s`, has the supervisor-level special registers of `s`, or is the
entry of an exception. -/
def Protects (s : State) (o : Host.Outcome State Fault Refusal) : Prop :=
  ∀ t, o = .next t → SameSupervisorSprs s t ∨ EntersException s t

section
variable {s u : State}

theorem protects_advance (h : SameSupervisorSprs s u) : Protects s u.advance := by
  intro t ht
  obtain ⟨-, rfl⟩ := (advance_eq_next u t).mp ht
  exact .inl h

theorem protects_branchRelative (s : State) (disp : Word) : Protects s (.next (s.branchRelative disp)) := by
  intro t ht
  cases ht
  exact .inl fun _ _ => rfl

theorem protects_raise (s : State) (w : Word) (e : Exc) : Protects s (s.raise w e) :=
  fun t ht => .inr ⟨w, e, (raise_eq_next s t w e).mp ht⟩

theorem protects_refused (s : State) (r : Refusal) : Protects s (.refused r) := by
  intro t ht
  cases ht

theorem protects_finish (w : Word) {x : Access State} (h : ∀ u, x = .ok u → SameSupervisorSprs s u) :
    Protects s (s.finish w x) := by
  cases x with
  | ok u => exact protects_advance (h u rfl)
  | raise e => exact protects_raise s w e
  | refuse r => exact protects_refused s r

theorem protects_finishMultiple (w ea : Word) (first rA : Reg) {x : Access State}
    (h : ∀ u, x = .ok u → SameSupervisorSprs s u) : Protects s (s.finishMultiple w ea first rA x) := by
  intro t ht
  obtain ⟨-, hgo, rfl⟩ | ⟨-, -, -, -, hfinish⟩ := (finishMultiple_eq_next s t w ea first rA x).mp ht
  · exact .inr ⟨w, .alignment ea, hgo, rfl⟩
  · exact protects_finish w h t hfinish

end

/-! ### Each instruction -/

section
variable (s : State)

theorem execBeq_protects (crf : BitVec 3) (bd : BitVec 14) : Protects s (execBeq crf bd s) := by
  unfold execBeq
  split
  · exact protects_branchRelative s _
  · exact protects_advance fun _ _ => rfl

theorem execLwzux_protects (rD rA rB : Reg) : Protects s (execLwzux rD rA rB s) := by
  unfold execLwzux
  dsimp only
  split
  · exact protects_refused s _
  intro t ht
  obtain ⟨u, hload, hu⟩ | ⟨e, -, hentry⟩ := (finishUpdate_eq_next s t _ _ _ _).mp ht
  · obtain ⟨v, -, rfl⟩ := (loadGpr_eq_ok s u _ _ _ _ _).mp hload
    refine protects_advance ?_ t hu
    exact fun _ _ => rfl
  · exact .inr ⟨_, e, hentry⟩

theorem execAdd_protects (rD rA rB : Reg) (rc : Bool) : Protects s (execAdd rD rA rB rc s) := by
  cases rc with
  | false => exact protects_advance fun _ _ => rfl
  | true => exact protects_advance fun _ _ => rfl

theorem execLscbx_protects (rD rA rB : Reg) (rc : Bool) : Protects s (execLscbx rD rA rB rc s) := by
  unfold execLscbx
  dsimp only
  split
  · exact protects_raise s _ _
  split
  · exact protects_refused s _
  split
  · exact protects_advance (sameSupervisorSprs_lscbxResult (s.loadNothing rD) 0 false rc)
  split
  · exact protects_refused s _
  split
  next bytes _ =>
    exact protects_advance
      ((sameSupervisorSprs_loadString s rD bytes).trans (sameSupervisorSprs_lscbxResult _ _ _ rc))
  · exact protects_raise s _ _
  · exact protects_refused s _

/-- The privilege check of R162: at user level what is written is a user-level register. -/
theorem execMtspr_protects (huser : s.userLevel = true) (spr : BitVec 10) (rS : Reg) :
    Protects s (execMtspr spr rS s) := by
  unfold execMtspr
  dsimp only
  split
  · exact protects_raise s _ _
  next hcheck =>
    rw [huser, Bool.true_and, Bool.not_eq_true] at hcheck
    exact protects_advance (sameSupervisorSprs_writeSpr s spr _ hcheck)

theorem execLswx_protects (rD rA rB : Reg) : Protects s (execLswx rD rA rB s) := by
  unfold execLswx
  dsimp only
  split
  · exact protects_raise s _ _
  split
  · exact protects_advance fun _ _ => rfl
  split
  · exact protects_refused s _
  split
  next bytes _ => exact protects_advance (sameSupervisorSprs_loadString s rD bytes)
  · exact protects_raise s _ _
  · exact protects_refused s _

theorem execLswi_protects (rD rA : Reg) (nb : BitVec 5) : Protects s (execLswi rD rA nb s) := by
  unfold execLswi
  dsimp only
  split
  · exact protects_raise s _ _
  split
  · exact protects_refused s _
  split
  next bytes _ => exact protects_advance (sameSupervisorSprs_loadString s rD bytes)
  · exact protects_raise s _ _
  · exact protects_refused s _

theorem execStswx_protects (rS rA rB : Reg) : Protects s (execStswx rS rA rB s) := by
  unfold execStswx
  dsimp only
  split
  · exact protects_raise s _ _
  · exact protects_finish _ fun _ => sameSupervisorSprs_writeString

theorem execStswi_protects (rS rA : Reg) (nb : BitVec 5) : Protects s (execStswi rS rA nb s) := by
  unfold execStswi
  dsimp only
  split
  · exact protects_raise s _ _
  · exact protects_finish _ fun _ => sameSupervisorSprs_writeString

theorem execLfs_protects (frD rA : Reg) (d : BitVec 16) : Protects s (execLfs frD rA d s) := by
  unfold execLfs
  dsimp only
  split
  · exact protects_advance fun _ _ => rfl
  · exact protects_raise s _ _
  · exact protects_refused s _

theorem execStfs_protects (frS rA : Reg) (d : BitVec 16) : Protects s (execStfs frS rA d s) := by
  unfold execStfs
  dsimp only
  split
  next u hu => exact protects_advance ((sameSupervisorSprs_memWrite hu).trans (sameSupervisorSprs_stfsDrawn u _))
  · exact protects_raise s _ _
  · exact protects_refused s _

/-- At user level every instruction protects the supervisor-level special registers. -/
theorem exec_protects (huser : s.userLevel = true) (i : Instr) : Protects s (exec i s) := by
  cases i with
  | cmplwi => exact protects_advance fun _ _ => rfl
  | subi => exact protects_advance fun _ _ => rfl
  | beq crf bd => exact execBeq_protects s crf bd
  | b li => exact protects_branchRelative s _
  | lwzux rD rA rB => exact execLwzux_protects s rD rA rB
  | add rD rA rB rc => exact execAdd_protects s rD rA rB rc
  | lscbx rD rA rB rc => exact execLscbx_protects s rD rA rB rc
  | mtspr spr rS => exact execMtspr_protects s huser spr rS
  | lswx rD rA rB => exact execLswx_protects s rD rA rB
  | lswi rD rA nb => exact execLswi_protects s rD rA nb
  | stswx rS rA rB => exact execStswx_protects s rS rA rB
  | stswi rS rA nb => exact execStswi_protects s rS rA nb
  | stw rS rA d => exact protects_finish _ fun _ => sameSupervisorSprs_memWrite
  | lmw rD rA d => exact protects_finishMultiple _ _ _ _ fun _ => sameSupervisorSprs_loadWords
  | stmw rS rA d => exact protects_finishMultiple _ _ _ _ fun _ => sameSupervisorSprs_storeWords
  | lfs frD rA d => exact execLfs_protects s frD rA d
  | stfs frS rA d => exact execStfs_protects s frS rA d
  | frsp frD frB rc => exact protects_finish _ fun _ => sameSupervisorSprs_applyFp

end

/-- An exception entry writes the save registers, DSISR and DAR alone. -/
theorem readSpr_of_entersException {s t : State} (h : EntersException s t) (n : BitVec 10) :
    t.readSpr n = s.readSpr n ∨ SavedInto s n ∨ n = 18 ∨ n = 19 := by
  obtain ⟨w, e, -, rfl⟩ := h
  refine or_iff_not_imp_right.mpr fun hothers => ?_
  obtain ⟨hsaved, hrecord⟩ := not_or.mp hothers
  rw [readSpr_takeException_other s w e n hsaved,
    readSpr_recordAlignment_other s w e n (.inl (not_or.mp hrecord))]

/-- Settles O16: the step is one instruction at user level, and what is no entry of an exception changes none. -/
theorem userModeProtectsSupervisorRegisters : Obligations.UserModeProtectsSupervisorRegisters := by
  intro s t n _ hstep hlevels huser hsuper
  obtain ⟨-, i, hexec⟩ := step_eq_next hstep
  have huserLevel : s.userLevel = true := by rw [userLevel_eq, hlevels, huser, Bool.and_self]
  obtain hsame | hentry := exec_protects s huserLevel i t hexec
  · exact .inl (hsame n hsuper)
  · exact (readSpr_of_entersException hentry n).imp_right fun hwritten => ⟨hentry, hwritten⟩

/-! ### `subi` (R160) -/

/-- The signed number of a sum, from the unsigned number of one word and the signed one of the other. -/
theorem toInt_add_eq_bmod (a b : Word) : (a + b).toInt = Int.bmod ((a.toNat : Int) + b.toInt) (2 ^ 32) := by
  rw [BitVec.toInt_add, BitVec.toInt_eq_toNat_bmod a, Int.bmod_add_bmod]

/-- The base of an address as a number (R20, R108). -/
theorem toNat_baseOrZero (s : State) (rA : Reg) :
    ((s.baseOrZero rA).toNat : Int) = if rA = 0 then 0 else ((s.readGpr rA).toNat : Int) := by
  unfold State.baseOrZero
  split <;> rfl

/-- Settles O32: one general register is written, and then the instruction address advances. -/
theorem subiCompletes : Obligations.SubiCompletes := by
  intro rD rA simm s hpc
  refine ⟨_, advance_eq _ hpc, ?sum, fun r hr => ?others, fun _ _ => rfl, rfl, rfl, rfl, rfl, by simp [SameSystem],
    by simp [SameMemory]⟩
  case sum =>
    have himm : (signedImm simm).toInt = simm.toInt := BitVec.toInt_signExtend_of_le (by omega)
    rw [readGpr_withPc, readGpr_writeGpr_same, toInt_add_eq_bmod, toNat_baseOrZero, himm]
  case others => exact (readGpr_writeGpr s rD r _).trans (if_neg (Ne.symm hr))

/-! ### `b` (R151) -/

/-- Settles O34: the displacement is four times LI, and a branch writes the instruction address alone. -/
theorem branchCompletes : Obligations.BranchCompletes := by
  intro li s
  rw [← branchDispI_eq_ofInt]
  exact ⟨_, rfl, rfl, rfl⟩

/-! ### Words the spec writes out -/

theorem decodeWord_of_encode_eq {i : Instr} {w : Word} (h : encode i = w) : decodeWord w = some i :=
  h ▸ decodeWord_encode i

/-- Settles O4: each word is the encoding of its instruction, from which the decoder reads the instruction back (O1). -/
theorem listingWordsDecode : Obligations.ListingWordsDecode :=
  ⟨decodeWord_of_encode_eq rfl, decodeWord_of_encode_eq rfl, decodeWord_of_encode_eq rfl, decodeWord_of_encode_eq rfl,
    decodeWord_of_encode_eq rfl, decodeWord_of_encode_eq rfl, decodeWord_of_encode_eq rfl, decodeWord_of_encode_eq rfl,
    decodeWord_of_encode_eq rfl, decodeWord_of_encode_eq rfl, decodeWord_of_encode_eq rfl, decodeWord_of_encode_eq rfl,
    decodeWord_of_encode_eq rfl, decodeWord_of_encode_eq rfl⟩

end Sys2Proof.Machine
end

section
/-! PROOFS. The floating-point formats (spec/42_fp_data_formats.md R172, R173, R178, R192; spec/43_fp_data_handling.md R218,
R219): patterns and their fields, the conversions between the formats on fields, which doubles are representable, and the
values of converted patterns. -/

namespace Sys2Proof.Machine

/-! ### Patterns and their fields (R172, R173) -/

theorem ofBool_getLsbD {n : Nat} (x : BitVec n) (i : Nat) : BitVec.ofBool (x.getLsbD i) = x.extractLsb' i 1 := by
  refine BitVec.eq_of_getLsbD_eq fun j hj => ?_
  obtain rfl : j = 0 := by omega
  simp

/-- A double is made of its fields. -/
theorem packDouble_fields (d : Double) :
    packDouble (d.getLsbD 63) (d.extractLsb 62 52) (d.extractLsb 51 0) = d := by
  rw [packDouble, ofBool_getLsbD]
  change d.extractLsb' 63 1 ++ d.extractLsb' 52 11 ++ d.extractLsb' 0 52 = d
  simp only [BitVec.extractLsb'_append_extractLsb'_eq_extractLsb', BitVec.extractLsb'_eq_self]

/-- A single is made of its fields. -/
theorem packSingle_fields (w : Word) :
    packSingle (w.getLsbD 31) (w.extractLsb 30 23) (w.extractLsb 22 0) = w := by
  rw [packSingle, ofBool_getLsbD]
  change w.extractLsb' 31 1 ++ w.extractLsb' 23 8 ++ w.extractLsb' 0 23 = w
  simp only [BitVec.extractLsb'_append_extractLsb'_eq_extractLsb', BitVec.extractLsb'_eq_self]

section
variable (neg : Bool) (e : BitVec 11) (f : BitVec 52)

theorem toNat_packDouble : (packDouble neg e f).toNat = neg.toNat * 2 ^ 63 + e.toNat * 2 ^ 52 + f.toNat := by
  rw [packDouble, BitVec.toNat_append, BitVec.toNat_append, ← Nat.shiftLeft_add_eq_or_of_lt f.isLt,
    ← Nat.shiftLeft_add_eq_or_of_lt e.isLt, BitVec.toNat_ofBool]
  simp only [Nat.shiftLeft_eq]
  omega

theorem getLsbD_packDouble : (packDouble neg e f).getLsbD 63 = neg := by
  simp only [packDouble, BitVec.getLsbD_append]
  simp

theorem extractLsb_packDouble_exp : (packDouble neg e f).extractLsb 62 52 = e := by
  apply BitVec.eq_of_toNat_eq
  rw [BitVec.extractLsb_toNat, toNat_packDouble, Nat.shiftRight_eq_div_pow]
  have := e.isLt
  have := f.isLt
  omega

theorem extractLsb_packDouble_frac : (packDouble neg e f).extractLsb 51 0 = f := by
  apply BitVec.eq_of_toNat_eq
  rw [BitVec.extractLsb_toNat, toNat_packDouble, Nat.shiftRight_eq_div_pow]
  have := f.isLt
  omega

end

section
variable (neg : Bool) (e : BitVec 8) (f : BitVec 23)

theorem toNat_packSingle : (packSingle neg e f).toNat = neg.toNat * 2 ^ 31 + e.toNat * 2 ^ 23 + f.toNat := by
  rw [packSingle, BitVec.toNat_append, BitVec.toNat_append, ← Nat.shiftLeft_add_eq_or_of_lt f.isLt,
    ← Nat.shiftLeft_add_eq_or_of_lt e.isLt, BitVec.toNat_ofBool]
  simp only [Nat.shiftLeft_eq]
  omega

theorem getLsbD_packSingle : (packSingle neg e f).getLsbD 31 = neg := by
  simp only [packSingle, BitVec.getLsbD_append]
  simp

theorem extractLsb_packSingle_exp : (packSingle neg e f).extractLsb 30 23 = e := by
  apply BitVec.eq_of_toNat_eq
  rw [BitVec.extractLsb_toNat, toNat_packSingle, Nat.shiftRight_eq_div_pow]
  have := e.isLt
  have := f.isLt
  omega

theorem extractLsb_packSingle_frac : (packSingle neg e f).extractLsb 22 0 = f := by
  apply BitVec.eq_of_toNat_eq
  rw [BitVec.extractLsb_toNat, toNat_packSingle, Nat.shiftRight_eq_div_pow]
  have := f.isLt
  omega

end

@[simp] theorem doubleFields_packDouble (neg : Bool) (e : BitVec 11) (f : BitVec 52) :
    doubleFields (packDouble neg e f) = ⟨neg, e.toNat, f.toNat⟩ := by
  simp only [doubleFields, getLsbD_packDouble, extractLsb_packDouble_exp, extractLsb_packDouble_frac]

@[simp] theorem singleFields_packSingle (neg : Bool) (e : BitVec 8) (f : BitVec 23) :
    singleFields (packSingle neg e f) = ⟨neg, e.toNat, f.toNat⟩ := by
  simp only [singleFields, getLsbD_packSingle, extractLsb_packSingle_exp, extractLsb_packSingle_frac]

theorem doubleFields_exp (d : Double) : (doubleFields d).exp = expField d := by
  rw [doubleFields, BitVec.extractLsb_toNat, Nat.shiftRight_eq_div_pow]
  rfl

theorem doubleFields_frac (d : Double) : (doubleFields d).frac = fracField d := by
  simp only [doubleFields, BitVec.extractLsb_toNat, Nat.shiftRight_eq_div_pow, fracField]
  omega

theorem isNaN_iff (d : Double) : isNaN d = true ↔ expField d = 2047 ∧ fracField d ≠ 0 := by
  rw [isNaN, doubleClass, fpClass, beq_iff_eq, doubleFields_exp, doubleFields_frac, formatExpMax]
  split_ifs <;> simp_all

theorem doubleClass_of_isNaN {d : Double} (h : isNaN d = true) : doubleClass d = .nan := eq_of_beq h

/-! ### The conversions on fields (R219) -/

/-- A 23-bit fraction as the high-order bits of a double's. -/
def widenFraction (f : BitVec 23) : BitVec 52 := f ++ 0#29

theorem toNat_widenFraction (f : BitVec 23) : (widenFraction f).toNat = f.toNat * 2 ^ 29 := by
  rw [widenFraction, BitVec.toNat_append, BitVec.toNat_ofNat, Nat.shiftLeft_eq, Nat.zero_mod, Nat.or_zero]

theorem extractLsb_packDouble_high (neg : Bool) (e : BitVec 11) (f : BitVec 52) :
    ((packDouble neg e f).extractLsb 51 29).toNat = f.toNat / 2 ^ 29 := by
  rw [BitVec.extractLsb_toNat, toNat_packDouble, Nat.shiftRight_eq_div_pow]
  have := f.isLt
  omega

@[simp] theorem extractLsb_packDouble_widenFraction (neg : Bool) (e : BitVec 11) (f : BitVec 23) :
    (packDouble neg e (widenFraction f)).extractLsb 51 29 = f := by
  apply BitVec.eq_of_toNat_eq
  rw [extractLsb_packDouble_high, toNat_widenFraction]
  omega

/-- A double fraction with 29 low-order zero bits is a widened one. -/
theorem exists_widenFraction {f : BitVec 52} (h : f.toNat % 2 ^ 29 = 0) : ∃ g, f = widenFraction g := by
  refine ⟨(packDouble false 0 f).extractLsb 51 29, BitVec.eq_of_toNat_eq ?_⟩
  rw [toNat_widenFraction, extractLsb_packDouble_high]
  omega

/-- The leading bit of a fraction that is not zero. -/
theorem log2_lt_of_ne_zero {f : BitVec 23} (h : f ≠ 0) : f.toNat.log2 < 23 :=
  (Nat.log2_lt (by simpa [BitVec.toNat_eq] using h)).mpr f.isLt

section
variable (neg : Bool)

theorem singleToDouble_maximal (f : BitVec 23) :
    singleToDouble (packSingle neg 255 f) = packDouble neg 2047 (widenFraction f) := by
  simp only [singleToDouble, getLsbD_packSingle, extractLsb_packSingle_exp, extractLsb_packSingle_frac]
  rfl

theorem singleToDouble_zero : singleToDouble (packSingle neg 0 0) = packDouble neg 0 (widenFraction 0) := by
  simp only [singleToDouble, getLsbD_packSingle, extractLsb_packSingle_exp, extractLsb_packSingle_frac]
  rfl

theorem singleToDouble_denormalized {f : BitVec 23} (h : f ≠ 0) :
    singleToDouble (packSingle neg 0 f) =
      packDouble neg (BitVec.ofNat 11 (874 + f.toNat.log2)) (widenFraction (f <<< (23 - f.toNat.log2))) := by
  have hlog := log2_lt_of_ne_zero h
  simp only [singleToDouble, getLsbD_packSingle, extractLsb_packSingle_exp, extractLsb_packSingle_frac, if_neg h,
    leadingZeros23, show 896 - (22 - f.toNat.log2) = 874 + f.toNat.log2 by omega,
    show 22 - f.toNat.log2 + 1 = 23 - f.toNat.log2 by omega]
  rfl

theorem singleToDouble_normalized {e : BitVec 8} (f : BitVec 23) (h0 : e ≠ 0) (h255 : e ≠ 255) :
    singleToDouble (packSingle neg e f) = packDouble neg (BitVec.ofNat 11 (e.toNat + 896)) (widenFraction f) := by
  simp only [singleToDouble, getLsbD_packSingle, extractLsb_packSingle_exp, extractLsb_packSingle_frac, if_neg h0,
    if_neg h255]
  rfl

theorem doubleToSingle_zero : doubleToSingle (packDouble neg 0 (widenFraction 0)) = packSingle neg 0 0 := by
  simp only [doubleToSingle, getLsbD_packDouble, doubleFields_packDouble]
  rfl

theorem doubleToSingle_maximal (f : BitVec 23) :
    doubleToSingle (packDouble neg 2047 (widenFraction f)) = packSingle neg 255 f := by
  simp only [doubleToSingle, getLsbD_packDouble, doubleFields_packDouble, extractLsb_packDouble_widenFraction]
  rfl

theorem doubleToSingle_normalized {e : BitVec 11} (f : BitVec 23) (h : 897 ≤ e.toNat) (h' : e.toNat ≠ 2047) :
    doubleToSingle (packDouble neg e (widenFraction f)) = packSingle neg (BitVec.ofNat 8 (e.toNat - 896)) f := by
  simp only [doubleToSingle, getLsbD_packDouble, doubleFields_packDouble, extractLsb_packDouble_widenFraction,
    if_neg h', if_pos h, if_neg (show e.toNat ≠ 0 by omega)]

theorem doubleToSingle_denormalized {e : BitVec 11} (f : BitVec 23) (h0 : e.toNat ≠ 0) (h : e.toNat < 897) :
    doubleToSingle (packDouble neg e (widenFraction f)) =
      packSingle neg 0 (BitVec.ofNat 23 ((2 ^ 23 + f.toNat) / 2 ^ (897 - e.toNat))) := by
  have hsignificand : (1#1 ++ f).toNat = 2 ^ 23 + f.toNat := by
    rw [BitVec.toNat_append, ← Nat.shiftLeft_add_eq_or_of_lt f.isLt]
    rfl
  simp only [doubleToSingle, getLsbD_packDouble, doubleFields_packDouble, extractLsb_packDouble_widenFraction,
    if_neg h0, if_neg (show e.toNat ≠ 2047 by omega), if_neg (show ¬ 897 ≤ e.toNat by omega)]
  congr 1
  apply BitVec.eq_of_toNat_eq
  rw [BitVec.toNat_setWidth, BitVec.toNat_ushiftRight, hsignificand, Nat.shiftRight_eq_div_pow, BitVec.toNat_ofNat]

end

/-! ### Which doubles are representable, by their exponents (R218, R219) -/

theorem reprSingle_packDouble_zero (neg : Bool) (f : BitVec 52) :
    reprSingle (packDouble neg 0 f) = true ↔ f = 0 := by
  simp [reprSingle, BitVec.toNat_eq]

theorem reprSingle_packDouble_wide {e : BitVec 11} (neg : Bool) (f : BitVec 52)
    (h : e.toNat = 2047 ∨ 897 ≤ e.toNat ∧ e.toNat ≤ 1150) :
    reprSingle (packDouble neg e f) = true ↔ f.toNat % 2 ^ 29 = 0 := by
  obtain h | h := h
  · simp [reprSingle, h]
    omega
  · simp [reprSingle, h, show e.toNat ≠ 0 by omega, show e.toNat ≠ 2047 by omega]

theorem reprSingle_packDouble_small {e : BitVec 11} (neg : Bool) (f : BitVec 52)
    (h : 874 ≤ e.toNat) (h' : e.toNat ≤ 896) :
    reprSingle (packDouble neg e f) = true ↔ f.toNat % 2 ^ (29 + (897 - e.toNat)) = 0 := by
  simp [reprSingle, h, h', show e.toNat ≠ 0 by omega, show e.toNat ≠ 2047 by omega, show ¬ 897 ≤ e.toNat by omega]

/-! ### A denormalized single, normalized (R219) -/

/-- The leading bit of a denormalized single's fraction, shifted out, is the implied bit of the double. -/
theorem denormalized_significand {f : BitVec 23} (h : f ≠ 0) :
    2 ^ 23 + (f <<< (23 - f.toNat.log2)).toNat = f.toNat * 2 ^ (23 - f.toNat.log2) := by
  obtain ⟨hle, hlt⟩ := (Nat.log2_eq_iff (by simpa [BitVec.toNat_eq] using h)).mp (rfl : f.toNat.log2 = _)
  have hlog := log2_lt_of_ne_zero h
  generalize f.toNat.log2 = l at *
  have hlow : 2 ^ 23 ≤ f.toNat * 2 ^ (23 - l) := by
    calc 2 ^ 23 = 2 ^ l * 2 ^ (23 - l) := by rw [← pow_add]; congr 1; omega
      _ ≤ f.toNat * 2 ^ (23 - l) := Nat.mul_le_mul_right _ hle
  have hhigh : f.toNat * 2 ^ (23 - l) < 2 ^ 24 := by
    calc f.toNat * 2 ^ (23 - l) < 2 ^ (l + 1) * 2 ^ (23 - l) := Nat.mul_lt_mul_of_pos_right hlt (by positivity)
      _ = 2 ^ 24 := by rw [← pow_add]; congr 1; omega
  rw [BitVec.toNat_shiftLeft, Nat.shiftLeft_eq]
  omega

/-- The exponent that a denormalized single gets in double format. -/
theorem toNat_denormalizedExponent {f : BitVec 23} (h : f ≠ 0) :
    (BitVec.ofNat 11 (874 + f.toNat.log2)).toNat = 874 + f.toNat.log2 ∧ f.toNat.log2 < 23 := by
  have hlog := log2_lt_of_ne_zero h
  exact ⟨Nat.mod_eq_of_lt (by omega), hlog⟩

/-- The exponent that a normalized single gets in double format. -/
theorem toNat_normalizedExponent {e : BitVec 8} (h0 : e ≠ 0) (h255 : e ≠ 255) :
    (BitVec.ofNat 11 (e.toNat + 896)).toNat = e.toNat + 896 ∧ e.toNat ≠ 0 ∧ e.toNat < 255 := by
  have h0' : e.toNat ≠ 0 := by simpa [BitVec.toNat_eq] using h0
  have h255' : e.toNat ≠ 255 := by simpa [BitVec.toNat_eq] using h255
  have hlt := e.isLt
  exact ⟨Nat.mod_eq_of_lt (by omega), h0', by omega⟩

/-- The leading bit of a number, from that of a shifted one. -/
theorem log2_of_mul_two_pow {m k n : Nat} (hk : k ≤ n) (hle : 2 ^ n ≤ m * 2 ^ k) (hlt : m * 2 ^ k < 2 ^ (n + 1)) :
    m.log2 = n - k := by
  obtain ⟨j, rfl⟩ := Nat.exists_eq_add_of_le' hk
  rw [pow_add] at hle
  rw [show j + k + 1 = j + 1 + k by omega, pow_add] at hlt
  have hlow : 2 ^ j ≤ m := Nat.le_of_mul_le_mul_right hle (by positivity)
  have hpos : 0 < 2 ^ j := by positivity
  rw [Nat.add_sub_cancel, Nat.log2_eq_iff (by omega)]
  exact ⟨hlow, Nat.lt_of_mul_lt_mul_right hlt⟩

/-- A double in the range of denormalized singles whose significand is `m` shifted: the single of fraction `m`. -/
theorem singleToDouble_of_significand {e : BitVec 11} (neg : Bool) {f : BitVec 23} {m : Nat} (h : 874 ≤ e.toNat)
    (h' : e.toNat ≤ 896) (hm : m * 2 ^ (897 - e.toNat) = 2 ^ 23 + f.toNat) :
    singleToDouble (packSingle neg 0 (BitVec.ofNat 23 m)) = packDouble neg e (widenFraction f) := by
  obtain ⟨k, hk, he⟩ : ∃ k, 897 - e.toNat = k ∧ e.toNat = 897 - k := ⟨_, rfl, by omega⟩
  rw [hk] at hm
  have hf := f.isLt
  have hlog : m.log2 = 23 - k := log2_of_mul_two_pow (by omega) (by omega) (by omega)
  have hpos : 0 < m := Nat.pos_of_mul_pos_right (by omega : 0 < m * 2 ^ k)
  have hlt : m < 2 ^ 23 := (Nat.log2_lt hpos.ne').mp (by omega)
  have hnat : (BitVec.ofNat 23 m).toNat = m := Nat.mod_eq_of_lt hlt
  have hne : BitVec.ofNat 23 m ≠ 0 := fun hzero => hpos.ne' (by simpa [hnat] using congrArg BitVec.toNat hzero)
  have hexp : BitVec.ofNat 11 (874 + m.log2) = e := BitVec.eq_of_toNat_eq (by rw [BitVec.toNat_ofNat]; omega)
  have hfrac : BitVec.ofNat 23 m <<< (23 - m.log2) = f := by
    apply BitVec.eq_of_toNat_eq
    rw [BitVec.toNat_shiftLeft, hnat, Nat.shiftLeft_eq, hlog, show 23 - (23 - k) = k by omega, hm]
    omega
  rw [singleToDouble_denormalized neg hne, hnat, hexp, hfrac]

/-- The kinds of single patterns that the conversion tells apart (R219). -/
theorem packSingle_cases {P : Word → Prop} (maximal : ∀ neg f, P (packSingle neg 255 f))
    (zero : ∀ neg, P (packSingle neg 0 0)) (denormalized : ∀ neg f, f ≠ 0 → P (packSingle neg 0 f))
    (normalized : ∀ neg e f, e ≠ 0 → e ≠ 255 → P (packSingle neg e f)) (w : Word) : P w := by
  rw [← packSingle_fields w]
  generalize w.getLsbD 31 = neg
  generalize w.extractLsb 22 0 = f
  generalize w.extractLsb 30 23 = e
  by_cases h255 : e = 255
  · exact h255 ▸ maximal neg f
  by_cases h0 : e = 0
  · subst h0
    by_cases hf : f = 0
    · exact hf ▸ zero neg
    · exact denormalized neg f hf
  · exact normalized neg e f h0 h255

theorem doubleToSingle_singleToDouble (w : Word) : doubleToSingle (singleToDouble w) = w := by
  induction w using packSingle_cases with
  | maximal neg f => rw [singleToDouble_maximal, doubleToSingle_maximal]
  | zero neg => rw [singleToDouble_zero, doubleToSingle_zero]
  | denormalized neg f hf =>
    obtain ⟨hexp, hlog⟩ := toNat_denormalizedExponent hf
    have hdiv : (2 ^ 23 + (f <<< (23 - f.toNat.log2)).toNat) / 2 ^ (23 - f.toNat.log2) = f.toNat := by
      rw [denormalized_significand hf, Nat.mul_div_cancel _ (by positivity)]
    rw [singleToDouble_denormalized neg hf, doubleToSingle_denormalized neg _ (by omega) (by omega), hexp,
      show 897 - (874 + f.toNat.log2) = 23 - f.toNat.log2 by omega, hdiv, BitVec.ofNat_toNat, BitVec.setWidth_eq]
  | normalized neg e f h0 h255 =>
    obtain ⟨hexp, hpos, hlt⟩ := toNat_normalizedExponent h0 h255
    rw [singleToDouble_normalized neg f h0 h255, doubleToSingle_normalized neg f (by omega) (by omega), hexp,
      Nat.add_sub_cancel, BitVec.ofNat_toNat, BitVec.setWidth_eq]

theorem toNat_shiftLeft_mod_two_pow {n : Nat} (x : BitVec n) {k : Nat} (hk : k ≤ n) : (x <<< k).toNat % 2 ^ k = 0 := by
  rw [BitVec.toNat_shiftLeft, Nat.shiftLeft_eq, Nat.mod_mod_of_dvd _ (Nat.pow_dvd_pow 2 hk), Nat.mul_mod_left]

theorem reprSingle_singleToDouble (w : Word) : reprSingle (singleToDouble w) = true := by
  have hwide (f : BitVec 23) : (widenFraction f).toNat % 2 ^ 29 = 0 := by rw [toNat_widenFraction]; omega
  induction w using packSingle_cases with
  | maximal neg f =>
    rw [singleToDouble_maximal]
    exact (reprSingle_packDouble_wide neg _ (.inl rfl)).mpr (hwide f)
  | zero neg =>
    rw [singleToDouble_zero]
    exact (reprSingle_packDouble_zero neg _).mpr rfl
  | denormalized neg f hf =>
    obtain ⟨hexp, hlog⟩ := toNat_denormalizedExponent hf
    rw [singleToDouble_denormalized neg hf, reprSingle_packDouble_small neg _ (by omega) (by omega), hexp,
      show 897 - (874 + f.toNat.log2) = 23 - f.toNat.log2 by omega, toNat_widenFraction, Nat.add_comm 29, pow_add,
      Nat.mul_mod_mul_right, toNat_shiftLeft_mod_two_pow f (by omega), Nat.zero_mul]
  | normalized neg e f h0 h255 =>
    obtain ⟨hexp, hpos, hlt⟩ := toNat_normalizedExponent h0 h255
    rw [singleToDouble_normalized neg f h0 h255]
    exact (reprSingle_packDouble_wide neg _ (.inr (by omega))).mpr (hwide f)


/-- The exponents of representable doubles (R218, R219). -/
theorem expField_of_reprSingle {neg : Bool} {e : BitVec 11} {f : BitVec 52}
    (h : reprSingle (packDouble neg e f) = true) :
    e.toNat = 0 ∨ (e.toNat = 2047 ∨ 897 ≤ e.toNat ∧ e.toNat ≤ 1150) ∨ 874 ≤ e.toNat ∧ e.toNat ≤ 896 := by
  simp only [reprSingle, doubleFields_packDouble] at h
  split_ifs at h <;> omega

/-- The representable doubles are those that a single converts to (R218, R219). -/
theorem exists_singleToDouble {d : Double} (h : reprSingle d = true) : ∃ w, singleToDouble w = d := by
  rw [← packDouble_fields d] at h ⊢
  generalize d.getLsbD 63 = neg at *
  generalize d.extractLsb 51 0 = f at *
  generalize d.extractLsb 62 52 = e at *
  obtain hzero | hwide | ⟨hlow, hhigh⟩ := expField_of_reprSingle h
  · obtain rfl : e = 0 := BitVec.eq_of_toNat_eq hzero
    obtain rfl := (reprSingle_packDouble_zero neg f).mp h
    exact ⟨_, singleToDouble_zero neg⟩
  · obtain ⟨g, rfl⟩ := exists_widenFraction ((reprSingle_packDouble_wide neg f hwide).mp h)
    obtain hmaximal | ⟨hlow, hhigh⟩ := hwide
    · obtain rfl : e = 2047 := BitVec.eq_of_toNat_eq hmaximal
      exact ⟨_, singleToDouble_maximal neg g⟩
    · have hexp : (BitVec.ofNat 8 (e.toNat - 896)).toNat = e.toNat - 896 := Nat.mod_eq_of_lt (by omega)
      refine ⟨packSingle neg (BitVec.ofNat 8 (e.toNat - 896)) g, ?_⟩
      rw [singleToDouble_normalized neg g (BitVec.toNat_ne.mpr ?_) (BitVec.toNat_ne.mpr ?_), hexp,
        Nat.sub_add_cancel (by omega), BitVec.ofNat_toNat, BitVec.setWidth_eq]
      · rw [hexp]
        change _ ≠ 0
        omega
      · rw [hexp]
        change _ ≠ 255
        omega
  · have hdvd := Nat.dvd_of_mod_eq_zero ((reprSingle_packDouble_small neg f hlow hhigh).mp h)
    obtain ⟨g, rfl⟩ := exists_widenFraction (Nat.mod_eq_zero_of_dvd ((Nat.pow_dvd_pow 2 (by omega)).trans hdvd))
    rw [toNat_widenFraction, Nat.add_comm, pow_add] at hdvd
    have hfrac := Nat.dvd_of_mul_dvd_mul_right (by positivity) hdvd
    have hsignificand : 2 ^ (897 - e.toNat) ∣ 2 ^ 23 + g.toNat :=
      Nat.dvd_add (Nat.pow_dvd_pow 2 (by omega)) hfrac
    exact ⟨_, singleToDouble_of_significand neg hlow hhigh (Nat.div_mul_cancel hsignificand)⟩

theorem singleToDouble_doubleToSingle {d : Double} (h : reprSingle d = true) :
    singleToDouble (doubleToSingle d) = d := by
  obtain ⟨w, rfl⟩ := exists_singleToDouble h
  rw [doubleToSingle_singleToDouble]

/-- What a single converts to has 29 low-order zero bits (R218). -/
theorem singleToDouble_mod (w : Word) : (singleToDouble w).toNat % 2 ^ 29 = 0 := by
  have hmod (neg : Bool) (e : BitVec 11) (f : BitVec 23) : (packDouble neg e (widenFraction f)).toNat % 2 ^ 29 = 0 := by
    rw [toNat_packDouble, toNat_widenFraction]
    omega
  induction w using packSingle_cases with
  | maximal neg f => exact singleToDouble_maximal neg f ▸ hmod ..
  | zero neg => exact singleToDouble_zero neg ▸ hmod ..
  | denormalized neg f hf => exact singleToDouble_denormalized neg hf ▸ hmod ..
  | normalized neg e f h0 h255 => exact singleToDouble_normalized neg f h0 h255 ▸ hmod ..

/-! ### Values (R192) -/

/-- Two exact numbers are the same, sign of zero included. -/
def SameValue (x y : Exact) : Prop := x.neg = y.neg ∧ x.num * y.den = y.num * x.den

/-- `(q · 2^k) · 2^(e - k)` is `q · 2^e`. -/
theorem sameValue_exactScaled_shift (neg : Bool) (q k : Nat) (e : Int) :
    SameValue (exactScaled neg (q * 2 ^ k) (e - k)) (exactScaled neg q e) := by
  have hexp : k + (e - k).toNat + (-e).toNat = e.toNat + (-(e - k)).toNat := by omega
  refine ⟨rfl, ?_⟩
  calc q * 2 ^ k * 2 ^ (e - k).toNat * 2 ^ (-e).toNat
      = q * 2 ^ (k + (e - k).toNat + (-e).toNat) := by rw [pow_add, pow_add]; ring
    _ = q * 2 ^ e.toNat * 2 ^ (-(e - k)).toNat := by rw [hexp, pow_add]; ring

theorem sameValue_exactScaled_zero (neg : Bool) (e e' : Int) :
    SameValue (exactScaled neg 0 e) (exactScaled neg 0 e') := by
  simp [SameValue, exactScaled]

section
variable (neg : Bool) (f : BitVec 23)

theorem doubleValue_packDouble_zero :
    doubleValue (packDouble neg 0 (widenFraction 0)) = exactScaled neg 0 (-1074) := by
  rw [doubleValue, doubleFields_packDouble, toNat_widenFraction]
  simp [fpValue, significand, impliedBit, lastPlace, formatFraction, formatEmin]

theorem doubleValue_packDouble_normalized {e : BitVec 11} (h : e.toNat ≠ 0) :
    doubleValue (packDouble neg e (widenFraction f)) = exactScaled neg ((2 ^ 23 + f.toNat) * 2 ^ 29) (e.toNat - 1075) := by
  rw [doubleValue, doubleFields_packDouble, toNat_widenFraction]
  have hsignificand : 1 * 2 ^ 52 + f.toNat * 2 ^ 29 = (2 ^ 23 + f.toNat) * 2 ^ 29 := by omega
  have hplace : (e.toNat : Int) - (1023 : Nat) - (52 : Nat) = e.toNat - 1075 := by omega
  simp only [fpValue, significand, impliedBit, lastPlace, trueExponent, formatFraction, formatBias, if_neg h,
    hsignificand, hplace]

theorem singleValue_packSingle_zero : singleValue (packSingle neg 0 f) = exactScaled neg f.toNat (-149) := by
  rw [singleValue, singleFields_packSingle]
  simp [fpValue, significand, impliedBit, lastPlace, formatFraction, formatEmin]

theorem singleValue_packSingle_normalized {e : BitVec 8} (h : e.toNat ≠ 0) :
    singleValue (packSingle neg e f) = exactScaled neg (2 ^ 23 + f.toNat) (e.toNat - 150) := by
  rw [singleValue, singleFields_packSingle]
  have hplace : (e.toNat : Int) - (127 : Nat) - (23 : Nat) = e.toNat - 150 := by omega
  simp only [fpValue, significand, impliedBit, lastPlace, trueExponent, formatFraction, formatBias, if_neg h,
    Nat.one_mul, hplace]

end

/-- A single pattern with the largest exponent is no number (R178). -/
theorem singleClass_packSingle_maximal (neg : Bool) (f : BitVec 23) :
    singleClass (packSingle neg 255 f) = .nan ∨ singleClass (packSingle neg 255 f) = .infinity neg := by
  rw [singleClass, singleFields_packSingle]
  by_cases hf : f.toNat = 0
  · exact .inr (by simp [fpClass, formatExpMax, hf])
  · exact .inl (by simp [fpClass, formatExpMax, hf])

/-- A number keeps its value: the double's significand is the single's shifted left, its last place lower by as much. -/
theorem sameValue_singleToDouble {w : Word} (hnan : singleClass w ≠ .nan) (hinf : ∀ neg, singleClass w ≠ .infinity neg) :
    SameValue (doubleValue (singleToDouble w)) (singleValue w) := by
  induction w using packSingle_cases with
  | maximal neg f => exact ((singleClass_packSingle_maximal neg f).elim hnan (hinf neg)).elim
  | zero neg =>
    rw [singleToDouble_zero, doubleValue_packDouble_zero, singleValue_packSingle_zero]
    exact sameValue_exactScaled_zero neg _ _
  | denormalized neg f hf =>
    obtain ⟨hexp, hlog⟩ := toNat_denormalizedExponent hf
    have hshift : 2 ^ (23 - f.toNat.log2) * 2 ^ 29 = 2 ^ (52 - f.toNat.log2) := by rw [← pow_add]; congr 1; omega
    have hplace : ((874 + f.toNat.log2 : Nat) : Int) - 1075 = -149 - (52 - f.toNat.log2 : Nat) := by omega
    rw [singleToDouble_denormalized neg hf, doubleValue_packDouble_normalized neg _ (by omega),
      singleValue_packSingle_zero, denormalized_significand hf, hexp, Nat.mul_assoc, hshift, hplace]
    exact sameValue_exactScaled_shift neg _ _ _
  | normalized neg e f h0 h255 =>
    obtain ⟨hexp, hpos, -⟩ := toNat_normalizedExponent h0 h255
    have hplace : ((e.toNat + 896 : Nat) : Int) - 1075 = (e.toNat - 150) - (29 : Nat) := by omega
    rw [singleToDouble_normalized neg f h0 h255, doubleValue_packDouble_normalized neg f (by omega),
      singleValue_packSingle_normalized neg f hpos, hexp, hplace]
    exact sameValue_exactScaled_shift neg _ _ _

/-- Settles O53: the conversions undo each other on every single, the representable doubles are what singles convert to,
and a number's significand is shifted by as much as its last place is lowered. -/
theorem conversionsKeepTheValue : Obligations.ConversionsKeepTheValue :=
  ⟨fun w => ⟨doubleToSingle_singleToDouble w, reprSingle_singleToDouble w, singleToDouble_mod w⟩,
    fun _ => singleToDouble_doubleToSingle, fun _ => sameValue_singleToDouble⟩

end Sys2Proof.Machine
end

section
/-! PROOFS. NaNs (spec/42_fp_data_formats.md R184 to R191; spec/43_fp_data_handling.md R212): which one an arithmetic
instruction delivers, where comparisons and conversions signal, what a floating-point outcome does to the state, and
`frsp` of a NaN. -/

namespace Sys2Proof.Machine

/-! ### Invalid operations (R186, R191, R286) -/

/-- An invalid operation with its exception disabled (R190, R191). -/
theorem deliverInvalid_disabled (p : Platform) {f : Fpscr} (fmt : Format) (d : Double) (h : f.ve = false) :
    deliverInvalid p f fmt d = .deliver d false false false := by
  simp [deliverInvalid, h]

/-- Enabled it invokes the envelope, or under `fp_envelope = ieee` has a result that is not stated (R186, R286). -/
theorem deliverInvalid_enabled (p : Platform) {f : Fpscr} (fmt : Format) (d : Double) (h : f.ve = true) :
    deliverInvalid p f fmt d = if p.fpEnvelope = .ieee then .unstated fmt none else .assist := by
  simp [deliverInvalid, h]

/-! ### Which NaN is delivered (R190, R191) -/

theorem nanResult_cons_isNaN {a : Double} (ha : isNaN a = true) (b c : Option Double) :
    nanResult (some a) b c = quieted a := by
  simp [nanResult, ha]

theorem nanResult_cons_number {a : Double} (ha : isNaN a = false) (b c : Option Double) :
    nanResult (some a) b c = nanResult none b c := by
  simp [nanResult, ha]

theorem nanResult_none_isNaN {b : Double} (hb : isNaN b = true) (c : Option Double) :
    nanResult none (some b) c = quieted b := by
  simp [nanResult, hb]

/-- A field that the instruction does not have is skipped, as one that holds no NaN is. -/
theorem nanResult_none_skip {b : Option Double} (hb : ∀ d ∈ b, isNaN d = false) (c : Option Double) :
    nanResult none b c = nanResult none none c := by
  cases b with
  | none => rfl
  | some b => simp [nanResult, hb b rfl]

theorem nanResult_none_none_isNaN {c : Double} (hc : isNaN c = true) : nanResult none none (some c) = quieted c := by
  simp [nanResult, hc]

section
variable {p : Platform} {f : Fpscr} {fmt : Format} {op : FpOp} {a b c : Double} {l : List Double}
  (hl : l = [a] ++ (if op.usesB then [b] else []) ++ (if op.usesC then [c] else []))
  (hden : ∀ d ∈ l, isDenormalized d = false)
  (hrepr : fmt = .single → ∀ d ∈ l, reprSingle d = true)

include hden hrepr in
/-- Neither the check of R217 nor that of R271 ends such an instruction. -/
theorem operand_checks_pass :
    ¬ (fmt = .single ∧ l.any (fun d => !reprSingle d) = true) ∧ l.any isDenormalized = false :=
  ⟨by simpa using hrepr, by simpa using hden⟩

include hl hden hrepr

/-- A NaN operand: the NaN of R190, as no invalid operation is enabled. -/
theorem arithOutcome_of_isNaN (hsnan : (∀ d ∈ l, isSNaN d = false) ∨ f.ve = false) (hnan : ∃ d ∈ l, isNaN d = true) :
    arithOutcome p f fmt op a b c =
      .deliver (nanResult (some a) (if op.usesB then some b else none) (if op.usesC then some c else none))
        false false false := by
  obtain ⟨hfree, hassist⟩ := operand_checks_pass hden hrepr
  have hany : l.any isNaN = true := by simpa using hnan
  simp only [arithOutcome, ← hl, if_neg hfree, hassist, hany, Bool.false_and, Bool.false_eq_true, if_false, if_true]
  obtain hquiet | hve := hsnan
  · have hnone : l.any isSNaN = false := by simpa using hquiet
    rw [hnone, if_neg Bool.false_ne_true]
  · rw [deliverInvalid_disabled _ _ _ hve, ite_self]

/-- No NaN operand and an invalid operation: the generated QNaN (R191). -/
theorem arithOutcome_of_invalid (hnum : ∀ d ∈ l, isNaN d = false) (hve : f.ve = false)
    (hinvalid : op.exact (roundMode f.rn) (doubleDatum a) (doubleDatum b) (doubleDatum c) = .invalid) :
    arithOutcome p f fmt op a b c = .deliver generatedQNaN false false false := by
  obtain ⟨hfree, hassist⟩ := operand_checks_pass hden hrepr
  have hany : l.any isNaN = false := by simpa using hnum
  simp only [arithOutcome, ← hl, if_neg hfree, hassist, hany, Bool.false_and, Bool.false_eq_true, if_false, hinvalid]
  exact deliverInvalid_disabled p fmt _ hve

end

/-! ### Comparisons and conversions of a NaN (R184, R187) -/

/-- A NaN is ordered to nothing (R177). -/
theorem fpOrder_of_isNaN {a b : Double} (h : isNaN a = true ∨ isNaN b = true) : fpOrder a b = none := by
  simp [fpOrder, h]

/-- An ordered comparison with a NaN is invalid, and no relation holds (R187). -/
theorem compareOutcome_of_isNaN {a b : Double} (h : isNaN a = true ∨ isNaN b = true) (p : Platform) (f : Fpscr) :
    compareOutcome p f true a b =
      if f.ve then (if p.fpEnvelope = .ieee then .unstated else .assist) else .field false false false true := by
  have hinvalid : (isSNaN a || isSNaN b || (isNaN a || isNaN b)) = true := by simp [h]
  simp only [compareOutcome, fpOrder_of_isNaN h, Bool.true_and, hinvalid]
  rfl

theorem convertOutcome_of_isNaN {a : Double} (h : isNaN a = true) (p : Platform) (f : Fpscr) (mode : RoundMode) :
    convertOutcome p f mode a = convertInvalid p f none := by
  simp [convertOutcome, doubleClass_of_isNaN h]

/-- Settles O56: the operand that `nanResult` picks, or the generated QNaN, is delivered as no enabled invalid operation
stands before it; comparisons and conversions ask for a NaN first. -/
theorem nanResultOfArithmetic : Obligations.NanResultOfArithmetic := by
  intro p f fmt op a b c l hl hden hrepr hsnan
  have ha : a ∈ l := by simp [hl]
  have hb : op.usesB = true → b ∈ l := fun h => by simp [hl, h]
  have hc : op.usesC = true → c ∈ l := fun h => by simp [hl, h]
  have hdeliver : (∃ d ∈ l, isNaN d = true) → arithOutcome p f fmt op a b c = _ :=
    arithOutcome_of_isNaN hl hden hrepr hsnan
  refine ⟨fun hnan => ?inA, fun hnum huses hnan => ?inB, fun hnum hnumB huses hnan => ?inC,
    arithOutcome_of_invalid hl hden hrepr, fun hnan => ?compare, fun hnan mode => ?convert⟩
  case inA => rw [hdeliver ⟨a, ha, hnan⟩, nanResult_cons_isNaN hnan, quieted]
  case inB =>
    rw [hdeliver ⟨b, hb huses, hnan⟩, nanResult_cons_number hnum, if_pos huses, nanResult_none_isNaN hnan, quieted]
  case inC =>
    rw [hdeliver ⟨c, hc huses, hnan⟩, nanResult_cons_number hnum, if_pos huses,
      nanResult_none_skip (by simpa using hnumB), nanResult_none_none_isNaN hnan, quieted]
  case compare =>
    rw [compareOutcome_of_isNaN hnan]
    exact ⟨fun hve => by simp [hve], fun hve hp => by simp [hve, hp]⟩
  case convert =>
    rw [convertOutcome_of_isNaN hnan, convertInvalid]
    exact ⟨fun hve => by simp [hve], fun hve hp => by simp [hve, hp]⟩

/-! ### What a floating-point outcome does (R212, R286) -/

/-- A floating-point result leaves the rest of the state alone, whatever status bits it writes (R29, R212). -/
theorem fpFrame_withFpResult (s : State) (frD : Reg) (rc : Bool) (d : Double) (f : Fpscr)
    (hcontrols : SameFpscrControls s { s with fpscr := f }) :
    FpFrame frD rc s ((s.withFpResult frD d f (if rc then some f.summary else none)).withPc (s.pc + 4)) := by
  refine ⟨fun r hr => ?fprs, readGpr_eq_of_gpr (by simp), hcontrols, by simp, fun hrc => ?_, fun hrc => ?_, rfl,
    by simp [SameSystem], fun b => physRead_congr (by simp) b, by simp⟩
  case fprs =>
    rw [readFpr_withPc, readFpr_congr (withFpResult_fpr ..) r, readFpr_writeFpr, if_neg (Ne.symm hr)]
  · simp [hrc]
  · subst hrc
    exact ⟨crFieldIs_crSetField s _ 1 _ _ _ _ rfl, sameCrBut_crSetField s _ 1 _ rfl⟩

theorem exec_frsp (frD frB : Reg) (rc : Bool) (s : State) :
    exec (.frsp frD frB rc) s =
      s.finish (encode (.frsp frD frB rc)) (s.applyFp frD rc (frspOutcome s.platform s.fpscr (s.readFpr frB))) := rfl

section
variable {frD frB : Reg} {rc : Bool} {s : State}

/-- `frsp` with an outcome that writes a result: the result, the FPSCR, and the frame. -/
theorem frsp_completes {d : Double} {f : Fpscr} (hpc : s.pc ≠ 0xFFFFFFFC)
    (h : s.applyFp frD rc (frspOutcome s.platform s.fpscr (s.readFpr frB)) =
      .ok (s.withFpResult frD d f (if rc then some f.summary else none)))
    (hcontrols : SameFpscrControls s { s with fpscr := f }) :
    ∃ t, exec (.frsp frD frB rc) s = .next t ∧ t.readFpr frD = d ∧ t.fpscr = f ∧ FpFrame frD rc s t := by
  refine ⟨_, ?exec, ?result, rfl, fpFrame_withFpResult s frD rc d f hcontrols⟩
  case exec => rw [exec_frsp, h, finish_ok, advance_eq _ (by simpa using hpc), withFpResult_pc]
  case result => rw [readFpr_withPc, readFpr_congr (withFpResult_fpr ..), readFpr_writeFpr_same]

theorem frsp_of_deliver {d : Double} {fr fi inexact : Bool} (hpc : s.pc ≠ 0xFFFFFFFC)
    (h : frspOutcome s.platform s.fpscr (s.readFpr frB) = .deliver d fr fi inexact) :
    ∃ t, exec (.frsp frD frB rc) s = .next t ∧ t.readFpr frD = d ∧ t.fpscr.fr = fr ∧ t.fpscr.fi = fi ∧
      t.fpscr.xx = (s.fpscr.xx || inexact) ∧ FpFrame frD rc s t := by
  obtain ⟨t, hexec, hresult, hfpscr, hframe⟩ := frsp_completes (frD := frD) (rc := rc)
    (f := fpscrDelivered s.fpscr (Config.drawStatus s.draws) fr fi inexact) hpc (by rw [h]; rfl)
    ⟨rfl, rfl, rfl, rfl, rfl, rfl, rfl, rfl⟩
  exact ⟨t, hexec, hresult, by rw [hfpscr]; rfl, by rw [hfpscr]; rfl, by rw [hfpscr]; rfl, hframe⟩

theorem frsp_of_unstated {fmt : Format} {sign : Option Bool} (hpc : s.pc ≠ 0xFFFFFFFC)
    (h : frspOutcome s.platform s.fpscr (s.readFpr frB) = .unstated fmt sign) :
    ∃ t, exec (.frsp frD frB rc) s = .next t ∧ t.readFpr frD = unstatedResult s.draws fmt sign ∧
      (s.fpscr.xx = true → t.fpscr.xx = true) ∧ FpFrame frD rc s t := by
  obtain ⟨t, hexec, hresult, hfpscr, hframe⟩ := frsp_completes (frD := frD) (rc := rc)
    (f := fpscrUnstated s.fpscr (Config.drawStatus s.draws)) hpc (by rw [h]; rfl)
    ⟨rfl, rfl, rfl, rfl, rfl, rfl, rfl, rfl⟩
  exact ⟨t, hexec, hresult, fun hxx => by rw [hfpscr, fpscrUnstated, hxx, Bool.true_or], hframe⟩

theorem frsp_of_assist (h : frspOutcome s.platform s.fpscr (s.readFpr frB) = .assist) :
    exec (.frsp frD frB rc) s = s.raise (encode (.frsp frD frB rc)) .floatAssist := by
  rw [exec_frsp, h, State.applyFp, finish_raise]

end

theorem reprSingle_unstatedResult (n : Nat) (sign : Option Bool) :
    reprSingle (unstatedResult n .single sign) = true :=
  reprSingle_singleToDouble _

/-! ### `frsp` of a NaN (R186, R190, R212) -/

/-- The 29 low-order bits of a pattern cleared (R212). -/
theorem extractLsb_append_zero (d : Double) : d.extractLsb 63 29 ++ 0#29 = d &&& 0xFFFFFFFFE0000000 := by
  have hmask : (0xFFFFFFFFE0000000 : Double) = BitVec.allOnes 64 <<< 29 := by decide
  refine BitVec.eq_of_getLsbD_eq fun i hi => ?_
  rw [hmask, BitVec.getLsbD_append, BitVec.getLsbD_and, BitVec.getLsbD_shiftLeft, BitVec.getLsbD_allOnes,
    BitVec.getLsbD_extractLsb]
  by_cases h : i < 29
  · simp [h]
  · simp [h, hi, show i - 29 < 64 by omega, show i - 29 < 35 by omega, show 29 + (i - 29) = i by omega]

/-- A QNaN is quieted already (R185). -/
theorem quieted_of_quiet {d : Double} (h : d.getLsbD 51 = true) : quieted d = d := by
  have hbit : (0x0008000000000000 : Double) = BitVec.twoPow 64 51 := by decide
  refine BitVec.eq_of_getLsbD_eq fun i hi => ?_
  rw [quieted, hbit, BitVec.getLsbD_or, BitVec.getLsbD_twoPow]
  by_cases hi51 : i = 51
  · rw [hi51, h, Bool.true_or]
  · simp [Ne.symm hi51]

theorem isSNaN_of_isNaN {d : Double} (h : isNaN d = true) : isSNaN d = !d.getLsbD 51 := by
  rw [isSNaN, h, Bool.true_and]

theorem frspOutcome_of_isNaN {d : Double} (hnan : isNaN d = true) (p : Platform) (f : Fpscr) :
    frspOutcome p f d =
      if d.getLsbD 51 then .deliver (quieted (d &&& 0xFFFFFFFFE0000000)) false false false
      else deliverInvalid p f .single (quieted (d &&& 0xFFFFFFFFE0000000)) := by
  simp only [frspOutcome, doubleClass_of_isNaN hnan, isSNaN_of_isNaN hnan, extractLsb_append_zero]
  cases hquiet : d.getLsbD 51 with
  | false => rfl
  | true =>
    have hcut : (d &&& 0xFFFFFFFFE0000000).getLsbD 51 = true := by rw [BitVec.getLsbD_and, hquiet]; rfl
    rw [quieted_of_quiet hcut]
    rfl

/-- Settles O51: the NaN is delivered unless it is signaling and the invalid operation exception is enabled. -/
theorem frspOfNaN : Obligations.FrspOfNaN := by
  intro frD frB rc s hexp hfrac hpc
  have houtcome := frspOutcome_of_isNaN ((isNaN_iff _).mpr ⟨hexp, hfrac⟩) s.platform s.fpscr
  refine ⟨fun hdelivers => ?delivered, fun hsignaling hve hp => ?assist, fun hsignaling hve hp => ?unstated⟩
  case delivered =>
    have hdeliver : frspOutcome s.platform s.fpscr (s.readFpr frB) =
        .deliver (quieted (s.readFpr frB &&& 0xFFFFFFFFE0000000)) false false false := by
      obtain hquiet | hve := hdelivers
      · rw [houtcome, if_pos hquiet]
      · rw [houtcome, deliverInvalid_disabled _ _ _ hve, ite_self]
    obtain ⟨t, hexec, hresult, hfr, hfi, hxx, hframe⟩ := frsp_of_deliver (frD := frD) (rc := rc) hpc hdeliver
    exact ⟨t, hexec, hresult, hfr, hfi, hxx.trans (Bool.or_false _), hframe⟩
  case assist =>
    apply frsp_of_assist
    rw [houtcome, hsignaling, deliverInvalid_enabled _ _ _ hve, if_neg hp]
    rfl
  case unstated =>
    have hunstated : frspOutcome s.platform s.fpscr (s.readFpr frB) = .unstated .single none := by
      rw [houtcome, hsignaling, deliverInvalid_enabled _ _ _ hve, if_pos hp]
      rfl
    obtain ⟨t, hexec, hresult, hxx, hframe⟩ := frsp_of_unstated (frD := frD) (rc := rc) hpc hunstated
    exact ⟨t, hexec, hresult ▸ reprSingle_unstatedResult _ _, hxx, hframe⟩

end Sys2Proof.Machine
end

section
/-! PROOFS. Floating-point loads, and the classes of double-precision loads and stores (spec/43_fp_data_handling.md
R210, R213, R218): a double word of memory, the base of an update form, and the accesses that go through. -/

namespace Sys2Proof.Machine

/-! ### A double word of memory (R57, R60) -/

/-- A double word is not modified in either byte order (R60). -/
theorem physicalAddress_eight (s : State) (ea : Word) : s.physicalAddress ea 8 = ea := by
  cases hmode : manualBit s.msr 31 with
  | true => exact (physicalAddress_littleEndian s ea 8 hmode).trans BitVec.xor_zero
  | false => exact physicalAddress_bigEndian s ea 8 hmode

theorem toNat_wordAt (s : State) (a : Nat) : (wordAt s a).toNat = bytesValue (s.physBytes a 4) := by
  have hlt := bytesValue_lt (s.physBytes a 4)
  rw [physBytes_length] at hlt
  rw [← ofNat_bytesValue_four, BitVec.toNat_ofNat]
  exact Nat.mod_eq_of_lt hlt

/-- The number of eight bytes is that of their two words (R57). -/
theorem ofNat_bytesValue_eight (s : State) (a : Nat) :
    BitVec.ofNat (8 * 8) (bytesValue (s.physBytes a 8)) = wordAt s a ++ wordAt s (a + 4) := by
  apply BitVec.eq_of_toNat_eq
  have hlt : bytesValue (s.physBytes a 8) < 2 ^ (8 * 8) := by simpa using bytesValue_lt (s.physBytes a 8)
  rw [BitVec.toNat_append, ← Nat.shiftLeft_add_eq_or_of_lt (wordAt s (a + 4)).isLt, Nat.shiftLeft_eq, toNat_wordAt,
    toNat_wordAt, BitVec.toNat_ofNat, Nat.mod_eq_of_lt hlt]
  simp only [State.physBytes, bytesValue, List.length_cons, List.length_nil, Nat.add_assoc a, Nat.reduceAdd,
    Nat.reducePow]
  omega

section
variable {s : State} {w ea : Word}

/-- A double-precision load that goes through reads the double word at the effective address. -/
theorem memRead_eight (hacc : accessible s w ea 8 = true) :
    s.memRead w ea 8 = .ok (wordAt s ea.toNat ++ wordAt s (ea.toNat + 4)) := by
  have haddress := (accessible_iff s w ea 8).mp hacc
  rw [physicalAddress_eight] at haddress
  exact (memRead_eq_ok s w ea 8 _).mpr ⟨ea, haddress, (ofNat_bytesValue_eight s _).symm⟩

/-- A double-precision store that goes through puts the double word at the effective address, and changes nothing else
but the set of stored bytes. -/
theorem memWrite_eight_frame (v : Double) (hw : Memory.wf s.mem = true) (hacc : accessible s w ea 8 = true) :
    ∃ m st, s.memWrite w ea 8 v = .ok { s with mem := m, stored := st } ∧
      wordAt { s with mem := m, stored := st } ea.toNat ++ wordAt { s with mem := m, stored := st } (ea.toNat + 4) = v ∧
      SameMemoryBut ea.toNat 8 s { s with mem := m, stored := st } := by
  obtain ⟨m, st, heq⟩ := physWriteBytes_eq s ea.toNat (valueBytes 8 v)
  have haddress := (accessible_iff s w ea 8).mp hacc
  rw [physicalAddress_eight] at haddress
  have hbytes := physBytes_physWriteBytes s ea.toNat (valueBytes 8 v) hw
  rw [valueBytes_length] at hbytes
  refine ⟨m, st, ?_⟩
  rw [← heq]
  refine ⟨(memWrite_eq_ok s _ w ea 8 v).mpr ⟨ea, haddress, rfl⟩, ?_, sameMemoryBut_physWriteBytes s _ 8 v⟩
  have hlt : v.toNat < 256 ^ 8 := v.isLt
  rw [← ofNat_bytesValue_eight, hbytes, bytesValue_valueBytes, Nat.mod_eq_of_lt hlt]
  exact BitVec.ofNat_toNat 64 v |>.trans (BitVec.setWidth_eq v)

end

/-! ### The base of an update form (R124) -/

theorem finishUpdate_ok (s u : State) (w : Word) (base : Option Reg) (ea : Word) :
    s.finishUpdate w base ea (.ok u) = (u.updateBase base ea).advance := rfl

theorem finishUpdate_raise (s : State) (w : Word) (base : Option Reg) (ea : Word) (e : Exc) :
    s.finishUpdate w base ea (.raise e) = s.raise w e := rfl

/-- An update writes the effective address to the base register, if there is one, and changes nothing else. -/
theorem updateBase_frame (s : State) (base : Option Reg) (ea : Word) :
    ∃ g, s.updateBase base ea = { s with gpr := g } ∧
      (∀ rA, base = some rA → State.readGpr { s with gpr := g } rA = ea) ∧
      SameGprs (fun r => base ≠ some r) s { s with gpr := g } := by
  cases base with
  | none => exact ⟨s.gpr, rfl, fun rA h => (nomatch h), fun _ _ => rfl⟩
  | some rA =>
    refine ⟨(s.writeGpr rA ea).gpr, rfl, fun rA' h => ?base, fun r hr => ?others⟩
    case base =>
      cases h
      exact readGpr_writeGpr_same s rA ea
    case others => exact (readGpr_writeGpr s rA r ea).trans (if_neg fun h => hr (congrArg some h))

/-! ### Loads and stores that complete (R210, R213) -/

/-- Settles O39: the word read is written in double format, which ends in 29 zeros. -/
theorem lfsCompletes : Obligations.LfsCompletes := by
  intro frD rA d s hpc hacc
  have hexec : exec (.lfs frD rA d) s =
      (s.writeFpr frD (singleToDouble (wordAt s (s.physicalAddress (s.eaDisp rA d) 4).toNat))).advance := by
    change execLfs frD rA d s = _
    unfold execLfs
    dsimp only
    rw [memRead_four s _ _ hacc]
  refine ⟨_, hexec.trans (advance_eq _ hpc), readFpr_writeFpr_same s frD _, ?lowOrder,
    fun r hr => (readFpr_writeFpr s frD r _).trans (if_neg (Ne.symm hr)), fun _ _ => rfl, rfl, rfl, rfl, rfl,
    by simp [SameSystem], fun _ => rfl, rfl⟩
  case lowOrder =>
    rw [readFpr_withPc, readFpr_writeFpr_same]
    exact singleToDouble_mod _

/-- Settles O41: the access moves the double word, and the update comes after it. -/
theorem doubleMovesUnaltered : Obligations.DoubleMovesUnaltered := by
  intro fr base ea w s hw
  refine ⟨fun hpc hacc => ⟨?load, ?store⟩, fun hle ha => ⟨?loadRaises, ?storeRaises⟩⟩
  case load =>
    obtain ⟨g, hupdate, hbase, hothers⟩ :=
      updateBase_frame (s.writeFpr fr (wordAt s ea.toNat ++ wordAt s (ea.toNat + 4))) base ea
    rw [loadDouble, memRead_eight hacc, finishUpdate_ok, hupdate]
    exact ⟨_, advance_eq _ hpc, readFpr_writeFpr_same s fr _,
      fun r hr => (readFpr_writeFpr s fr r _).trans (if_neg (Ne.symm hr)), hbase, hothers, rfl, rfl, rfl, rfl,
      by simp [SameSystem], fun _ => rfl, rfl⟩
  case store =>
    obtain ⟨m, st, hstore, hwords, hsame⟩ := memWrite_eight_frame (s.readFpr fr) hw hacc
    obtain ⟨g, hupdate, hbase, hothers⟩ := updateBase_frame { s with mem := m, stored := st } base ea
    rw [storeDouble, hstore, finishUpdate_ok, hupdate]
    exact ⟨_, advance_eq _ hpc, hwords, hsame, fun _ _ => rfl, hbase, hothers, rfl, rfl, rfl, rfl,
      by simp [SameSystem]⟩
  case loadRaises => rw [loadDouble, memRead_misaligned s w ea 8 ha (.inl hle), finishUpdate_raise]
  case storeRaises => rw [storeDouble, memWrite_misaligned s w ea 8 _ ha (.inl hle), finishUpdate_raise]

end Sys2Proof.Machine
end

section
/-! PROOFS. `frsp` of numbers (spec/43_fp_data_handling.md R204, R212; spec/44_fp_rounding_and_execution_models.md R232,
R240, R256 to R261): values of single precision are kept, the exact rounding of a scaled integer, and that of a double
read off its guard, round and sticky bits. -/

namespace Sys2Proof.Machine

/-! ### Fields of a double as numbers (R172) -/

theorem doubleFields_eq (d : Double) : doubleFields d = ⟨d.getLsbD 63, expField d, fracField d⟩ := by
  rw [← doubleFields_exp, ← doubleFields_frac]
  rfl

/-- A double's number, from its fields. -/
theorem toNat_eq_fields (d : Double) :
    d.toNat = (d.getLsbD 63).toNat * 2 ^ 63 + expField d * 2 ^ 52 + fracField d := by
  rw [← doubleFields_exp, ← doubleFields_frac]
  conv_lhs => rw [← packDouble_fields d, toNat_packDouble]
  rfl

theorem fracField_lt (d : Double) : fracField d < 2 ^ 52 := Nat.mod_lt _ (by decide)

/-- The number of a pattern whose 29 low-order bits are cleared. -/
theorem toNat_and_mask (d : Double) : (d &&& 0xFFFFFFFFE0000000).toNat = d.toNat / 2 ^ 29 * 2 ^ 29 := by
  have hlt := d.isLt
  rw [← extractLsb_append_zero, BitVec.toNat_append, BitVec.extractLsb_toNat, Nat.shiftRight_eq_div_pow,
    Nat.shiftLeft_eq, BitVec.toNat_ofNat, Nat.zero_mod, Nat.or_zero]
  omega

theorem and_mask_of_mod {d : Double} (h : d.toNat % 2 ^ 29 = 0) : d &&& 0xFFFFFFFFE0000000 = d := by
  apply BitVec.eq_of_toNat_eq
  rw [toNat_and_mask]
  omega

/-- A value of single precision ends in 29 zeros (R218). -/
theorem mod_of_reprSingle {d : Double} (h : reprSingle d = true) : d.toNat % 2 ^ 29 = 0 := by
  obtain ⟨w, rfl⟩ := exists_singleToDouble h
  exact singleToDouble_mod w

/-! ### The outcome of `frsp` by the class of its operand (R204, R212) -/

theorem doubleClass_ne_denormalized {d : Double} (h : reprSingle d = true) (neg : Bool) :
    doubleClass d ≠ .denormalized neg := by
  intro hclass
  have hfields : (doubleFields d).exp = 0 ∧ (doubleFields d).frac ≠ 0 := by
    simp only [doubleClass, fpClass] at hclass
    split_ifs at hclass with _ _ hexp hfrac
    exact ⟨hexp, hfrac⟩
  simp [reprSingle, hfields] at h

/-- A value of single precision that is no signaling NaN is delivered as it is (R204, R212). -/
theorem frspOutcome_of_reprSingle {d : Double} (hrepr : reprSingle d = true) (hquiet : isSNaN d = false) (p : Platform)
    (f : Fpscr) : frspOutcome p f d = .deliver d false false false := by
  cases hclass : doubleClass d with
  | zero neg => simp only [frspOutcome, hclass]
  | infinity neg => simp only [frspOutcome, hclass]
  | normalized neg => simp only [frspOutcome, hclass, hrepr, if_true]
  | denormalized neg => exact absurd hclass (doubleClass_ne_denormalized hrepr neg)
  | nan =>
    have hnan : isNaN d = true := by rw [isNaN, hclass]; rfl
    have hbit : d.getLsbD 51 = true := by rw [isSNaN_of_isNaN hnan] at hquiet; simpa using hquiet
    rw [frspOutcome_of_isNaN hnan, if_pos hbit, and_mask_of_mod (mod_of_reprSingle hrepr), quieted_of_quiet hbit]

/-- A number that is no single is rounded to one. -/
theorem frspOutcome_of_number {d : Double} (h0 : expField d ≠ 0) (hmax : expField d ≠ 2047)
    (hrepr : reprSingle d = false) (p : Platform) (f : Fpscr) :
    frspOutcome p f d = deliverExact p f .single false (doubleValue d) := by
  have hclass : doubleClass d = .normalized (d.getLsbD 63) := by
    simp only [doubleClass, doubleFields_eq, fpClass, formatExpMax, if_neg hmax, if_neg h0]
  simp only [frspOutcome, hclass, hrepr, Bool.false_eq_true, if_false]

/-- Settles O48: the operand itself is delivered. -/
theorem frspKeepsSinglePrecisionValues : Obligations.FrspKeepsSinglePrecisionValues := by
  intro frD frB rc s hrepr hquiet hpc
  obtain ⟨t, hexec, hresult, hfr, hfi, hxx, hframe⟩ := frsp_of_deliver (frD := frD) (rc := rc) hpc
    (frspOutcome_of_reprSingle hrepr hquiet s.platform s.fpscr)
  exact ⟨t, hexec, hresult, hfr, hfi, hxx.trans (Bool.or_false _), hframe⟩

/-! ### Rounding `± m · 2^k` (R235, R240) -/

section
variable (neg : Bool) {m : Nat} (k : Int)

/-- The leading bit of `m · 2^k` is that of `m`, `k` places up. -/
theorem exponent_exactScaled (hm : m ≠ 0) : (exactScaled neg m k).exponent = m.log2 + k := by
  obtain ⟨hle, hlt⟩ := (Nat.log2_eq_iff hm).mp rfl
  have hlog : (m * 2 ^ k.toNat).log2 = m.log2 + k.toNat := by
    rw [Nat.log2_eq_iff (by positivity), Nat.add_right_comm, pow_add, pow_add _ _ k.toNat]
    exact ⟨Nat.mul_le_mul_right _ hle, Nat.mul_lt_mul_of_pos_right hlt (by positivity)⟩
  have hplace : ((m.log2 + k.toNat : Nat) : Int) - ((-k).toNat : Nat) = m.log2 + k := by omega
  have hscale : (-k).toNat + (m.log2 + k).toNat = m.log2 + (k.toNat + (-(m.log2 + k)).toNat) := by omega
  simp only [Exact.exponent, exactScaled, hlog, Nat.log2_two_pow, hplace]
  rw [if_pos]
  calc 2 ^ (-k).toNat * 2 ^ (m.log2 + k).toNat = 2 ^ m.log2 * 2 ^ (k.toNat + (-(m.log2 + k)).toNat) := by
        rw [← pow_add, ← pow_add, hscale]
    _ ≤ m * 2 ^ (k.toNat + (-(m.log2 + k)).toNat) := Nat.mul_le_mul_right _ hle
    _ = m * 2 ^ k.toNat * 2 ^ (-(m.log2 + k)).toNat := by rw [pow_add, Nat.mul_assoc]

/-- In units `j` places up, `m · 2^k` is `m / 2^j`, but for a common factor. -/
theorem scaled_exactScaled (j : Nat) :
    ∃ c, 0 < c ∧ (exactScaled neg m k).scaledNum (k + j) = m * c ∧
      (exactScaled neg m k).scaledDen (k + j) = 2 ^ j * c := by
  refine ⟨2 ^ (k.toNat + (-(k + j)).toNat), by positivity, ?num, ?den⟩
  case num => rw [Exact.scaledNum, exactScaled, pow_add, Nat.mul_assoc]
  case den =>
    rw [Exact.scaledDen, exactScaled, ← pow_add, ← pow_add]
    congr 1
    omega

/-- The choice between the neighbours depends on the ratio alone. -/
theorem choosesLarger_mul_right (mode : RoundMode) (odd : Bool) (r d : Nat) {c : Nat} (hc : 0 < c) :
    choosesLarger mode neg odd (r * c) (d * c) = choosesLarger mode neg odd r d := by
  cases mode with
  | nearest => simp only [choosesLarger, ← Nat.mul_assoc, Nat.mul_lt_mul_right hc, Nat.mul_left_inj hc.ne']
  | towardZero => rfl
  | towardPlus => simp [choosesLarger, hc.ne']
  | towardMinus => simp [choosesLarger, hc.ne']

/-- `m · 2^k` rounded to a multiple of `2^(k + j)`: `m / 2^j` rounded to an integer. -/
theorem roundExact_exactScaled {fmt : Format} (mode : RoundMode) {j : Nat} {up : Bool}
    (hplace : roundPlace fmt (exactScaled neg m k) = k + j)
    (hup : choosesLarger mode neg (m / 2 ^ j % 2 == 1) (m % 2 ^ j) (2 ^ j) = up) :
    roundExact fmt mode (exactScaled neg m k) = ⟨neg, m / 2 ^ j + up.toNat, k + j, up, decide (m % 2 ^ j ≠ 0)⟩ := by
  obtain ⟨c, hc, hnum, hden⟩ := scaled_exactScaled neg (m := m) k j
  have hzero : m % 2 ^ j * c ≠ 0 ↔ m % 2 ^ j ≠ 0 := by simp [hc.ne']
  simp only [roundExact, hplace, hnum, hden, Nat.mul_div_mul_right _ _ hc, Nat.mul_mod_mul_right,
    show (exactScaled neg m k).neg = neg from rfl, choosesLarger_mul_right neg _ _ _ _ hc, hup, hzero]
  cases up <;> rfl

end

/-! ### Rounding a double to single precision (R256, R257, R260, R261) -/

section
variable {d : Double}

/-- The value of a normalized double, from its fields. -/
theorem doubleValue_of_normalized (h0 : expField d ≠ 0) :
    doubleValue d = exactScaled (d.getLsbD 63) (2 ^ 52 + fracField d) (expField d - 1075) := by
  have hplace : (expField d : Int) - (1023 : Nat) - (52 : Nat) = expField d - 1075 := by omega
  simp only [doubleValue, doubleFields_eq, fpValue, significand, impliedBit, lastPlace, trueExponent, formatFraction,
    formatBias, if_neg h0, Nat.one_mul, hplace]

/-- Normalized in single precision too, it is rounded 29 places above its own last one. -/
theorem roundPlace_single (hlow : 897 ≤ expField d) :
    roundPlace .single (exactScaled (d.getLsbD 63) (2 ^ 52 + fracField d) (expField d - 1075)) =
      (expField d - 1075 : Int) + (29 : Nat) := by
  have hlt := fracField_lt d
  have hlog : (2 ^ 52 + fracField d).log2 = 52 := (Nat.log2_eq_iff (by omega)).mpr ⟨by omega, by omega⟩
  rw [roundPlace, exponent_exactScaled _ _ (by omega), hlog]
  simp only [formatFraction, formatEmin]
  omega

/-- What rounding to single precision drops of the significand: the pattern's 29 low-order bits. -/
theorem significand_mod (d : Double) : (2 ^ 52 + fracField d) % 2 ^ 29 = d.toNat % 2 ^ 29 := by
  rw [fracField]
  omega

/-- The bits below the last place of a single decide as the exact rest does (R257, R260, R261). -/
theorem choosesLarger_eq_frspIncrements (rn : BitVec 2) :
    choosesLarger (roundMode rn) (d.getLsbD 63) ((2 ^ 52 + fracField d) / 2 ^ 29 % 2 == 1)
      ((2 ^ 52 + fracField d) % 2 ^ 29) (2 ^ 29) = frspIncrements rn d := by
  have hbit (i : Nat) : d.getLsbD i = decide (d.toNat / 2 ^ i % 2 = 1) := Nat.testBit_eq_decide_div_mod_eq
  have hodd : (2 ^ 52 + fracField d) / 2 ^ 29 % 2 = d.toNat / 2 ^ 29 % 2 := by rw [fracField]; omega
  have hany : (d.getLsbD 28 || d.getLsbD 27 || d.toNat % 2 ^ 27 != 0) = decide (d.toNat % 2 ^ 29 ≠ 0) := by
    rw [hbit, hbit, Bool.eq_iff_iff]
    simp only [Bool.or_eq_true, decide_eq_true_eq, bne_iff_ne]
    omega
  have hnearest : (d.getLsbD 28 && (d.getLsbD 27 || d.toNat % 2 ^ 27 != 0 || d.getLsbD 29)) =
      (decide (2 ^ 29 < 2 * (d.toNat % 2 ^ 29)) ||
        (decide (2 * (d.toNat % 2 ^ 29) = 2 ^ 29) && (d.toNat / 2 ^ 29 % 2 == 1))) := by
    rw [hbit, hbit, hbit, Bool.eq_iff_iff]
    simp only [Bool.or_eq_true, Bool.and_eq_true, decide_eq_true_eq, bne_iff_ne, beq_iff_eq]
    omega
  simp only [hodd, significand_mod, roundMode, frspIncrements]
  split_ifs with h0 h1 h2
  · exact hnearest.symm
  · rfl
  · exact congrArg (· && !d.getLsbD 63) hany.symm
  · exact congrArg (· && d.getLsbD 63) hany.symm

/-- A double in the exponent range of normalized singles, rounded exactly: by its own bits. -/
theorem roundExact_single (rn : BitVec 2) (hlow : 897 ≤ expField d) :
    roundExact .single (roundMode rn) (doubleValue d) =
      ⟨d.getLsbD 63, 2 ^ 23 + fracField d / 2 ^ 29 + (frspIncrements rn d).toNat, expField d - 1046,
        frspIncrements rn d, decide (d.toNat % 2 ^ 29 ≠ 0)⟩ := by
  have hquotient : (2 ^ 52 + fracField d) / 2 ^ 29 = 2 ^ 23 + fracField d / 2 ^ 29 := by omega
  have hplace : (expField d - 1075 : Int) + (29 : Nat) = expField d - 1046 := by omega
  rw [doubleValue_of_normalized (by omega), roundExact_exactScaled _ _ _ (roundPlace_single hlow)
    (choosesLarger_eq_frspIncrements rn), hquotient, significand_mod, hplace]

/-- The rounded pattern's number: the unit added at bit 29 may carry into the exponent. -/
theorem toNat_frspRounded (rn : BitVec 2) (hhigh : expField d < 2047) :
    (frspRounded rn d).toNat =
      (d.getLsbD 63).toNat * 2 ^ 63 + expField d * 2 ^ 52 +
        (fracField d / 2 ^ 29 + (frspIncrements rn d).toNat) * 2 ^ 29 := by
  have hsign := Bool.toNat_le (d.getLsbD 63)
  have hfrac := fracField_lt d
  have hnat := toNat_eq_fields d
  have hunit : (if frspIncrements rn d then 0x20000000 else 0 : Double).toNat =
      (frspIncrements rn d).toNat * 2 ^ 29 := by cases frspIncrements rn d <;> rfl
  have hup := Bool.toNat_le (frspIncrements rn d)
  rw [frspRounded, BitVec.toNat_add, toNat_and_mask, hunit, hnat]
  omega

/-- The pattern of `(2^23 + n) · 2^(e - 1046)`: the fraction `n`, whose carry goes into the exponent, 29 places up. -/
theorem toNat_doubleOfScaled (neg : Bool) {n e : Nat} (hn : n ≤ 2 ^ 23) (h0 : 0 < e) (he : e < 2046) :
    (doubleOfScaled neg (2 ^ 23 + n) (e - 1046)).toNat = neg.toNat * 2 ^ 63 + e * 2 ^ 52 + n * 2 ^ 29 := by
  obtain hlt | rfl := hn.lt_or_eq
  · have hlog : (2 ^ 23 + n).log2 = 23 := (Nat.log2_eq_iff (by omega)).mpr ⟨by omega, by omega⟩
    have hexp : (((23 : Nat) : Int) + (e - 1046) + 1023).toNat = e := by omega
    rw [doubleOfScaled, if_neg (by omega), hlog]
    dsimp only
    rw [if_neg (by omega), if_pos (by omega), hexp, toNat_packDouble, BitVec.toNat_ofNat, BitVec.toNat_ofNat]
    omega
  · have hlog : (2 ^ 23 + 2 ^ 23).log2 = 24 := by decide
    have hexp : (((24 : Nat) : Int) + (e - 1046) + 1023).toNat = e + 1 := by omega
    rw [doubleOfScaled, if_neg (by omega), hlog]
    dsimp only
    rw [if_neg (by omega), if_pos (by omega), hexp, toNat_packDouble, BitVec.toNat_ofNat, BitVec.toNat_ofNat]
    omega

/-- The rounded number's pattern is the rounded pattern (R218, R256). -/
theorem doubleOfScaled_rounded (rn : BitVec 2) (hlow : 897 ≤ expField d) (hhigh : expField d < 2046) :
    doubleOfScaled (d.getLsbD 63) (2 ^ 23 + fracField d / 2 ^ 29 + (frspIncrements rn d).toNat) (expField d - 1046) =
      frspRounded rn d := by
  have hfrac := fracField_lt d
  have hup := Bool.toNat_le (frspIncrements rn d)
  apply BitVec.eq_of_toNat_eq
  rw [toNat_frspRounded rn (by omega), Nat.add_assoc, toNat_doubleOfScaled _ (by omega) (by omega) hhigh]

theorem roundOverflows_eq_true (fmt : Format) (r : Rounded) :
    roundOverflows fmt r = true ↔ formatEmax fmt - formatFraction fmt ≤ r.e ∧
      2 ^ (formatFraction fmt + 1) ≤ r.q * 2 ^ (r.e - (formatEmax fmt - formatFraction fmt)).toNat := by
  simp [roundOverflows]

/-- It exceeds the largest single only where its exponent field does (R236). -/
theorem roundOverflows_single (rn : BitVec 2) (hlow : 897 ≤ expField d) (hhigh : expField d ≤ 1150)
    (hresult : expField (frspRounded rn d) ≤ 1150) :
    roundOverflows .single (roundExact .single (roundMode rn) (doubleValue d)) = false := by
  have hsign := Bool.toNat_le (d.getLsbD 63)
  have hfrac := fracField_lt d
  have hup := Bool.toNat_le (frspIncrements rn d)
  rw [expField, toNat_frspRounded rn (by omega)] at hresult
  refine Bool.eq_false_iff.mpr fun hover => ?_
  rw [roundExact_single rn hlow, roundOverflows_eq_true] at hover
  obtain ⟨htop, hq⟩ := hover
  simp only [formatEmax, formatFraction] at htop hq
  have hunit : ((expField d : Int) - 1046 - (127 - (23 : Nat))).toNat = 0 := by omega
  rw [hunit] at hq
  omega

theorem isTiny_eq_true (fmt : Format) (z : Exact) :
    isTiny fmt z = true ↔ 0 < z.num ∧ z.num * 2 ^ (-formatEmin fmt).toNat < z.den := by
  simp [isTiny]

/-- A double in that range is not tiny (R207). -/
theorem isTiny_single (hlow : 897 ≤ expField d) : isTiny .single (doubleValue d) = false := by
  have hpow : 2 ^ (-((expField d : Int) - 1075)).toNat ≤ 2 ^ 178 := Nat.pow_le_pow_right (by decide) (by omega)
  have hone : 1 ≤ 2 ^ ((expField d : Int) - 1075).toNat := Nat.one_le_two_pow
  refine Bool.eq_false_iff.mpr fun htiny => ?_
  rw [doubleValue_of_normalized (by omega), isTiny_eq_true] at htiny
  obtain ⟨-, hlt⟩ := htiny
  refine Nat.not_lt.mpr ?_ hlt
  calc 2 ^ (-((expField d : Int) - 1075)).toNat ≤ 2 ^ 52 * 1 * 2 ^ 126 := hpow
    _ ≤ (2 ^ 52 + fracField d) * 2 ^ ((expField d : Int) - 1075).toNat * 2 ^ (- -126 : Int).toNat :=
      Nat.mul_le_mul_right _ (Nat.mul_le_mul (Nat.le_add_right _ _) hone)

theorem doubleValue_num_ne_zero (h0 : expField d ≠ 0) : (doubleValue d).num ≠ 0 := by
  rw [doubleValue_of_normalized h0, exactScaled]
  positivity

end

/-! ### The rounded result delivered (R232, R286) -/

/-- A result in the range of the format: delivered, unless it is inexact with that exception enabled. -/
theorem deliverRounded_of_in_range (p : Platform) (f : Fpscr) {fmt : Format} {z : Exact} {r : Rounded}
    (hr : roundExact fmt (roundMode f.rn) z = r) (hrange : roundOverflows fmt r = false) :
    deliverRounded p f fmt z =
      if r.inexact && f.xe && decide (p.fpEnvelope ≠ .ieee) then .assist
      else .deliver (doubleOfScaled r.neg r.q r.e) r.incremented r.inexact r.inexact := by
  simp only [deliverRounded, hr, hrange, Bool.false_eq_true, if_false]

/-- A number that is neither zero nor tiny is rounded. -/
theorem deliverExact_of_normal (p : Platform) (f : Fpscr) {fmt : Format} (denormal : Bool) {z : Exact} (h0 : z.num ≠ 0)
    (htiny : isTiny fmt z = false) : deliverExact p f fmt denormal z = deliverRounded p f fmt z := by
  rw [deliverExact, if_neg h0, htiny, if_neg Bool.false_ne_true]

/-- `frsp` of a number between two neighbouring normalized singles (R212, R232). -/
theorem frspOutcome_of_inexact {d : Double} (p : Platform) (f : Fpscr) (hlow : 897 ≤ expField d)
    (hhigh : expField d ≤ 1150) (hinexact : d.toNat % 2 ^ 29 ≠ 0) (hresult : expField (frspRounded f.rn d) ≤ 1150) :
    frspOutcome p f d =
      if f.xe && decide (p.fpEnvelope ≠ .ieee) then .assist
      else .deliver (frspRounded f.rn d) (frspIncrements f.rn d) true true := by
  have hrepr : reprSingle d = false := Bool.eq_false_iff.mpr fun h => hinexact (mod_of_reprSingle h)
  have hrange := roundOverflows_single f.rn hlow hhigh hresult
  rw [frspOutcome_of_number (by omega) (by omega) hrepr,
    deliverExact_of_normal p f false (doubleValue_num_ne_zero (by omega)) (isTiny_single hlow),
    deliverRounded_of_in_range p f rfl hrange, roundExact_single f.rn hlow,
    doubleOfScaled_rounded f.rn hlow (by omega), decide_eq_true hinexact, Bool.true_and]

/-- Settles O49: the result by the operand's bits, or the envelope. -/
theorem frspRoundsByGuardRoundSticky : Obligations.FrspRoundsByGuardRoundSticky := by
  intro frD frB rc s hlow hhigh hinexact hresult
  have houtcome := frspOutcome_of_inexact s.platform s.fpscr hlow hhigh hinexact hresult
  refine ⟨fun hdelivers hpc => ?delivered, fun hxe hp => ?assist⟩
  case delivered =>
    rw [if_neg (by simpa [imp_iff_not_or] using hdelivers)] at houtcome
    obtain ⟨t, hexec, hresult, hfr, hfi, hxx, hframe⟩ := frsp_of_deliver (frD := frD) (rc := rc) hpc houtcome
    exact ⟨t, hexec, hresult, hfi, hfr, hxx.trans (Bool.or_true _), hframe⟩
  case assist => exact frsp_of_assist (houtcome.trans (if_pos (by simp [hxe, hp])))

end Sys2Proof.Machine
end

section
/-! PROOFS. Signs of results (spec/43_fp_data_handling.md R201 to R203): what inverting the sign of a pattern changes,
exact zero sums, and the signs of products and quotients through every outcome that delivers one. -/

namespace Sys2Proof.Machine

/-! ### The sign of a pattern inverted (R171) -/

/-- A pattern with its sign bit inverted is packed from the other sign and the same fields. -/
theorem packDouble_xor_sign (neg : Bool) (e : BitVec 11) (f : BitVec 52) :
    packDouble neg e f ^^^ 0x8000000000000000 = packDouble (!neg) e f := by
  have hflip : BitVec.ofBool neg ^^^ BitVec.ofBool true = BitVec.ofBool (!neg) := by cases neg <;> rfl
  calc packDouble neg e f ^^^ packDouble true 0 0
      = (BitVec.ofBool neg ++ e ^^^ BitVec.ofBool true ++ 0#11) ++ (f ^^^ 0#52) := BitVec.xor_append
    _ = packDouble (!neg) e f := by
      rw [BitVec.xor_append, hflip, BitVec.xor_zero, BitVec.xor_zero]
      rfl

section
variable (d : Double)

theorem doubleFields_xor_sign :
    doubleFields (d ^^^ 0x8000000000000000) = { doubleFields d with sign := !(doubleFields d).sign } := by
  conv_lhs => rw [← packDouble_fields d, packDouble_xor_sign, doubleFields_packDouble]
  rfl

theorem isNaN_xor_sign : isNaN (d ^^^ 0x8000000000000000) = isNaN d := by
  rw [Bool.eq_iff_iff, isNaN_iff, isNaN_iff]
  simp only [← doubleFields_exp, ← doubleFields_frac, doubleFields_xor_sign]

theorem isDenormalized_xor_sign : isDenormalized (d ^^^ 0x8000000000000000) = isDenormalized d := by
  simp only [isDenormalized, doubleFields_xor_sign]

theorem reprSingle_xor_sign : reprSingle (d ^^^ 0x8000000000000000) = reprSingle d := by
  simp only [reprSingle, doubleFields_xor_sign]

theorem expField_xor_sign : expField (d ^^^ 0x8000000000000000) = expField d := by
  rw [← doubleFields_exp, doubleFields_xor_sign, doubleFields_exp]

theorem doubleValue_xor_sign : doubleValue (d ^^^ 0x8000000000000000) = (doubleValue d).negate := by
  rw [doubleValue, doubleFields_xor_sign]
  rfl

end

/-! ### The datum of a double (R177, R192) -/

theorem doubleValue_neg (d : Double) : (doubleValue d).neg = d.getLsbD 63 := rfl

/-- A double that is no NaN is an infinity or a number, of its sign. -/
theorem doubleDatum_cases (d : Double) :
    doubleDatum d = .infinite (d.getLsbD 63) ∧ expField d = 2047 ∨ doubleDatum d = .finite (doubleValue d) := by
  rw [doubleDatum]
  split
  next neg hclass =>
    simp only [doubleClass, doubleFields_eq, fpClass, formatExpMax] at hclass
    split_ifs at hclass with hexp
    cases hclass
    exact .inl ⟨rfl, hexp⟩
  · exact .inr rfl

theorem doubleDatum_of_finite {d : Double} (h : expField d ≠ 2047) : doubleDatum d = .finite (doubleValue d) :=
  (doubleDatum_cases d).resolve_left fun hinf => h hinf.right

/-- A zero's pattern is its sign's (R181). -/
theorem zeroDouble_of_zero {d : Double} (h : d.toNat % 2 ^ 63 = 0) :
    zeroDouble (d.getLsbD 63) = d ∧ (doubleValue d).num = 0 := by
  have hnat := toNat_eq_fields d
  have hexp : expField d = 0 := by rw [expField]; omega
  have hfrac : fracField d = 0 := by rw [fracField]; omega
  refine ⟨BitVec.eq_of_toNat_eq ?_, ?_⟩
  · rw [zeroDouble, toNat_packDouble, hnat, hexp, hfrac]
    rfl
  · simp [doubleValue, doubleFields_eq, fpValue, exactScaled, significand, impliedBit, hexp, hfrac]

/-! ### Exact zero sums (R201, R202) -/

/-- A number and its negative: zero, positive but in round toward minus infinity. -/
theorem add_negate (mode : RoundMode) (z : Exact) :
    z.add mode z.negate = ⟨decide (mode = .towardMinus), 0, z.den * z.den⟩ := by
  have hsum : z.signedNum * z.negate.den + z.negate.signedNum * z.den = 0 := by
    obtain ⟨neg, num, den⟩ := z
    cases neg <;> simp [Exact.signedNum, Exact.negate]
  have hsign : z.neg ≠ z.negate.neg := by simp [Exact.negate]
  simp only [Exact.add, hsum, if_pos, if_neg hsign]
  rfl

/-- A zero added to itself keeps its sign. -/
theorem add_self_of_zero (mode : RoundMode) {z : Exact} (h : z.num = 0) :
    z.add mode z = ⟨z.neg, 0, z.den * z.den⟩ := by
  have hsum : z.signedNum * z.den + z.signedNum * z.den = 0 := by simp [Exact.signedNum, h]
  simp only [Exact.add, hsum, if_pos, Int.natAbs_zero]

/-- The zero of round toward minus infinity is the negative one (R202; Table 3-7). -/
theorem zeroDouble_towardMinus (rn : BitVec 2) :
    zeroDouble (decide (roundMode rn = .towardMinus)) = if rn = 3 then 0x8000000000000000 else 0 := by
  revert rn
  decide

/-- An exact zero sum or difference of operands alike but for their signs is delivered with its sign (R202, R232). -/
theorem arithOutcome_of_zero {p : Platform} {f : Fpscr} {fmt : Format} {op : FpOp} {x y c : Double}
    (hop : op = .add ∨ op = .sub) (hnan : isNaN x = false)
    (hden : isDenormalized x = false ∨ p.fpEnvelope = .ieee) (hrepr : fmt = .single → reprSingle x = true)
    (halike : isNaN y = isNaN x ∧ isDenormalized y = isDenormalized x ∧ reprSingle y = reprSingle x) {neg : Bool}
    (hzero : op.exact (roundMode f.rn) (doubleDatum x) (doubleDatum y) (doubleDatum c) =
      .finite ⟨neg, 0, (doubleValue x).den * (doubleValue x).den⟩) :
    arithOutcome p f fmt op x y c = .deliver (zeroDouble neg) false false false := by
  obtain ⟨hnanY, hdenY, hreprY⟩ := halike
  have hops : op.usesB = true ∧ op.usesC = false ∧ op.negates = false := by
    obtain rfl | rfl := hop <;> exact ⟨rfl, rfl, rfl⟩
  obtain ⟨hB, hC, hnegates⟩ := hops
  have hfree : ¬ (fmt = .single ∧ [x, y].any (fun d => !reprSingle d) = true) := by simpa [hreprY] using hrepr
  have hassist : ([x, y].any isDenormalized && decide (p.fpEnvelope ≠ .ieee)) = false := by
    simpa [hdenY, ← Bool.not_eq_true, imp_iff_not_or] using hden
  have hnone : [x, y].any isNaN = false := by simp [hnanY, hnan]
  have hsources : [x] ++ (if op.usesB then [y] else []) ++ (if op.usesC then [c] else []) = [x, y] := by
    simp [hB, hC]
  simp only [arithOutcome, hsources, if_neg hfree, hassist, hnone, hzero, hnegates, Bool.false_eq_true, if_false]
  exact if_pos rfl

/-- Settles O57: each of the three is the exact zero of R201 or R202. -/
theorem exactZeroSums : Obligations.ExactZeroSums := by
  intro p f fmt x c hnan hexp hden hrepr
  refine ⟨?opposite, ?difference, fun hx => ?like⟩
  case opposite =>
    have hopposite : doubleDatum (x ^^^ 0x8000000000000000) = .finite (doubleValue x).negate := by
      rw [doubleDatum_of_finite ((expField_xor_sign x).trans_ne hexp), doubleValue_xor_sign]
    rw [← zeroDouble_towardMinus]
    refine arithOutcome_of_zero (.inl rfl) hnan hden hrepr
      ⟨isNaN_xor_sign x, isDenormalized_xor_sign x, reprSingle_xor_sign x⟩ ?_
    rw [FpOp.exact, doubleDatum_of_finite hexp, hopposite, Datum.add, add_negate]
  case difference =>
    rw [← zeroDouble_towardMinus]
    refine arithOutcome_of_zero (.inr rfl) hnan hden hrepr ⟨rfl, rfl, rfl⟩ ?_
    rw [FpOp.exact, doubleDatum_of_finite hexp, Datum.negate, Datum.add, add_negate]
  case like =>
    obtain ⟨hpattern, hnum⟩ := zeroDouble_of_zero hx
    conv_rhs => rw [← hpattern, ← doubleValue_neg]
    refine arithOutcome_of_zero (.inl rfl) hnan hden hrepr ⟨rfl, rfl, rfl⟩ ?_
    rw [FpOp.exact, doubleDatum_of_finite hexp, Datum.add, add_self_of_zero _ hnum]

/-! ### Delivered NaNs (R190, R191) -/

/-- Quieting keeps the exponent field, and the fraction is not zero. -/
theorem isNaN_quieted {d : Double} (h : isNaN d = true) : isNaN (quieted d) = true := by
  rw [isNaN_iff, expField, fracField] at h ⊢
  obtain ⟨hexp, hfrac⟩ := h
  have hhigh : (0x0008000000000000 : Double).toNat / 2 ^ 52 = 0 := by decide
  rw [quieted, BitVec.toNat_or, Nat.or_div_two_pow, hhigh, Nat.or_zero, Nat.or_mod_two_pow]
  refine ⟨hexp, fun hzero => hfrac ?_⟩
  exact (Nat.or_eq_zero_iff.mp hzero).1

theorem isNaN_nanResult (a b c : Option Double) : isNaN (nanResult a b c) = true := by
  unfold nanResult
  split
  next d hd =>
    obtain ⟨-, hnan⟩ := List.mem_filter.mp (List.mem_of_head? hd)
    exact isNaN_quieted hnan
  · decide

/-! ### The sign of a result through its outcome (R203) -/

/-- A result that is no NaN has the sign `neg`, and so has one that is stated by its sign alone. -/
def FpOutcome.HasSign (neg : Bool) : FpOutcome → Prop
  | .deliver d _ _ _ => isNaN d = false → d.getLsbD 63 = neg
  | .flush d => d.getLsbD 63 = neg
  | .unstated _ sign => ∀ n, sign = some n → n = neg
  | .free => True
  | .assist => True

theorem getLsbD_zeroDouble (neg : Bool) : (zeroDouble neg).getLsbD 63 = neg := getLsbD_packDouble ..

theorem getLsbD_infinityDouble (neg : Bool) : (infinityDouble neg).getLsbD 63 = neg := getLsbD_packDouble ..

theorem getLsbD_doubleOfScaled (neg : Bool) (q : Nat) (e : Int) : (doubleOfScaled neg q e).getLsbD 63 = neg := by
  unfold doubleOfScaled
  dsimp only
  split_ifs <;> exact getLsbD_packDouble ..

section
variable (p : Platform) (f : Fpscr) (fmt : Format)

theorem hasSign_deliver_isNaN (neg : Bool) {d : Double} (h : isNaN d = true) (fr fi inexact : Bool) :
    (FpOutcome.deliver d fr fi inexact).HasSign neg :=
  fun hnum => Bool.noConfusion (h.symm.trans hnum)

theorem hasSign_deliverInvalid (neg : Bool) {d : Double} (h : isNaN d = true) :
    (deliverInvalid p f fmt d).HasSign neg := by
  unfold deliverInvalid
  split_ifs
  · exact nofun
  · trivial
  · exact hasSign_deliver_isNaN neg h _ _ _

theorem hasSign_deliverZeroDivide (neg : Bool) : (deliverZeroDivide p f fmt neg).HasSign neg := by
  unfold deliverZeroDivide
  split
  · trivial
  · exact fun n hn => (Option.some.inj hn).symm

/-- Rounding, overflow and the adjusted exponent keep the sign. -/
theorem hasSign_deliverRounded (z : Exact) : (deliverRounded p f fmt z).HasSign z.neg := by
  have hneg : (roundExact fmt (roundMode f.rn) z).neg = z.neg := rfl
  unfold deliverRounded
  dsimp only
  generalize roundExact fmt (roundMode f.rn) z = r at *
  rw [hneg]
  split_ifs
  · exact fun _ => getLsbD_doubleOfScaled ..
  · trivial
  · trivial
  · exact fun _ => getLsbD_infinityDouble _
  · exact fun _ => getLsbD_doubleOfScaled ..
  · trivial
  · exact fun _ => getLsbD_doubleOfScaled ..

theorem hasSign_deliverExact (denormal : Bool) (z : Exact) : (deliverExact p f fmt denormal z).HasSign z.neg := by
  unfold deliverExact
  split_ifs
  · exact fun _ => getLsbD_zeroDouble _
  · exact getLsbD_zeroDouble _
  · trivial
  · exact fun n hn => (Option.some.inj hn).symm
  · exact hasSign_deliverRounded p f fmt z
  · exact hasSign_deliverRounded p f fmt z

/-- A datum that is not invalid has the sign `neg`. -/
def Datum.HasSign (neg : Bool) : Datum → Prop
  | .finite z => z.neg = neg
  | .infinite n => n = neg
  | .zeroDivide n => n = neg
  | .invalid => True

/-- The outcome of an instruction that does not negate has the sign of the exact result. -/
theorem hasSign_arithOutcome {op : FpOp} (hop : op.negates = false) (a b c : Double) {neg : Bool}
    (hsign : (op.exact (roundMode f.rn) (doubleDatum a) (doubleDatum b) (doubleDatum c)).HasSign neg) :
    (arithOutcome p f fmt op a b c).HasSign neg := by
  unfold arithOutcome
  simp only [hop, Bool.false_eq_true, if_false]
  generalize op.exact (roundMode f.rn) (doubleDatum a) (doubleDatum b) (doubleDatum c) = x at *
  generalize [a] ++ (if op.usesB then [b] else []) ++ (if op.usesC then [c] else []) = sources
  have hnan := isNaN_nanResult (some a) (if op.usesB then some b else none) (if op.usesC then some c else none)
  generalize nanResult (some a) (if op.usesB then some b else none) (if op.usesC then some c else none) = result at *
  split_ifs
  · trivial
  · trivial
  · exact hasSign_deliverInvalid p f fmt neg hnan
  · exact hasSign_deliver_isNaN neg hnan _ _ _
  · cases x with
    | invalid => exact hasSign_deliverInvalid p f fmt neg (by decide)
    | zeroDivide n => exact hsign ▸ hasSign_deliverZeroDivide p f fmt n
    | infinite n => exact fun _ => (getLsbD_infinityDouble n).trans hsign
    | finite z => exact hsign ▸ hasSign_deliverExact p f fmt _ z

end

/-! ### Products and quotients (R203) -/

section
variable (a b : Double)

/-- The product of two doubles that are no NaN, by their kinds; infinity times zero is invalid. -/
theorem hasSign_mul : ((doubleDatum a).mul (doubleDatum b)).HasSign (a.getLsbD 63 != b.getLsbD 63) := by
  obtain ⟨ha, -⟩ | ha := doubleDatum_cases a <;> obtain ⟨hb, -⟩ | hb := doubleDatum_cases b <;> rw [ha, hb, Datum.mul]
  · rfl
  · split_ifs
    · trivial
    · rfl
  · split_ifs
    · trivial
    · rfl
  · rfl

/-- The quotient, by the operands' kinds; zero by zero and infinity by infinity are invalid. -/
theorem hasSign_div : ((doubleDatum a).div (doubleDatum b)).HasSign (a.getLsbD 63 != b.getLsbD 63) := by
  obtain ⟨ha, -⟩ | ha := doubleDatum_cases a <;> obtain ⟨hb, -⟩ | hb := doubleDatum_cases b <;> rw [ha, hb, Datum.div]
  · trivial
  · rfl
  · rfl
  · split_ifs
    · trivial
    · rfl
    · rfl

end

/-- What an outcome of a sign says about its result. -/
theorem FpOutcome.HasSign.result {neg : Bool} {o : FpOutcome} (h : o.HasSign neg) {d : Double} {fr fi inexact : Bool}
    (hnum : isNaN d = false) (ho : o = .deliver d fr fi inexact ∨ o = .flush d) : d.getLsbD 63 = neg := by
  obtain rfl | rfl := ho
  · exact h hnum
  · exact h

/-- Settles O58: the exact product and quotient have that sign, and every outcome keeps it. -/
theorem productAndQuotientSigns : Obligations.ProductAndQuotientSigns := by
  intro p f fmt a b c d fr fi ix hnum
  have hmul := hasSign_arithOutcome p f fmt (op := .mul) rfl a b c (hasSign_mul a c)
  have hdiv := hasSign_arithOutcome p f fmt (op := .div) rfl a b c (hasSign_div a b)
  refine ⟨hmul.result hnum, hdiv.result hnum, fun neg h => ?product, fun neg h => ?quotient⟩
  case product => exact (h ▸ hmul) neg rfl
  case quotient => exact (h ▸ hdiv) neg rfl

end Sys2Proof.Machine
end

section
/-! PROOFS. Rounding at a place (spec/44_fp_rounding_and_execution_models.md R230, R235, R240): an exact number in units
of a power of two, its leading bit, and which of its neighbours each mode chooses. -/

namespace Sys2Proof.Machine

/-! ### An exact number in units of a power of two -/

section
variable (z : Exact)

/-- Units `j` places lower: the ratio is `2^j` times as large, but for a common factor. -/
theorem scaled_add (e : Int) (j : Nat) :
    ∃ c, 0 < c ∧ z.scaledNum e = z.scaledNum (e + j) * c ∧ z.scaledDen e * 2 ^ j = z.scaledDen (e + j) * c := by
  refine ⟨2 ^ ((-e).toNat - (-(e + j)).toNat), by positivity, ?num, ?den⟩
  case num =>
    rw [Exact.scaledNum, Exact.scaledNum, Nat.mul_assoc, ← pow_add]
    congr 2
    omega
  case den =>
    rw [Exact.scaledDen, Exact.scaledDen, Nat.mul_assoc, Nat.mul_assoc, ← pow_add, ← pow_add]
    congr 2
    omega

theorem exponent_eq :
    z.exponent =
      if z.scaledDen ((z.num.log2 : Int) - z.den.log2) ≤ z.scaledNum ((z.num.log2 : Int) - z.den.log2) then
        (z.num.log2 : Int) - z.den.log2
      else (z.num.log2 : Int) - z.den.log2 - 1 := rfl

variable {z}

theorem scaledDen_pos (hden : z.den ≠ 0) (e : Int) : 0 < z.scaledDen e := by
  rw [Exact.scaledDen]
  positivity

variable (hnum : z.num ≠ 0) (hden : z.den ≠ 0)
include hnum hden

/-- The leading bits of numerator and denominator give that of the ratio, but for one place. -/
theorem scaled_log2_lt :
    z.scaledNum ((z.num.log2 : Int) - z.den.log2) < 2 * z.scaledDen ((z.num.log2 : Int) - z.den.log2) ∧
    z.scaledDen ((z.num.log2 : Int) - z.den.log2) < 2 * z.scaledNum ((z.num.log2 : Int) - z.den.log2) := by
  obtain ⟨hnumLow, hnumHigh⟩ := (Nat.log2_eq_iff hnum).mp rfl
  obtain ⟨hdenLow, hdenHigh⟩ := (Nat.log2_eq_iff hden).mp rfl
  rw [Exact.scaledNum, Exact.scaledDen]
  generalize z.num.log2 = n at *
  generalize z.den.log2 = m at *
  have hscale : 2 ^ n * 2 ^ (-((n : Int) - m)).toNat = 2 ^ m * 2 ^ ((n : Int) - m).toNat := by
    rw [← pow_add, ← pow_add]
    congr 1
    omega
  rw [pow_succ] at hnumHigh hdenHigh
  constructor
  · calc z.num * 2 ^ (-((n : Int) - m)).toNat < 2 ^ n * 2 * 2 ^ (-((n : Int) - m)).toNat :=
          Nat.mul_lt_mul_of_pos_right hnumHigh (by positivity)
      _ = 2 * (2 ^ m * 2 ^ ((n : Int) - m).toNat) := by rw [← hscale]; ring
      _ ≤ 2 * (z.den * 2 ^ ((n : Int) - m).toNat) := by gcongr
  · calc z.den * 2 ^ ((n : Int) - m).toNat < 2 ^ m * 2 * 2 ^ ((n : Int) - m).toNat :=
          Nat.mul_lt_mul_of_pos_right hdenHigh (by positivity)
      _ = 2 * (2 ^ n * 2 ^ (-((n : Int) - m)).toNat) := by rw [hscale]; ring
      _ ≤ 2 * (z.num * 2 ^ (-((n : Int) - m)).toNat) := by gcongr

/-- `2^E ≤ |Z| < 2^(E+1)`. -/
theorem scaled_exponent :
    z.scaledDen z.exponent ≤ z.scaledNum z.exponent ∧ z.scaledNum z.exponent < 2 * z.scaledDen z.exponent := by
  obtain ⟨hhigh, hlow⟩ := scaled_log2_lt hnum hden
  rw [exponent_eq]
  generalize (z.num.log2 : Int) - z.den.log2 = l at *
  split_ifs with hle
  · exact ⟨hle, hhigh⟩
  · obtain ⟨c, hc, hN, hD⟩ := scaled_add z (l - 1) 1
    rw [Nat.cast_one, Int.sub_add_cancel] at hN hD
    have hlow' := Nat.mul_lt_mul_of_pos_right hlow hc
    have hlt := Nat.mul_lt_mul_of_pos_right (Nat.lt_of_not_le hle) hc
    rw [Nat.mul_assoc] at hlow'
    omega

/-- `j` places below the leading bit the ratio has `j + 1` bits. -/
theorem scaled_exponent_sub (j : Nat) :
    2 ^ j * z.scaledDen (z.exponent - j) ≤ z.scaledNum (z.exponent - j) ∧
    z.scaledNum (z.exponent - j) < 2 ^ (j + 1) * z.scaledDen (z.exponent - j) := by
  obtain ⟨hlow, hhigh⟩ := scaled_exponent hnum hden
  obtain ⟨c, hc, hN, hD⟩ := scaled_add z (z.exponent - j) j
  rw [Int.sub_add_cancel] at hN hD
  rw [pow_succ, Nat.mul_right_comm, Nat.mul_comm (2 ^ j), hD, hN, Nat.mul_right_comm, Nat.mul_comm _ 2]
  exact ⟨Nat.mul_le_mul_right c hlow, Nat.mul_lt_mul_of_pos_right hhigh hc⟩

end

/-- The last place, counted from that of a significand of full length (R240, R262). -/
theorem roundPlace_eq (fmt : Format) (z : Exact) :
    roundPlace fmt z = z.exponent - formatFraction fmt + (formatEmin fmt - z.exponent).toNat := by
  rw [roundPlace]
  omega

/-- In units of the last place the exact number has at most `p + 1` bits. -/
theorem scaledNum_roundPlace_lt (fmt : Format) {z : Exact} (hnum : z.num ≠ 0) (hden : z.den ≠ 0) :
    z.scaledNum (roundPlace fmt z) < 2 ^ (formatFraction fmt + 1) * z.scaledDen (roundPlace fmt z) := by
  obtain ⟨-, hlt⟩ := scaled_exponent_sub hnum hden (formatFraction fmt)
  obtain ⟨c, hc, hN, hD⟩ := scaled_add z (z.exponent - formatFraction fmt) (formatEmin fmt - z.exponent).toNat
  rw [← roundPlace_eq] at hN hD
  refine Nat.lt_of_mul_lt_mul_right (a := c) ?_
  calc z.scaledNum (roundPlace fmt z) * c
      < 2 ^ (formatFraction fmt + 1) * z.scaledDen (z.exponent - formatFraction fmt) := hN ▸ hlt
    _ ≤ 2 ^ (formatFraction fmt + 1) * (z.scaledDen (z.exponent - formatFraction fmt) *
          2 ^ (formatEmin fmt - z.exponent).toNat) :=
        Nat.mul_le_mul_left _ (Nat.le_mul_of_pos_right _ (by positivity))
    _ = 2 ^ (formatFraction fmt + 1) * z.scaledDen (roundPlace fmt z) * c := by rw [hD, Nat.mul_assoc]

/-- Above the place of the denormalized numbers the significand has its full length. -/
theorem le_scaledNum_roundPlace {fmt : Format} {z : Exact} (hnum : z.num ≠ 0) (hden : z.den ≠ 0)
    (h : formatEmin fmt - formatFraction fmt < roundPlace fmt z) :
    2 ^ formatFraction fmt * z.scaledDen (roundPlace fmt z) ≤ z.scaledNum (roundPlace fmt z) := by
  have hplace : roundPlace fmt z = z.exponent - formatFraction fmt := by
    rw [roundPlace] at h ⊢
    omega
  rw [hplace]
  exact (scaled_exponent_sub hnum hden _).left

/-! ### The neighbour that each mode chooses (R235) -/

/-- `q` and a remainder of `r` parts in `d`, rounded to an integer. -/
def roundedQuotient (mode : RoundMode) (neg : Bool) (q r d : Nat) : Nat :=
  q + (choosesLarger mode neg (q % 2 == 1) r d).toNat

theorem roundExact_eq (fmt : Format) (mode : RoundMode) (z : Exact) {e : Int} (he : roundPlace fmt z = e) :
    roundExact fmt mode z =
      ⟨z.neg,
        roundedQuotient mode z.neg (z.scaledNum e / z.scaledDen e) (z.scaledNum e % z.scaledDen e) (z.scaledDen e), e,
        choosesLarger mode z.neg (z.scaledNum e / z.scaledDen e % 2 == 1) (z.scaledNum e % z.scaledDen e)
          (z.scaledDen e), decide (z.scaledNum e % z.scaledDen e ≠ 0)⟩ := by
  subst he
  simp only [roundExact, roundedQuotient]
  split_ifs with hup
  · rw [hup]
    rfl
  · rw [Bool.eq_false_iff.mpr hup]
    rfl

theorem choosesLarger_nearest (neg odd : Bool) (r d : Nat) :
    choosesLarger .nearest neg odd r d = true ↔ d < 2 * r ∨ 2 * r = d ∧ odd = true := by
  simp [choosesLarger]

/-- An exact number is not incremented. -/
theorem choosesLarger_zero (mode : RoundMode) (neg odd : Bool) {d : Nat} (hd : 0 < d) :
    choosesLarger mode neg odd 0 d = false := by
  cases mode with
  | nearest => simp [choosesLarger, hd.ne]
  | towardZero => rfl
  | towardPlus => simp [choosesLarger]
  | towardMinus => simp [choosesLarger]

/-- Where the mode looks at the sign alone, the larger neighbour is chosen of every number that is not exact. -/
theorem choosesLarger_directed {mode : RoundMode} {neg : Bool}
    (h : (mode = .towardPlus ∧ neg = false) ∨ (mode = .towardMinus ∧ neg = true)) (odd : Bool) (r d : Nat) :
    choosesLarger mode neg odd r d = decide (r ≠ 0) := by
  obtain ⟨rfl, rfl⟩ | ⟨rfl, rfl⟩ := h <;> simp [choosesLarger]

theorem choosesLarger_truncates {mode : RoundMode} {neg : Bool}
    (h : mode = .towardZero ∨ (mode = .towardPlus ∧ neg = true) ∨ (mode = .towardMinus ∧ neg = false))
    (odd : Bool) (r d : Nat) : choosesLarger mode neg odd r d = false := by
  obtain rfl | ⟨rfl, rfl⟩ | ⟨rfl, rfl⟩ := h <;> simp [choosesLarger]

section
variable (neg : Bool) (q : Nat) {r d : Nat} (hr : r < d)
include hr

/-- How far an integer lies from `q + r/d`: the two neighbours, and all others. -/
theorem distance_cases (n : Nat) :
    n = q ∧ ((n * d : Int) - (q * d + r : Nat)).natAbs = r ∨
    n = q + 1 ∧ ((n * d : Int) - (q * d + r : Nat)).natAbs = d - r ∨
    n ≠ q ∧ n ≠ q + 1 ∧ d ≤ ((n * d : Int) - (q * d + r : Nat)).natAbs := by
  obtain hlt | rfl | rfl | hgt : n < q ∨ n = q ∨ n = q + 1 ∨ q + 2 ≤ n := by omega
  · have hmul := Nat.mul_le_mul_right d hlt
    rw [Nat.succ_mul] at hmul
    push_cast
    zify at hmul
    omega
  · push_cast
    omega
  · push_cast
    rw [Int.add_mul]
    omega
  · have hmul := Nat.mul_le_mul_right d hgt
    rw [Nat.add_mul] at hmul
    push_cast
    zify at hmul
    omega

/-- No integer is nearer than the one that round to nearest chooses, and in a tie that one is even. -/
theorem roundedQuotient_nearest (n : Nat) :
    ((roundedQuotient .nearest neg q r d * d : Int) - (q * d + r : Nat)).natAbs ≤
        ((n * d : Int) - (q * d + r : Nat)).natAbs ∧
      (n ≠ roundedQuotient .nearest neg q r d →
        ((n * d : Int) - (q * d + r : Nat)).natAbs =
          ((roundedQuotient .nearest neg q r d * d : Int) - (q * d + r : Nat)).natAbs →
        roundedQuotient .nearest neg q r d % 2 = 0) := by
  have hup := choosesLarger_nearest neg (q % 2 == 1) r d
  have hchosen := distance_cases q hr (roundedQuotient .nearest neg q r d)
  have hother := distance_cases q hr n
  rw [beq_iff_eq] at hup
  generalize ((n * d : Int) - (q * d + r : Nat)).natAbs = other at *
  generalize ((roundedQuotient .nearest neg q r d * d : Int) - (q * d + r : Nat)).natAbs = chosen at *
  rw [roundedQuotient] at *
  cases hcase : choosesLarger .nearest neg (q % 2 == 1) r d with
  | false =>
    rw [hcase, Bool.toNat_false, Nat.add_zero] at hchosen
    have hkept : ¬ (d < 2 * r ∨ 2 * r = d ∧ q % 2 = 1) := fun h =>
      Bool.false_ne_true (hcase.symm.trans (hup.mpr h))
    rw [Bool.toNat_false]
    omega
  | true =>
    rw [hcase, Bool.toNat_true] at hchosen
    have hlarger := hup.mp hcase
    rw [Bool.toNat_true]
    omega

theorem roundedQuotient_truncates {mode : RoundMode} {neg : Bool}
    (h : mode = .towardZero ∨ (mode = .towardPlus ∧ neg = true) ∨ (mode = .towardMinus ∧ neg = false)) :
    roundedQuotient mode neg q r d * d ≤ q * d + r ∧ q * d + r < (roundedQuotient mode neg q r d + 1) * d := by
  rw [roundedQuotient, choosesLarger_truncates h, Bool.toNat_false, Nat.add_zero, Nat.add_mul]
  omega

theorem roundedQuotient_directed {mode : RoundMode} {neg : Bool}
    (h : (mode = .towardPlus ∧ neg = false) ∨ (mode = .towardMinus ∧ neg = true)) :
    q * d + r ≤ roundedQuotient mode neg q r d * d ∧ roundedQuotient mode neg q r d * d < q * d + r + d := by
  rw [roundedQuotient, choosesLarger_directed h, Nat.add_mul]
  by_cases hr0 : r = 0
  · rw [decide_eq_false (not_not.mpr hr0), Bool.toNat_false]
    omega
  · rw [decide_eq_true hr0, Bool.toNat_true]
    omega

/-- The result differs from the exact number if anything was dropped, and exceeds it if the larger one was chosen. -/
theorem roundedQuotient_compare (mode : RoundMode) (neg : Bool) :
    (r ≠ 0 ↔ roundedQuotient mode neg q r d * d ≠ q * d + r) ∧
    (choosesLarger mode neg (q % 2 == 1) r d = true ↔ q * d + r < roundedQuotient mode neg q r d * d) := by
  have hzero : r = 0 → choosesLarger mode neg (q % 2 == 1) r d = false := by
    rintro rfl
    exact choosesLarger_zero mode neg _ hr
  rw [roundedQuotient, Nat.add_mul]
  cases hcase : choosesLarger mode neg (q % 2 == 1) r d with
  | false => simp
  | true =>
    have hr0 : r ≠ 0 := fun h => Bool.false_ne_true ((hzero h).symm.trans hcase)
    rw [Bool.toNat_true]
    exact ⟨iff_of_true hr0 (by omega), iff_of_true rfl (by omega)⟩

end

/-- Settles O54: the result is the rounded quotient of the exact number in units of the last place. -/
theorem roundingChoosesNeighbour : Obligations.RoundingChoosesNeighbour := by
  intro fmt mode z r N D hnum hden hr hN hD
  rw [roundExact_eq fmt mode z rfl] at hr
  have hlength := scaledNum_roundPlace_lt fmt hnum hden
  have hfull := le_scaledNum_roundPlace (fmt := fmt) hnum hden
  have hplace : formatEmin fmt - formatFraction fmt ≤ roundPlace fmt z := Int.le_max_right _ _
  have hpos := scaledDen_pos hden (roundPlace fmt z)
  subst hr
  dsimp only at hN hD ⊢
  rw [← hD] at hpos hfull hlength ⊢
  rw [← hN] at hfull hlength ⊢
  have hsplit : N / D * D + N % D = N := Nat.div_add_mod' N D
  have hrem : N % D < D := Nat.mod_lt N hpos
  have hquotient : N / D < 2 ^ (formatFraction fmt + 1) := Nat.div_lt_of_lt_mul (by rwa [Nat.mul_comm])
  generalize N / D = q at *
  generalize N % D = rest at *
  subst hsplit
  obtain ⟨hinexact, hincremented⟩ := roundedQuotient_compare q hrem mode z.neg
  refine ⟨rfl, ?bits, hplace, hfull, ?nearest, roundedQuotient_truncates q hrem, roundedQuotient_directed q hrem,
    decide_eq_true_iff.trans hinexact, hincremented⟩
  case bits =>
    have hup := Bool.toNat_le (choosesLarger mode z.neg (q % 2 == 1) rest D)
    rw [roundedQuotient]
    omega
  case nearest =>
    rintro rfl
    have hnearest := roundedQuotient_nearest z.neg q hrem
    exact ⟨fun n => (hnearest n).left, fun ⟨n, hne, htie⟩ => (hnearest n).right hne htie⟩

end Sys2Proof.Machine
end

section
/-! PROOFS. The accumulator with its guard, round and sticky bits (spec/44_fp_rounding_and_execution_models.md R252 to
R262): what denormalization leaves in it, and that it rounds as the exact number does. -/

namespace Sys2Proof.Machine

/-! ### The bits that rounding looks at (R208, R257) -/

/-- The accumulator's bits below the format's last place, G and R among them (R257). -/
def droppedBits : Format → Nat
  | .single => 31
  | .double => 2

/-- L and the 54 bits after it are the format's fraction and what is dropped. -/
theorem formatFraction_add_droppedBits (fmt : Format) : formatFraction fmt + droppedBits fmt = 54 := by
  cases fmt <;> rfl

section
variable (a : Accumulator) (fmt : Format)

theorem retained_eq : a.retained fmt = a.sig.toNat / 2 ^ droppedBits fmt := by
  cases fmt <;> exact (BitVec.toNat_ushiftRight ..).trans (Nat.shiftRight_eq_div_pow ..)

theorem guardBit_eq : a.guardBit fmt = a.sig.toNat.testBit (droppedBits fmt - 1) := by
  cases fmt <;> rfl

theorem roundBit_eq : a.roundBit fmt = a.sig.toNat.testBit (droppedBits fmt - 2) := by
  cases fmt <;> rfl

theorem stickyBit_eq :
    a.stickyBit fmt = (decide (a.sig.toNat % 2 ^ (droppedBits fmt - 2) ≠ 0) || a.sticky) := by
  cases fmt with
  | double => simp [Accumulator.stickyBit, droppedBits, Nat.mod_one]
  | single =>
    have hlow : (a.sig.extractLsb 28 0).toNat = a.sig.toNat % 2 ^ 29 := by
      rw [BitVec.extractLsb_toNat, Nat.shiftRight_zero]
    have hzero : (a.sig.extractLsb 28 0 != 0) = decide (a.sig.toNat % 2 ^ 29 ≠ 0) := by
      rw [Bool.eq_iff_iff, bne_iff_ne, decide_eq_true_iff, ← hlow, Ne, BitVec.toNat_eq]
      rfl
    rw [Accumulator.stickyBit, hzero]
    rfl

/-- The remainder by a product is not zero if `n` leaves something by the one factor, or the quotient by the other. -/
theorem decide_mod_mul_ne_zero (n : Nat) {d : Nat} (hd : 0 < d) (m : Nat) :
    decide (n % (d * m) ≠ 0) = (decide (n / d % m ≠ 0) || decide (n % d ≠ 0)) := by
  rw [Nat.mod_mul, ← Bool.decide_or, decide_eq_decide, Ne, Nat.add_eq_zero_iff, Nat.mul_eq_zero]
  simp only [hd.ne', false_or]
  tauto

theorem decide_mod_two_pow_add_ne_zero (s n k : Nat) :
    decide (s % 2 ^ (n + k) ≠ 0) = (decide (s / 2 ^ n % 2 ^ k ≠ 0) || decide (s % 2 ^ n ≠ 0)) := by
  rw [pow_add, decide_mod_mul_ne_zero s (by positivity)]

/-- `n` steps of denormalization: what is shifted out goes into X (R208). -/
theorem shiftRightBy_eq (n : Nat) (a : Accumulator) :
    a.shiftRightBy n = ⟨a.neg, a.exp + n, a.sig >>> n, decide (a.sig.toNat % 2 ^ n ≠ 0) || a.sticky⟩ := by
  induction n generalizing a with
  | zero => simp [Accumulator.shiftRightBy, Nat.mod_one]
  | succ n ih =>
    have hsig : a.sig >>> 1 >>> n = a.sig >>> (n + 1) := by rw [← BitVec.shiftRight_add, Nat.add_comm]
    have hexp : a.exp + 1 + n = a.exp + (n + 1 : Nat) := by omega
    have hbit : a.sig.getLsbD 0 = decide (a.sig.toNat % 2 ^ 1 ≠ 0) := by
      rw [BitVec.getLsbD, Nat.testBit_zero]
      simp
    have hsticky : (decide (a.sig.toNat / 2 ^ 1 % 2 ^ n ≠ 0) || (a.sticky || a.sig.getLsbD 0)) =
        (decide (a.sig.toNat % 2 ^ (n + 1) ≠ 0) || a.sticky) := by
      rw [hbit, Nat.add_comm n, decide_mod_two_pow_add_ne_zero, Bool.or_comm a.sticky, Bool.or_assoc]
    rw [Accumulator.shiftRightBy, ih, Accumulator.shiftRight]
    simp only [BitVec.toNat_ushiftRight, Nat.shiftRight_eq_div_pow, hsig, hexp, hsticky]

/-- What an accumulator rounds to after `n` steps of denormalization, from its bits before them. -/
theorem rounded_shiftRightBy (n t : Nat) (mode : RoundMode) (ht : n + droppedBits fmt = t + 2) :
    (a.shiftRightBy n).rounded fmt mode =
      let q := a.sig.toNat / 2 ^ (t + 2)
      let x := decide (a.sig.toNat % 2 ^ t ≠ 0) || a.sticky
      let up := grxIncrement mode a.neg (q % 2 == 1) (a.sig.toNat.testBit (t + 1)) (a.sig.toNat.testBit t) x
      ⟨a.neg, q + up.toNat, a.exp + n - formatFraction fmt, up,
        a.sig.toNat.testBit (t + 1) || a.sig.toNat.testBit t || x⟩ := by
  have htwo : 2 ≤ droppedBits fmt := by cases fmt <;> decide
  have hquotient : a.sig.toNat / 2 ^ n / 2 ^ droppedBits fmt = a.sig.toNat / 2 ^ (t + 2) := by
    rw [Nat.div_div_eq_div_mul, ← pow_add, ht]
  have hguard : (a.sig.toNat >>> n).testBit (droppedBits fmt - 1) = a.sig.toNat.testBit (t + 1) := by
    rw [Nat.testBit_shiftRight]
    congr 1
    omega
  have hround : (a.sig.toNat >>> n).testBit (droppedBits fmt - 2) = a.sig.toNat.testBit t := by
    rw [Nat.testBit_shiftRight]
    congr 1
    omega
  have hsticky : (decide (a.sig.toNat / 2 ^ n % 2 ^ (droppedBits fmt - 2) ≠ 0) ||
      (decide (a.sig.toNat % 2 ^ n ≠ 0) || a.sticky)) = (decide (a.sig.toNat % 2 ^ t ≠ 0) || a.sticky) := by
    rw [show t = n + (droppedBits fmt - 2) by omega, ← Bool.or_assoc, ← decide_mod_two_pow_add_ne_zero]
  rw [shiftRightBy_eq]
  simp only [Accumulator.rounded, retained_eq, guardBit_eq, roundBit_eq, stickyBit_eq, BitVec.toNat_ushiftRight, hguard,
    hround]
  simp only [Nat.shiftRight_eq_div_pow, hsticky, hquotient]
  split_ifs with hup
  · rw [hup]
    rfl
  · rw [Bool.eq_false_iff.mpr hup]
    rfl

end

/-! ### The exact remainder by guard, round and sticky bits (R260, R261) -/

section
variable (neg odd g r : Bool) {u w : Nat} (hw : w < u)
include hw

/-- A remainder of `g` halves, `r` quarters and `w` below a quarter `u`: whether it is more than a half, or one. -/
theorem grxIncrement_nearest :
    choosesLarger .nearest neg odd (w + u * (2 * g.toNat + r.toNat)) (u * 4) =
      grxIncrement .nearest neg odd g r (decide (w ≠ 0)) := by
  cases g with
  | false =>
    have hbelow : 2 * (w + u * (2 * false.toNat + r.toNat)) < u * 4 := by
      cases r <;> simp <;> omega
    simp only [choosesLarger, decide_eq_false hbelow.not_gt, decide_eq_false hbelow.ne]
    rfl
  | true =>
    have hhalf : 2 * (w + u * (2 * true.toNat + r.toNat)) = u * 4 + 2 * (w + u * r.toNat) := by
      rw [Bool.toNat_true]
      ring
    have htie : w + u * r.toNat = 0 ↔ r = false ∧ w = 0 := by
      cases r <;> simp
      omega
    rw [Bool.eq_iff_iff, choosesLarger_nearest, hhalf]
    simp only [grxIncrement, Nat.add_eq_left, Nat.lt_add_right_iff_pos, Nat.pos_iff_ne_zero, Nat.mul_ne_zero_iff,
      Nat.mul_eq_zero, htie, Bool.true_and, Bool.or_eq_true, decide_eq_true_iff]
    cases r with
    | false =>
      simp
      tauto
    | true =>
      simp
      omega

theorem decide_remainder_ne_zero :
    decide (w + u * (2 * g.toNat + r.toNat) ≠ 0) = (g || r || decide (w ≠ 0)) := by
  cases g <;> cases r <;> simp <;> omega

/-- The modes look at no more of the remainder than those three. -/
theorem choosesLarger_eq_grxIncrement (mode : RoundMode) :
    choosesLarger mode neg odd (w + u * (2 * g.toNat + r.toNat)) (u * 4) =
      grxIncrement mode neg odd g r (decide (w ≠ 0)) := by
  cases mode with
  | nearest => exact grxIncrement_nearest neg odd g r hw
  | towardZero => rfl
  | towardPlus => exact congrArg (· && !neg) (decide_remainder_ne_zero g r hw)
  | towardMinus => exact congrArg (· && neg) (decide_remainder_ne_zero g r hw)

end

/-- Two neighbouring bits of a number. -/
theorem div_two_pow_mod_four (s t : Nat) :
    s / 2 ^ t % 4 = 2 * (s.testBit (t + 1)).toNat + (s.testBit t).toNat := by
  rw [Nat.toNat_testBit, Nat.toNat_testBit, pow_succ, ← Nat.div_div_eq_div_mul]
  omega

theorem mul_two_pow_add_two (d t : Nat) : d * 2 ^ (t + 2) = d * 2 ^ t * 4 := by
  rw [pow_add, Nat.mul_assoc]
  rfl

/-- The remainder of `n / d` in units `t + 2` places up: the quotient's bits below them, and what `n / d` leaves. -/
theorem mod_mul_two_pow (n d t : Nat) :
    n % (d * 2 ^ (t + 2)) =
      n % (d * 2 ^ t) + d * 2 ^ t * (2 * ((n / d).testBit (t + 1)).toNat + ((n / d).testBit t).toNat) := by
  rw [← div_two_pow_mod_four, Nat.div_div_eq_div_mul, ← Nat.mod_mul, mul_two_pow_add_two]

/-- Rounding depends on the ratio alone. -/
theorem roundExact_of_ratio (fmt : Format) (mode : RoundMode) (z : Exact) {e : Int} {n d c : Nat} (hc : 0 < c)
    (he : roundPlace fmt z = e) (hn : n = z.scaledNum e * c) (hd : d = z.scaledDen e * c) :
    roundExact fmt mode z =
      let up := choosesLarger mode z.neg (n / d % 2 == 1) (n % d) d
      ⟨z.neg, n / d + up.toNat, e, up, decide (n % d ≠ 0)⟩ := by
  have hzero : z.scaledNum e % z.scaledDen e * c ≠ 0 ↔ z.scaledNum e % z.scaledDen e ≠ 0 := by simp [hc.ne']
  rw [roundExact_eq fmt mode z he, hn, hd]
  simp only [Nat.mul_div_mul_right _ _ hc, Nat.mul_mod_mul_right, choosesLarger_mul_right z.neg _ _ _ _ hc, hzero,
    roundedQuotient]

/-! ### The accumulator of an exact number (R255) -/

@[simp] theorem accumulatorOf_exp (z : Exact) : (accumulatorOf z).exp = z.exponent := rfl

@[simp] theorem accumulatorOf_neg (z : Exact) : (accumulatorOf z).neg = z.neg := rfl

@[simp] theorem accumulatorOf_sticky (z : Exact) :
    (accumulatorOf z).sticky = decide (z.scaledNum (z.exponent - 54) % z.scaledDen (z.exponent - 54) ≠ 0) := rfl

section
variable {z : Exact} (hnum : z.num ≠ 0) (hden : z.den ≠ 0)
include hnum hden

/-- The quotient in units 54 places below the leading bit has 55 bits. -/
theorem accumulator_quotient_bounds :
    2 ^ 54 ≤ z.scaledNum (z.exponent - 54) / z.scaledDen (z.exponent - 54) ∧
    z.scaledNum (z.exponent - 54) / z.scaledDen (z.exponent - 54) < 2 ^ 55 := by
  obtain ⟨hlow, hhigh⟩ := scaled_exponent_sub hnum hden 54
  exact ⟨(Nat.le_div_iff_mul_le (scaledDen_pos hden _)).mpr hlow,
    Nat.div_lt_of_lt_mul (Nat.mul_comm .. ▸ hhigh)⟩

theorem accumulatorOf_sig :
    (accumulatorOf z).sig.toNat = z.scaledNum (z.exponent - 54) / z.scaledDen (z.exponent - 54) := by
  obtain ⟨-, hlt⟩ := accumulator_quotient_bounds hnum hden
  exact Nat.mod_eq_of_lt (hlt.trans (by decide))

/-- The accumulator, denormalized and rounded by G, R and X, is the exact number rounded (R255, R262). -/
theorem rounded_accumulatorOf (fmt : Format) (mode : RoundMode) :
    ((accumulatorOf z).denormalize fmt).rounded fmt mode = roundExact fmt mode z := by
  have hwidth := formatFraction_add_droppedBits fmt
  obtain ⟨t, ht⟩ : ∃ t, (formatEmin fmt - z.exponent).toNat + droppedBits fmt = t + 2 :=
    ⟨(formatEmin fmt - z.exponent).toNat + (droppedBits fmt - 2), by cases fmt <;> rfl⟩
  have hplace : roundPlace fmt z = z.exponent - 54 + (t + 2 : Nat) := by
    rw [roundPlace_eq]
    omega
  have hexp : z.exponent + (formatEmin fmt - z.exponent).toNat - formatFraction fmt =
      z.exponent - 54 + (t + 2 : Nat) := by omega
  obtain ⟨c, hc, hN, hD⟩ := scaled_add z (z.exponent - 54) (t + 2)
  have hsig := accumulatorOf_sig hnum hden
  have hpos := scaledDen_pos hden (z.exponent - 54)
  have hlow := Nat.mod_lt (z.scaledNum (z.exponent - 54)) (show 0 < z.scaledDen (z.exponent - 54) * 2 ^ t by positivity)
  rw [Accumulator.denormalize, accumulatorOf_exp, rounded_shiftRightBy _ fmt _ t mode ht, accumulatorOf_exp, hexp,
    roundExact_of_ratio fmt mode z hc hplace hN hD]
  simp only [accumulatorOf_neg, accumulatorOf_sticky, hsig, ← Nat.div_div_eq_div_mul, mod_mul_two_pow]
  simp only [mul_two_pow_add_two, choosesLarger_eq_grxIncrement _ _ _ _ hlow, decide_remainder_ne_zero _ _ hlow,
    decide_mod_mul_ne_zero _ hpos]

end

/-- Settles O55: the accumulator holds the quotient at 55 bits and whether anything is left, and rounds by them. -/
theorem accumulatorRoundsAsExact : Obligations.AccumulatorRoundsAsExact := by
  intro fmt mode z hnum hden
  obtain ⟨hlow, hhigh⟩ := accumulator_quotient_bounds hnum hden
  have hpos := scaledDen_pos hden (z.exponent - 54)
  have hsplit := Nat.div_add_mod' (z.scaledNum (z.exponent - 54)) (z.scaledDen (z.exponent - 54))
  have hrem := Nat.mod_lt (z.scaledNum (z.exponent - 54)) hpos
  rw [accumulatorOf_sig hnum hden]
  refine ⟨hlow, hhigh, Nat.div_mul_le_self .., ?next, ?sticky, rounded_accumulatorOf hnum hden fmt mode⟩
  case next =>
    rw [Nat.add_mul]
    omega
  case sticky =>
    rw [accumulatorOf_sticky, decide_eq_true_iff]
    omega

end Sys2Proof.Machine
end

section
/-! PROOFS. Where no envelope is invoked (spec/44_fp_rounding_and_execution_models.md R270 to R273):
the outcome of an operation by its operands and its exact result, which data arise without a
division, and which outcomes are free of the envelope. -/

namespace Sys2Proof.Machine

/-! ### Data that arise without a division (R184, R203) -/

/-- No zero divide, and if finite a number of which `P` holds. -/
def Datum.Arises (P : Exact → Prop) : Datum → Prop
  | .finite z => P z
  | .zeroDivide _ => False
  | _ => True

section
variable {P Q R : Exact → Prop} {x y : Datum}

theorem Datum.Arises.cases (h : x.Arises P) :
    (∃ z, x = .finite z ∧ P z) ∨ (∃ neg, x = .infinite neg) ∨ x = .invalid := by
  cases x with
  | finite z => exact .inl ⟨z, rfl, h⟩
  | infinite neg => exact .inr (.inl ⟨neg, rfl⟩)
  | invalid => exact .inr (.inr rfl)
  | zeroDivide neg => exact h.elim

theorem arises_negate (hnegate : ∀ z, P z → Q z.negate) (hx : x.Arises P) : x.negate.Arises Q := by
  obtain ⟨z, rfl, hz⟩ | ⟨neg, rfl⟩ | rfl := hx.cases
  · exact hnegate z hz
  · trivial
  · trivial

theorem arises_add {mode : RoundMode} (hadd : ∀ z w, P z → Q w → R (z.add mode w)) (hx : x.Arises P)
    (hy : y.Arises Q) : (x.add mode y).Arises R := by
  obtain ⟨z, rfl, hz⟩ | ⟨n, rfl⟩ | rfl := hx.cases <;> obtain ⟨w, rfl, hw⟩ | ⟨m, rfl⟩ | rfl := hy.cases
  · exact hadd z w hz hw
  · trivial
  · trivial
  · trivial
  · rw [Datum.add]
    split_ifs <;> trivial
  all_goals trivial

theorem arises_mul (hmul : ∀ z w, P z → Q w → R (z.mul w)) (hx : x.Arises P) (hy : y.Arises Q) :
    (x.mul y).Arises R := by
  obtain ⟨z, rfl, hz⟩ | ⟨n, rfl⟩ | rfl := hx.cases <;> obtain ⟨w, rfl, hw⟩ | ⟨m, rfl⟩ | rfl := hy.cases
  · exact hmul z w hz hw
  · rw [Datum.mul]
    split_ifs <;> trivial
  · trivial
  · rw [Datum.mul]
    split_ifs <;> trivial
  all_goals trivial

end

/-- Only a division has a zero divide. -/
theorem arises_exact {op : FpOp} (hop : op ≠ .div) (mode : RoundMode) (a b c : Double) :
    (op.exact mode (doubleDatum a) (doubleDatum b) (doubleDatum c)).Arises fun _ => True := by
  have hdatum (d : Double) : (doubleDatum d).Arises fun _ => True := by
    obtain ⟨h, -⟩ | h := doubleDatum_cases d <;> rw [h] <;> trivial
  have hnegate := arises_negate (Q := fun _ => True) (fun _ => id) (hdatum b)
  have hproduct := arises_mul (R := fun _ => True) (fun _ _ _ => id) (hdatum a) (hdatum c)
  cases op with
  | add => exact arises_add (fun _ _ _ => id) (hdatum a) (hdatum b)
  | sub => exact arises_add (fun _ _ _ => id) (hdatum a) hnegate
  | mul => exact hproduct
  | div => exact absurd rfl hop
  | madd => exact arises_add (fun _ _ _ => id) hproduct (hdatum b)
  | msub => exact arises_add (fun _ _ _ => id) hproduct hnegate
  | nmadd => exact arises_add (fun _ _ _ => id) hproduct (hdatum b)
  | nmsub => exact arises_add (fun _ _ _ => id) hproduct hnegate

/-! ### The outcome of an operation by its operands and its exact result -/

/-- What comes of the exact result of an operation on numbers, negated for a negative form (R265). -/
def exactOutcome (p : Platform) (f : Fpscr) (fmt : Format) (denormal negates : Bool) : Datum → FpOutcome
  | .invalid => deliverInvalid p f fmt generatedQNaN
  | .zeroDivide neg => deliverZeroDivide p f fmt neg
  | .infinite neg => .deliver (infinityDouble (neg != negates)) false false false
  | .finite z => if negates then (deliverExact p f fmt denormal z).negated else deliverExact p f fmt denormal z

/-- The operands of an operation, in the order of its fields. -/
def FpOp.sources (op : FpOp) (a b c : Double) : List Double :=
  [a] ++ (if op.usesB then [b] else []) ++ (if op.usesC then [c] else [])

/-- A property of every operand. -/
theorem forall_mem_sources (op : FpOp) (a b c : Double) (P : Double → Prop) :
    (∀ d ∈ op.sources a b c, P d) ↔ P a ∧ (op.usesB = true → P b) ∧ (op.usesC = true → P c) := by
  rw [FpOp.sources]
  cases op.usesB <;> cases op.usesC <;> simp

/-- The NaN that the operands give (R190). -/
def FpOp.nanOperand (op : FpOp) (a b c : Double) : Double :=
  nanResult (some a) (if op.usesB then some b else none) (if op.usesC then some c else none)

theorem isNaN_nanOperand (op : FpOp) (a b c : Double) : isNaN (op.nanOperand a b c) = true := isNaN_nanResult ..

/-- The operands are checked first; the operation enters by its exact result and whether it negates. -/
theorem arithOutcome_eq (p : Platform) (f : Fpscr) (fmt : Format) (op : FpOp) (a b c : Double) :
    arithOutcome p f fmt op a b c =
      if fmt = .single ∧ (op.sources a b c).any (fun d => !reprSingle d) = true then .free
      else if (op.sources a b c).any isDenormalized && decide (p.fpEnvelope ≠ .ieee) then .assist
      else if (op.sources a b c).any isNaN then
        if (op.sources a b c).any isSNaN then deliverInvalid p f fmt (op.nanOperand a b c)
        else .deliver (op.nanOperand a b c) false false false
      else exactOutcome p f fmt ((op.sources a b c).any isDenormalized) op.negates
        (op.exact (roundMode f.rn) (doubleDatum a) (doubleDatum b) (doubleDatum c)) := by
  simp only [arithOutcome, FpOp.sources, FpOp.nanOperand]
  congr 3
  generalize op.exact (roundMode f.rn) (doubleDatum a) (doubleDatum b) (doubleDatum c) = x
  cases x with
  | infinite neg => cases op.negates <;> cases neg <;> rfl
  | _ => rfl

/-! ### Outcomes without the envelope (R270, R273) -/

/-- The outcome is not the envelope's: a determined result, or one left free as `otherPrecision` or `divides` allows. -/
def FpOutcome.EnvelopeFree (otherPrecision divides : Prop) : FpOutcome → Prop
  | .deliver _ _ _ _ => True
  | .flush _ => True
  | .free => otherPrecision
  | .unstated _ _ => divides
  | .assist => False

section
variable {otherPrecision divides : Prop} {o : FpOutcome}

theorem FpOutcome.EnvelopeFree.ne_assist (h : o.EnvelopeFree otherPrecision divides) : o ≠ .assist := by
  rintro rfl
  exact h

theorem FpOutcome.EnvelopeFree.determined (h : o.EnvelopeFree otherPrecision divides) (hother : ¬ otherPrecision)
    (hdiv : ¬ divides) : ∃ d, o = .flush d ∨ ∃ fr fi inexact, o = .deliver d fr fi inexact := by
  cases o with
  | deliver d fr fi inexact => exact ⟨d, .inr ⟨fr, fi, inexact, rfl⟩⟩
  | flush d => exact ⟨d, .inl rfl⟩
  | free => exact absurd h hother
  | unstated fmt sign => exact absurd h hdiv
  | assist => exact h.elim

theorem FpOutcome.EnvelopeFree.negated (h : o.EnvelopeFree otherPrecision divides) :
    o.negated.EnvelopeFree otherPrecision divides := by
  cases o <;> exact h

end

theorem allDisabled_eq_true {f : Fpscr} (h : f.allDisabled = true) :
    f.ve = false ∧ f.oe = false ∧ f.ue = false ∧ f.ze = false ∧ f.xe = false := by
  simpa [Fpscr.allDisabled, and_assoc] using h

theorem doubleClass_eq_denormalized {d : Double} {neg : Bool} (h : doubleClass d = .denormalized neg) :
    isDenormalized d = true := by
  simp only [doubleClass, fpClass] at h
  split_ifs at h with _ _ hexp hfrac
  simp [isDenormalized, hexp, hfrac]

section
variable {otherPrecision divides : Prop} (p : Platform) {f : Fpscr} (fmt : Format) (hni : f.ni = true)
  (hoff : f.allDisabled = true)
include hoff

theorem envelopeFree_deliverInvalid (d : Double) :
    (deliverInvalid p f fmt d).EnvelopeFree otherPrecision divides := by
  obtain ⟨hve, -⟩ := allDisabled_eq_true hoff
  rw [deliverInvalid_disabled p fmt d hve]
  trivial

theorem envelopeFree_deliverRounded (z : Exact) :
    (deliverRounded p f fmt z).EnvelopeFree otherPrecision divides := by
  obtain ⟨-, hoe, -, -, hxe⟩ := allDisabled_eq_true hoff
  simp only [deliverRounded, hoe, hxe, Bool.false_and, Bool.and_false, Bool.false_eq_true, if_false]
  split_ifs <;> trivial

include hni

/-- A tiny result is the signed zero. -/
theorem envelopeFree_deliverExact (z : Exact) :
    (deliverExact p f fmt false z).EnvelopeFree otherPrecision divides := by
  obtain ⟨-, -, hue, -⟩ := allDisabled_eq_true hoff
  simp only [deliverExact, hni, hue, Bool.not_false, Bool.and_self, if_true]
  split_ifs
  · trivial
  · trivial
  · exact envelopeFree_deliverRounded p fmt hoff z

/-- An exact result of numbers, unstated for a zero divide. -/
theorem envelopeFree_exactOutcome (negates : Bool) {x : Datum} (harises : ¬ divides → x.Arises fun _ => True) :
    (exactOutcome p f fmt false negates x).EnvelopeFree otherPrecision divides := by
  cases x with
  | invalid => exact envelopeFree_deliverInvalid p fmt hoff _
  | infinite neg => trivial
  | finite z =>
    rw [exactOutcome]
    split_ifs
    · exact (envelopeFree_deliverExact p fmt hni hoff z).negated
    · exact envelopeFree_deliverExact p fmt hni hoff z
  | zeroDivide neg =>
    obtain ⟨-, -, -, hze, -⟩ := allDisabled_eq_true hoff
    rw [exactOutcome, deliverZeroDivide, hze, Bool.false_and, if_neg Bool.false_ne_true]
    exact not_not.mp harises

/-- An operation with no denormalized operand: free on operands of another precision, unstated for a zero divide. -/
theorem envelopeFree_arithOutcome {op : FpOp} {a b c : Double}
    (hden : ∀ d ∈ op.sources a b c, isDenormalized d = false) :
    (arithOutcome p f fmt op a b c).EnvelopeFree (fmt = .single ∧ ∃ d ∈ op.sources a b c, reprSingle d = false)
      (op = .div) := by
  have hassist : (op.sources a b c).any isDenormalized = false := by simpa using hden
  rw [arithOutcome_eq, hassist]
  split_ifs with hfree
  · exact ⟨hfree.left, by simpa using hfree.right⟩
  · trivial
  · exact envelopeFree_deliverInvalid p fmt hoff _
  · trivial
  · exact envelopeFree_exactOutcome p fmt hni hoff _ fun hop => arises_exact hop _ a b c

/-- `frsp` of a pattern that is not denormalized (R212, R271). -/
theorem envelopeFree_frspOutcome {d : Double} (hden : isDenormalized d = false) :
    (frspOutcome p f d).EnvelopeFree False False := by
  unfold frspOutcome
  split
  · trivial
  · trivial
  · dsimp only
    split_ifs
    · exact envelopeFree_deliverInvalid p _ hoff _
    · trivial
  next neg hclass => exact (Bool.false_ne_true (hden.symm.trans (doubleClass_eq_denormalized hclass))).elim
  · split_ifs
    · trivial
    · exact envelopeFree_deliverExact p _ hni hoff _

end

section
variable {frD frB : Reg} {rc : Bool} {s : State}

/-- `frsp` with the signed zero of non-IEEE mode: XX is kept (R270, R272). -/
theorem frsp_of_flush {d : Double} (hpc : s.pc ≠ 0xFFFFFFFC)
    (h : frspOutcome s.platform s.fpscr (s.readFpr frB) = .flush d) :
    ∃ t, exec (.frsp frD frB rc) s = .next t ∧ t.readFpr frD = d ∧ t.fpscr.xx = s.fpscr.xx ∧ FpFrame frD rc s t := by
  obtain ⟨t, hexec, hresult, hfpscr, hframe⟩ := frsp_completes (frD := frD) (rc := rc)
    (f := fpscrFlushed s.fpscr (Config.drawStatus s.draws)) hpc (by rw [h]; rfl)
    ⟨rfl, rfl, rfl, rfl, rfl, rfl, rfl, rfl⟩
  exact ⟨t, hexec, hresult, by rw [hfpscr]; rfl, hframe⟩

end

/-- Settles O60: no outcome is the envelope's, and what is not determined is a zero divide or has an operand of another
precision. -/
theorem noAssistUnderR273 : Obligations.NoAssistUnderR273 := by
  refine ⟨fun p f fmt op a b c hni hoff ha hb hc => ?arithmetic, fun frD frB rc s hfree hden hpc => ?frsp⟩
  case arithmetic =>
    have houtcome := envelopeFree_arithOutcome p fmt hni hoff ((forall_mem_sources op a b c _).mpr ⟨ha, hb, hc⟩)
    refine ⟨houtcome.ne_assist, fun hop hrepr => houtcome.determined (fun ⟨hfmt, d, hd, hnot⟩ => ?_) hop⟩
    have hsources := (forall_mem_sources op a b c (reprSingle · = true)).mpr (hrepr hfmt)
    exact Bool.false_ne_true (hnot.symm.trans (hsources d hd))
  case frsp =>
    obtain ⟨hni, hoff⟩ : s.fpscr.ni = true ∧ s.fpscr.allDisabled = true := by simpa [State.envelopeFree] using hfree
    obtain ⟨d, h | ⟨fr, fi, inexact, h⟩⟩ :=
      (envelopeFree_frspOutcome s.platform hni hoff hden).determined not_false not_false
    · obtain ⟨t, hexec, -, -, hframe⟩ := frsp_of_flush (frD := frD) (rc := rc) hpc h
      exact ⟨t, hexec, hframe⟩
    · obtain ⟨t, hexec, -, -, -, -, hframe⟩ := frsp_of_deliver (frD := frD) (rc := rc) hpc h
      exact ⟨t, hexec, hframe⟩

end Sys2Proof.Machine
end

section
/-! PROOFS. The negative multiply-adds (spec/44_fp_rounding_and_execution_models.md R265): what rounding delivers is no
NaN, since no exact result is large enough to leave the exponent range, and so its sign is inverted. -/

namespace Sys2Proof.Machine

/-! ### Magnitudes (R175, R192) -/

/-- `|Z| < 2^k`. -/
def Exact.Below (k : Nat) (z : Exact) : Prop := z.num < 2 ^ k * z.den

section
variable {k l : Nat} {z w : Exact}

theorem Exact.Below.den_ne_zero (h : z.Below k) : z.den ≠ 0 := by
  rintro hden
  simp [Exact.Below, hden] at h

theorem Exact.Below.mono (h : z.Below k) (hle : k ≤ l) : z.Below l :=
  h.trans_le (Nat.mul_le_mul_right _ (Nat.pow_le_pow_right (by decide) hle))

theorem below_mul (hz : z.Below k) (hw : w.Below l) : (z.mul w).Below (k + l) :=
  calc z.num * w.num < 2 ^ k * z.den * (2 ^ l * w.den) := Nat.mul_lt_mul'' hz hw
    _ = 2 ^ (k + l) * (z.den * w.den) := by rw [pow_add]; ring

theorem natAbs_signedNum (z : Exact) : z.signedNum.natAbs = z.num := by
  rw [Exact.signedNum]
  split_ifs
  · exact Int.natAbs_neg _
  · rfl

theorem below_add (mode : RoundMode) (hz : z.Below k) (hw : w.Below k) : (z.add mode w).Below (k + 1) := by
  calc (z.signedNum * w.den + w.signedNum * z.den).natAbs
      ≤ (z.signedNum * w.den).natAbs + (w.signedNum * z.den).natAbs := Int.natAbs_add_le ..
    _ = z.num * w.den + w.num * z.den := by
      rw [Int.natAbs_mul, Int.natAbs_mul, natAbs_signedNum, natAbs_signedNum, Int.natAbs_natCast, Int.natAbs_natCast]
    _ < 2 ^ k * z.den * w.den + 2 ^ k * w.den * z.den :=
      Nat.add_lt_add (Nat.mul_lt_mul_of_pos_right hz (Nat.pos_of_ne_zero hw.den_ne_zero))
        (Nat.mul_lt_mul_of_pos_right hw (Nat.pos_of_ne_zero hz.den_ne_zero))
    _ = 2 ^ (k + 1) * (z.den * w.den) := by rw [pow_succ]; ring

/-- The leading bit of a number below `2^k`. -/
theorem exponent_lt_of_below (hnum : z.num ≠ 0) (h : z.Below k) : z.exponent < k := by
  by_contra hle
  obtain ⟨j, hj⟩ : ∃ j : Nat, z.exponent = (k + j : Nat) := ⟨(z.exponent - k).toNat, by omega⟩
  obtain ⟨hlow, -⟩ := scaled_exponent hnum h.den_ne_zero
  rw [hj, Exact.scaledNum, Exact.scaledDen, Int.toNat_natCast, show (-((k + j : Nat) : Int)).toNat = 0 by omega,
    pow_zero, Nat.mul_one] at hlow
  have hpow : 2 ^ k * z.den ≤ z.den * 2 ^ (k + j) := by
    rw [Nat.mul_comm]
    exact Nat.mul_le_mul_left _ (Nat.pow_le_pow_right (by decide) (Nat.le_add_right ..))
  exact Nat.lt_irrefl _ (h.trans_le (hpow.trans hlow))

end

/-- The value of a zero or a denormalized number, from its fraction (R182). -/
theorem doubleValue_of_exp_zero {d : Double} (h : expField d = 0) :
    doubleValue d = exactScaled (d.getLsbD 63) (fracField d) (-1074) := by
  have hplace : (-1022 : Int) - (52 : Nat) = -1074 := by decide
  simp only [doubleValue, doubleFields_eq, fpValue, significand, impliedBit, lastPlace, formatFraction, formatEmin, h,
    if_true, Nat.zero_mul, Nat.zero_add, hplace]

/-- The value of a double that is no infinity or NaN, from its exponent field. -/
theorem below_doubleValue {d : Double} {k : Nat} (h : expField d ≤ k + 1022) : (doubleValue d).Below k := by
  have hfrac := fracField_lt d
  by_cases h0 : expField d = 0
  · rw [doubleValue_of_exp_zero h0, Exact.Below, exactScaled]
    calc fracField d * 2 ^ (-1074 : Int).toNat < 2 ^ (- -1074 : Int).toNat := by
          rw [show (-1074 : Int).toNat = 0 from rfl, pow_zero, Nat.mul_one]
          exact hfrac.trans_le (Nat.pow_le_pow_right (by decide) (by decide))
      _ ≤ 2 ^ k * 2 ^ (- -1074 : Int).toNat := Nat.le_mul_of_pos_left _ (by positivity)
  · rw [doubleValue_of_normalized h0, Exact.Below, exactScaled]
    calc (2 ^ 52 + fracField d) * 2 ^ ((expField d : Int) - 1075).toNat
        < 2 ^ 53 * 2 ^ ((expField d : Int) - 1075).toNat := Nat.mul_lt_mul_of_pos_right (by omega) (by positivity)
      _ ≤ 2 ^ k * 2 ^ (-((expField d : Int) - 1075)).toNat := by
        rw [← pow_add, ← pow_add]
        exact Nat.pow_le_pow_right (by decide) (by omega)

/-- The numbers of a format are below this power of two (R175). -/
def formatBound : Format → Nat
  | .single => 128
  | .double => 1024

theorem expField_le_of_reprSingle {d : Double} (hrepr : reprSingle d = true) (hmax : expField d ≠ 2047) :
    expField d ≤ 1150 := by
  rw [← doubleFields_exp] at *
  simp only [reprSingle] at hrepr
  split_ifs at hrepr <;> omega

/-- An operand of the format that is no NaN: an infinity or a number below the format's bound. -/
theorem arises_operand {fmt : Format} {d : Double} (hnan : isNaN d = false)
    (hrepr : fmt = .single → reprSingle d = true) : (doubleDatum d).Arises (Exact.Below (formatBound fmt)) := by
  by_cases hmax : expField d = 2047
  · have hfrac : fracField d = 0 := by
      by_contra hfrac
      exact Bool.false_ne_true (hnan.symm.trans ((isNaN_iff d).mpr ⟨hmax, hfrac⟩))
    have hclass : doubleClass d = .infinity (d.getLsbD 63) := by
      simp only [doubleClass, doubleFields_eq, fpClass, formatExpMax, hmax, hfrac, if_true]
    simp only [doubleDatum, hclass]
    trivial
  · rw [doubleDatum_of_finite hmax]
    have hexp : expField d < 2 ^ 11 := Nat.mod_lt _ (by decide)
    apply below_doubleValue
    cases fmt with
    | double =>
      rw [formatBound]
      omega
    | single =>
      exact expField_le_of_reprSingle (hrepr rfl) hmax

/-- The exact result of a multiply-add. -/
theorem arises_multiplyAdd {k : Nat} {op : FpOp} (hop : op ∈ [.madd, .msub]) (mode : RoundMode) {a b c : Datum}
    (ha : a.Arises (Exact.Below k)) (hb : b.Arises (Exact.Below k)) (hc : c.Arises (Exact.Below k)) :
    (op.exact mode a b c).Arises (Exact.Below (2 * k + 1)) := by
  have hproduct : (a.mul c).Arises (Exact.Below (2 * k)) :=
    arises_mul (fun z w hz hw => (below_mul hz hw).mono (by omega)) ha hc
  have hadd (z w : Exact) (hz : z.Below (2 * k)) (hw : w.Below k) : (z.add mode w).Below (2 * k + 1) :=
    below_add mode hz (hw.mono (by omega))
  obtain rfl | rfl : op = .madd ∨ op = .msub := by simpa using hop
  · exact arises_add hadd hproduct hb
  · exact arises_add hadd hproduct (arises_negate (fun _ => id) hb)

/-! ### What rounding delivers is no NaN -/

theorem isNaN_packDouble_of_ne {neg : Bool} {e : BitVec 11} (f : BitVec 52) (h : e.toNat ≠ 2047) :
    isNaN (packDouble neg e f) = false := by
  rw [Bool.eq_false_iff, Ne, isNaN_iff, ← doubleFields_exp, doubleFields_packDouble]
  exact fun hnan => h hnan.left

theorem isNaN_zeroDouble (neg : Bool) : isNaN (zeroDouble neg) = false := isNaN_packDouble_of_ne _ (by decide)

theorem isNaN_infinityDouble (neg : Bool) : isNaN (infinityDouble neg) = false := by
  cases neg <;> decide

/-- A number below `2^1024`, or one whose leading bit is. -/
theorem isNaN_doubleOfScaled (neg : Bool) {q : Nat} {e : Int} (h : q ≠ 0 → q.log2 + e ≤ 1023) :
    isNaN (doubleOfScaled neg q e) = false := by
  unfold doubleOfScaled
  dsimp only
  split_ifs with h0
  · exact isNaN_packDouble_of_ne _ (by decide)
  · exact isNaN_packDouble_of_ne _ (by decide)
  all_goals
    have hlead := h h0
    refine isNaN_packDouble_of_ne _ ?_
    rw [BitVec.toNat_ofNat]
    omega

theorem isNaN_largestFinite (fmt : Format) (neg : Bool) : isNaN (largestFinite fmt neg) = false := by
  refine isNaN_doubleOfScaled neg fun _ => ?_
  cases fmt <;> decide

/-- A rounded number has at most one bit more than the format's significand. -/
theorem log2_roundExact (fmt : Format) (mode : RoundMode) {z : Exact} (hnum : z.num ≠ 0) (hden : z.den ≠ 0) :
    (roundExact fmt mode z).q.log2 ≤ formatFraction fmt + 1 := by
  obtain ⟨-, hq, -⟩ := roundingChoosesNeighbour fmt mode z _ _ _ hnum hden rfl rfl rfl
  rw [Nat.log2_eq_log_two]
  exact (Nat.log_mono_right hq).trans_eq (Nat.log_pow (by decide) _)

/-- A rounded number that does not exceed the format's largest. -/
theorem lead_le_of_in_range {fmt : Format} {r : Rounded} (hrange : roundOverflows fmt r = false)
    (hlog : r.q.log2 ≤ formatFraction fmt + 1) (h0 : r.q ≠ 0) : r.q.log2 + r.e ≤ formatEmax fmt := by
  by_cases htop : formatEmax fmt - formatFraction fmt ≤ r.e
  · have hq : r.q * 2 ^ (r.e - (formatEmax fmt - formatFraction fmt)).toNat < 2 ^ (formatFraction fmt + 1) := by
      by_contra hle
      exact Bool.eq_false_iff.mp hrange ((roundOverflows_eq_true fmt r).mpr ⟨htop, Nat.le_of_not_lt hle⟩)
    have hpow :
        2 ^ (r.q.log2 + (r.e - (formatEmax fmt - formatFraction fmt)).toNat) < 2 ^ (formatFraction fmt + 1) := by
      rw [pow_add]
      exact (Nat.mul_le_mul_right _ (Nat.log2_self_le h0)).trans_lt hq
    have hexp := (Nat.pow_lt_pow_iff_right (by decide)).mp hpow
    omega
  · omega

/-- A result that is delivered is no NaN. -/
def FpOutcome.DeliversNumber : FpOutcome → Prop
  | .deliver d _ _ _ => isNaN d = false
  | _ => True

section
variable (p : Platform) (f : Fpscr) (fmt : Format) {z : Exact}

/-- Rounded, overflowed, or with its exponent adjusted (R236): the adjustment is larger than the excess. -/
theorem deliversNumber_deliverRounded (hnum : z.num ≠ 0) (hbelow : z.Below (2 * formatBound fmt + 1)) :
    (deliverRounded p f fmt z).DeliversNumber := by
  have hlog := log2_roundExact fmt (roundMode f.rn) hnum hbelow.den_ne_zero
  have hexponent := exponent_lt_of_below hnum hbelow
  have hplace : (roundExact fmt (roundMode f.rn) z).e = roundPlace fmt z := rfl
  unfold deliverRounded
  dsimp only
  generalize roundExact fmt (roundMode f.rn) z = r at *
  split_ifs with hover
  · refine isNaN_doubleOfScaled r.neg fun _ => ?_
    rw [hplace, roundPlace]
    cases fmt <;> simp only [formatFraction, formatEmin, formatBound, overflowAdjust] at * <;> omega
  · trivial
  · trivial
  · exact isNaN_infinityDouble _
  · exact isNaN_largestFinite ..
  · trivial
  · refine isNaN_doubleOfScaled r.neg fun h0 => ?_
    have hlead := lead_le_of_in_range (Bool.eq_false_iff.mpr hover) hlog h0
    have hmax : formatEmax fmt ≤ 1023 := by cases fmt <;> decide
    omega

theorem deliversNumber_deliverExact (denormal : Bool) (hbelow : z.Below (2 * formatBound fmt + 1)) :
    (deliverExact p f fmt denormal z).DeliversNumber := by
  unfold deliverExact
  split_ifs with hnum
  · exact isNaN_zeroDouble _
  · trivial
  · trivial
  · trivial
  · exact deliversNumber_deliverRounded p f fmt hnum hbelow
  · exact deliversNumber_deliverRounded p f fmt hnum hbelow

/-! ### The negated outcome (R265) -/

/-- The outcome with the sign of its result inverted, a NaN being left as it is. -/
def FpOutcome.negatedNumber : FpOutcome → FpOutcome
  | .deliver d fr fi inexact => .deliver (if isNaN d then d else d ^^^ 0x8000000000000000) fr fi inexact
  | o => o.negated

theorem FpOutcome.DeliversNumber.negatedNumber {o : FpOutcome} (h : o.DeliversNumber) :
    o.negatedNumber = o.negated := by
  cases o with
  | deliver d fr fi inexact =>
    have hnum : isNaN d = false := h
    rw [FpOutcome.negatedNumber, hnum]
    rfl
  | _ => rfl

theorem negatedNumber_deliver_isNaN {d : Double} (h : isNaN d = true) (fr fi inexact : Bool) :
    (FpOutcome.deliver d fr fi inexact).negatedNumber = .deliver d fr fi inexact := by
  rw [FpOutcome.negatedNumber, if_pos h]

theorem negatedNumber_deliverInvalid {d : Double} (h : isNaN d = true) :
    (deliverInvalid p f fmt d).negatedNumber = deliverInvalid p f fmt d := by
  unfold deliverInvalid
  split_ifs
  · rfl
  · rfl
  · exact negatedNumber_deliver_isNaN h ..

theorem negatedNumber_exactOutcome (denormal : Bool) {x : Datum}
    (harises : x.Arises (Exact.Below (2 * formatBound fmt + 1))) :
    (exactOutcome p f fmt denormal false x).negatedNumber = exactOutcome p f fmt denormal true x := by
  cases x with
  | invalid => exact negatedNumber_deliverInvalid p f fmt (by decide)
  | zeroDivide neg => exact harises.elim
  | infinite neg =>
    rw [exactOutcome, exactOutcome, FpOutcome.negatedNumber, isNaN_infinityDouble]
    cases neg <;> rfl
  | finite z => exact (deliversNumber_deliverExact p f fmt denormal harises).negatedNumber

end

/-- A negative form reads and computes what the positive one does. -/
theorem negative_form {pos neg : FpOp} (hops : (pos, neg) ∈ [(FpOp.madd, FpOp.nmadd), (FpOp.msub, FpOp.nmsub)]) :
    pos ∈ [FpOp.madd, FpOp.msub] ∧ pos.usesB = true ∧ pos.usesC = true ∧ pos.negates = false ∧ neg.negates = true ∧
      neg.sources = pos.sources ∧ neg.nanOperand = pos.nanOperand ∧ neg.exact = pos.exact := by
  obtain ⟨rfl, rfl⟩ | ⟨rfl, rfl⟩ : (pos = .madd ∧ neg = .nmadd) ∨ (pos = .msub ∧ neg = .nmsub) := by simpa using hops
  · exact ⟨by decide, rfl, rfl, rfl, rfl, rfl, rfl, rfl⟩
  · exact ⟨by decide, rfl, rfl, rfl, rfl, rfl, rfl, rfl⟩

theorem arithOutcome_negative (p : Platform) (f : Fpscr) (fmt : Format) (a b c : Double) {pos neg : FpOp}
    (hops : (pos, neg) ∈ [(FpOp.madd, FpOp.nmadd), (FpOp.msub, FpOp.nmsub)]) :
    arithOutcome p f fmt neg a b c = (arithOutcome p f fmt pos a b c).negatedNumber := by
  obtain ⟨hpos, hB, hC, hkeeps, hnegates, hsources, hnan, hexact⟩ := negative_form hops
  rw [arithOutcome_eq, arithOutcome_eq, hsources, hnan, hexact, hkeeps, hnegates]
  split_ifs with hfree hassist hany hsnan
  · rfl
  · rfl
  · exact (negatedNumber_deliverInvalid p f fmt (isNaN_nanOperand ..)).symm
  · exact (negatedNumber_deliver_isNaN (isNaN_nanOperand ..) ..).symm
  · have hnumber : ∀ d ∈ pos.sources a b c, isNaN d = false := by simpa using hany
    have hrepr (hfmt : fmt = .single) : ∀ d ∈ pos.sources a b c, reprSingle d = true := by
      simpa using fun h => hfree ⟨hfmt, h⟩
    have hoperand : ∀ d ∈ pos.sources a b c, (doubleDatum d).Arises (Exact.Below (formatBound fmt)) :=
      fun d hd => arises_operand (hnumber d hd) fun hfmt => hrepr hfmt d hd
    obtain ⟨ha, hb, hc⟩ := (forall_mem_sources pos a b c _).mp hoperand
    exact (negatedNumber_exactOutcome p f fmt _ (arises_multiplyAdd hpos _ ha (hb hB) (hc hC))).symm

/-- Settles O59: the outcome of the negative form is that of the positive one, negated. -/
theorem negatedMultiplyAdd : Obligations.NegatedMultiplyAdd := by
  intro p f fmt a b c d fr fi ix ops hops
  have hneg {o : FpOutcome} (h : arithOutcome p f fmt ops.1 a b c = o) :
      arithOutcome p f fmt ops.2 a b c = o.negatedNumber := h ▸ arithOutcome_negative p f fmt a b c hops
  exact ⟨hneg, hneg, fun _ => hneg, hneg⟩

end Sys2Proof.Machine
end

section
/-! PROOFS. `frsp` of numbers whose rounded result exceeds the largest single
(spec/44_fp_rounding_and_execution_models.md R232, R236, R261): when that is so, and the result as a pattern. -/

namespace Sys2Proof.Machine

/-! ### Results that exceed the largest single (R236, R261) -/

section
variable {d : Double} (rn : BitVec 2) (hlow : 897 ≤ expField d) (hhigh : expField d < 2047)
  (hover : 1151 ≤ expField (frspRounded rn d))

/-- Nothing dropped, nothing incremented. -/
theorem frspIncrements_of_exact (h : d.toNat % 2 ^ 29 = 0) : frspIncrements rn d = false := by
  rw [← choosesLarger_eq_frspIncrements, significand_mod, h]
  exact choosesLarger_zero _ _ _ (by decide)

include hhigh hover

/-- The exponent field is beyond that of the largest single, or the increment carries into it. -/
theorem overflow_cases :
    1151 ≤ expField d ∨ expField d = 1150 ∧ frspIncrements rn d = true ∧ 2 ^ 23 ≤ fracField d / 2 ^ 29 + 1 := by
  have hsign := Bool.toNat_le (d.getLsbD 63)
  have hfrac := fracField_lt d
  rw [expField, toNat_frspRounded rn hhigh] at hover
  cases hup : frspIncrements rn d with
  | false =>
    rw [hup, Bool.toNat_false] at hover
    omega
  | true =>
    rw [hup, Bool.toNat_true] at hover
    simp only [true_and]
    omega

theorem reprSingle_of_overflow : reprSingle d = false := by
  refine Bool.eq_false_iff.mpr fun hrepr => ?_
  have hexact := frspIncrements_of_exact rn (mod_of_reprSingle hrepr)
  have hexp := expField_le_of_reprSingle hrepr hhigh.ne
  obtain hlarge | ⟨-, hup, -⟩ := overflow_cases rn hhigh hover
  · omega
  · exact Bool.false_ne_true (hexact.symm.trans hup)

include hlow

theorem roundOverflows_of_overflow :
    roundOverflows .single (roundExact .single (roundMode rn) (doubleValue d)) = true := by
  rw [roundExact_single rn hlow, roundOverflows_eq_true]
  simp only [formatEmax, formatFraction]
  obtain hlarge | ⟨hexp, hup, hcarry⟩ := overflow_cases rn hhigh hover
  · refine ⟨by omega, ?_⟩
    calc 2 ^ 24 = 2 ^ 23 * 2 ^ 1 := rfl
      _ ≤ (2 ^ 23 + fracField d / 2 ^ 29 + (frspIncrements rn d).toNat) *
          2 ^ ((expField d : Int) - 1046 - (127 - (23 : Nat))).toNat :=
        Nat.mul_le_mul (by omega) (Nat.pow_le_pow_right (by decide) (by omega))
  · refine ⟨by omega, ?_⟩
    have hunit : ((expField d : Int) - 1046 - (127 - (23 : Nat))).toNat = 0 := by omega
    rw [hunit, hup, Bool.toNat_true]
    omega

/-- The rounded number with 192 less in the exponent is the rounded pattern with that much less (R236). -/
theorem doubleOfScaled_adjusted :
    doubleOfScaled (d.getLsbD 63) (2 ^ 23 + fracField d / 2 ^ 29 + (frspIncrements rn d).toNat)
      ((expField d : Int) - 1046 - 192) = frspRounded rn d - 0x0C00000000000000 := by
  have hfrac := fracField_lt d
  have hsign := Bool.toNat_le (d.getLsbD 63)
  have hup := Bool.toNat_le (frspIncrements rn d)
  have hexp := overflow_cases rn hhigh hover
  have hplace : (expField d : Int) - 1046 - 192 = (expField d - 192 : Nat) - 1046 := by omega
  have hless : (0x0C00000000000000 : Double).toNat = 192 * 2 ^ 52 := by decide
  apply BitVec.eq_of_toNat_eq
  rw [hplace, Nat.add_assoc, toNat_doubleOfScaled _ (by omega) (by omega) (by omega), BitVec.toNat_sub,
    toNat_frspRounded rn hhigh, hless]
  omega

/-- `frsp` of a number whose rounded result exceeds the largest single (R236). -/
theorem frspOutcome_of_overflow {p : Platform} {f : Fpscr} (hrn : f.rn = rn) :
    frspOutcome p f d =
      if f.oe then
        if p.fpEnvelope = .ieee then
          .deliver (frspRounded rn d - 0x0C00000000000000) (frspIncrements rn d) (decide (d.toNat % 2 ^ 29 ≠ 0))
            (decide (d.toNat % 2 ^ 29 ≠ 0))
        else .assist
      else if f.xe && decide (p.fpEnvelope ≠ .ieee) then .assist
      else if overflowInfinite (roundMode rn) (d.getLsbD 63) then
        .deliver (infinityDouble (d.getLsbD 63)) true true true
      else .deliver (largestFinite .single (d.getLsbD 63)) false true true := by
  subst hrn
  have hrange := roundOverflows_of_overflow f.rn hlow hhigh hover
  rw [frspOutcome_of_number (by omega) hhigh.ne (reprSingle_of_overflow f.rn hhigh hover),
    deliverExact_of_normal p f false (doubleValue_num_ne_zero (by omega)) (isTiny_single hlow)]
  simp only [deliverRounded, hrange, if_true, doubleValue_neg]
  simp only [roundExact_single f.rn hlow, overflowAdjust, doubleOfScaled_adjusted f.rn hlow hhigh hover]
  rfl

end

/-! ### The result of a disabled overflow as a pattern -/

/-- The sign bit alone. -/
theorem and_sign (d : Double) : d &&& 0x8000000000000000 = if d.getLsbD 63 then 0x8000000000000000 else 0 :=
  BitVec.and_twoPow d 63

theorem overflowInfinite_roundMode (rn : BitVec 2) (neg : Bool) :
    overflowInfinite (roundMode rn) neg = true ↔ rn = 0 ∨ (rn = 2 ∧ neg = false) ∨ (rn = 3 ∧ neg = true) := by
  revert rn neg
  decide

theorem infinityDouble_eq (d : Double) :
    infinityDouble (d.getLsbD 63) = d &&& 0x8000000000000000 ||| 0x7FF0000000000000 ∧
      expField (infinityDouble (d.getLsbD 63)) = 2047 := by
  rw [and_sign]
  cases d.getLsbD 63 <;> decide

theorem largestFinite_single_eq (d : Double) :
    largestFinite .single (d.getLsbD 63) = d &&& 0x8000000000000000 ||| 0x47EFFFFFE0000000 ∧
      expField (largestFinite .single (d.getLsbD 63)) ≠ 2047 := by
  rw [and_sign]
  cases d.getLsbD 63 <;> decide

/-- Settles O52: the outcome by OE, XE and the envelope, its result as a pattern. -/
theorem frspOverflow : Obligations.FrspOverflow := by
  intro frD frB rc s hlow hhigh hover hpc
  have houtcome := frspOutcome_of_overflow s.fpscr.rn hlow hhigh hover (p := s.platform) rfl
  refine ⟨fun hoe hdelivers => ?disabled, fun henabled hp => ?assist, fun hoe hp => ?adjusted⟩
  case disabled =>
    rw [hoe, if_neg Bool.false_ne_true, if_neg (by simpa [imp_iff_not_or] using hdelivers)] at houtcome
    by_cases hinfinite : overflowInfinite (roundMode s.fpscr.rn) ((s.readFpr frB).getLsbD 63) = true
    · rw [if_pos hinfinite] at houtcome
      obtain ⟨hpattern, hexp⟩ := infinityDouble_eq (s.readFpr frB)
      obtain ⟨t, hexec, hresult, hfr, hfi, hxx, hframe⟩ := frsp_of_deliver (frD := frD) (rc := rc) hpc houtcome
      rw [if_pos ((overflowInfinite_roundMode _ _).mp hinfinite)]
      exact ⟨t, hexec, hresult.trans hpattern, hfi, hxx.trans (Bool.or_true _),
        hfr.trans (decide_eq_true (hresult ▸ hexp)).symm, hframe⟩
    · rw [if_neg hinfinite] at houtcome
      obtain ⟨hpattern, hexp⟩ := largestFinite_single_eq (s.readFpr frB)
      obtain ⟨t, hexec, hresult, hfr, hfi, hxx, hframe⟩ := frsp_of_deliver (frD := frD) (rc := rc) hpc houtcome
      rw [if_neg (mt (overflowInfinite_roundMode _ _).mpr hinfinite)]
      exact ⟨t, hexec, hresult.trans hpattern, hfi, hxx.trans (Bool.or_true _),
        hfr.trans (decide_eq_false (hresult ▸ hexp)).symm, hframe⟩
  case assist =>
    refine frsp_of_assist (houtcome.trans ?_)
    cases hoe : s.fpscr.oe with
    | true => rw [if_pos rfl, if_neg hp]
    | false =>
      have hxe : s.fpscr.xe = true := by simpa [hoe] using henabled
      rw [if_neg Bool.false_ne_true, if_pos (by simp [hxe, hp])]
  case adjusted =>
    rw [hoe, if_pos rfl, if_pos hp] at houtcome
    obtain ⟨t, hexec, hresult, hfr, hfi, hxx, hframe⟩ := frsp_of_deliver (frD := frD) (rc := rc) hpc houtcome
    exact ⟨t, hexec, hresult, hfi, hfr, hfi ▸ hxx, hframe⟩

end Sys2Proof.Machine
end

section
/-! PROOFS. `frsp` of numbers too small for a normalized single (spec/44_fp_rounding_and_execution_models.md R270 to
R272): that they are tiny and never singles of full length, how they round to a multiple of the smallest single, and the
pattern of the result. -/

namespace Sys2Proof.Machine

/-! ### Small numbers that are no singles (R207, R219) -/

section
variable {d : Double} (hrepr : reprSingle d = false) (hsmall : expField d < 897)
include hrepr hsmall

/-- In units of the smallest single, `2^-149`, such a number is `m / 2^j` with a rest. -/
theorem exists_scaled_of_small :
    ∃ m j, doubleValue d = exactScaled (d.getLsbD 63) m (-149 - (j : Nat)) ∧ m % 2 ^ j ≠ 0 ∧ m < 2 ^ (j + 23) := by
  have hfrac := fracField_lt d
  rw [reprSingle, doubleFields_exp, doubleFields_frac] at hrepr
  by_cases h0 : expField d = 0
  · have hne : fracField d ≠ 0 := by simpa [h0] using hrepr
    obtain ⟨j, hj⟩ : ∃ j : Nat, j = 925 := ⟨_, rfl⟩
    have hplace : (-1074 : Int) = -149 - (j : Nat) := by omega
    have hlt : fracField d < 2 ^ j := hfrac.trans_le (Nat.pow_le_pow_right (by decide) (by omega))
    refine ⟨fracField d, j, hplace ▸ doubleValue_of_exp_zero h0, ?_,
      hlt.trans_le (Nat.pow_le_pow_right (by decide) (by omega))⟩
    rwa [Nat.mod_eq_of_lt hlt]
  · have hplace : (expField d : Int) - 1075 = -149 - (926 - expField d : Nat) := by omega
    have hlt : 2 ^ 52 + fracField d < 2 ^ (926 - expField d + 23) :=
      lt_of_lt_of_le (by omega : _ < 2 ^ 53) (Nat.pow_le_pow_right (by decide) (by omega))
    refine ⟨2 ^ 52 + fracField d, 926 - expField d, hplace ▸ doubleValue_of_normalized h0, ?_, hlt⟩
    by_cases hrange : 874 ≤ expField d
    · have hdvd : 2 ^ (926 - expField d) ∣ 2 ^ 52 := Nat.pow_dvd_pow 2 (by omega)
      have hrest : fracField d % 2 ^ (926 - expField d) ≠ 0 := by
        simpa [h0, hrange, show expField d ≠ 2047 by omega, show ¬ 897 ≤ expField d by omega,
          show expField d ≤ 896 by omega, show 29 + (897 - expField d) = 926 - expField d by omega] using hrepr
      rwa [Nat.add_mod, Nat.mod_eq_zero_of_dvd hdvd, Nat.zero_add, Nat.mod_mod]
    · have hwide : 2 ^ 52 + fracField d < 2 ^ (926 - expField d) :=
        lt_of_lt_of_le (by omega : _ < 2 ^ 53) (Nat.pow_le_pow_right (by decide) (by omega))
      rw [Nat.mod_eq_of_lt hwide]
      exact Nat.ne_of_gt (Nat.add_pos_left (by decide) _)

theorem isTiny_of_small : (doubleValue d).num ≠ 0 ∧ isTiny .single (doubleValue d) = true := by
  obtain ⟨m, j, hvalue, hrest, hlt⟩ := exists_scaled_of_small hrepr hsmall
  have hpos : m ≠ 0 := fun h => hrest (by rw [h, Nat.zero_mod])
  have hnum : (doubleValue d).num = m := by
    rw [hvalue, exactScaled, show (-149 - (j : Int)).toNat = 0 by omega, pow_zero, Nat.mul_one]
  have hden : (doubleValue d).den = 2 ^ (j + 23 + 126) := by
    rw [hvalue]
    exact congrArg (2 ^ ·) (by omega)
  rw [isTiny_eq_true, hnum, hden, pow_add]
  exact ⟨hpos, Nat.pos_of_ne_zero hpos, Nat.mul_lt_mul_of_pos_right hlt (by positivity)⟩

/-- It is rounded to a multiple of the smallest single, inexactly (R232, R240). -/
theorem roundExact_of_small (mode : RoundMode) :
    ∃ q up, roundExact .single mode (doubleValue d) = ⟨d.getLsbD 63, q, -149, up, true⟩ ∧ q ≤ 2 ^ 23 := by
  obtain ⟨m, j, hvalue, hrest, hlt⟩ := exists_scaled_of_small hrepr hsmall
  have hpos : m ≠ 0 := fun h => hrest (by rw [h, Nat.zero_mod])
  have hlog : m.log2 < j + 23 := (Nat.log2_lt hpos).mpr hlt
  have hplace :
      roundPlace .single (exactScaled (d.getLsbD 63) m (-149 - (j : Nat))) = -149 - (j : Nat) + (j : Nat) := by
    rw [roundPlace, exponent_exactScaled _ _ hpos]
    simp only [formatFraction, formatEmin]
    omega
  have hquotient : m / 2 ^ j < 2 ^ 23 := Nat.div_lt_of_lt_mul (pow_add 2 j 23 ▸ hlt)
  obtain ⟨up, hup⟩ : ∃ up, choosesLarger mode (d.getLsbD 63) (m / 2 ^ j % 2 == 1) (m % 2 ^ j) (2 ^ j) = up := ⟨_, rfl⟩
  have hbit := Bool.toNat_le up
  have hround := roundExact_exactScaled (d.getLsbD 63) (-149 - (j : Nat)) mode hplace hup
  rw [Int.sub_add_cancel, decide_eq_true hrest, ← hvalue] at hround
  exact ⟨_, up, hround, by omega⟩

/-- `frsp` of it: the signed zero of non-IEEE mode, unless the operand is denormalized; else the envelope, or its IEEE
result. -/
theorem frspOutcome_of_small (p : Platform) (f : Fpscr) :
    frspOutcome p f d =
      if f.ni && !f.ue && decide (expField d ≠ 0) then .flush (zeroDouble (d.getLsbD 63))
      else if p.fpEnvelope ≠ .ieee then .assist
      else if f.ue then .unstated .single (some (d.getLsbD 63))
      else deliverRounded p f .single (doubleValue d) := by
  obtain ⟨hnum, htiny⟩ := isTiny_of_small hrepr hsmall
  by_cases h0 : expField d = 0
  · have hfrac : fracField d ≠ 0 := by simpa [reprSingle, doubleFields_exp, doubleFields_frac, h0] using hrepr
    have hclass : doubleClass d = .denormalized (d.getLsbD 63) := by
      simp [doubleClass, doubleFields_eq, fpClass, formatExpMax, h0, hfrac]
    have hflush : (f.ni && !f.ue && decide (expField d ≠ 0)) = false := by simp [h0]
    simp only [frspOutcome, hclass, deliverExact, if_neg hnum, htiny, hflush, if_true, Bool.not_true, Bool.and_false,
      Bool.false_eq_true, if_false, doubleValue_neg]
    split_ifs <;> rfl
  · rw [frspOutcome_of_number h0 (by omega) hrepr]
    simp only [deliverExact, if_neg hnum, htiny, if_true, decide_eq_true h0]
    rfl

/-- The IEEE result, where inexact results do not invoke the envelope. -/
theorem deliverRounded_of_small {p : Platform} (f : Fpscr) (hp : p.fpEnvelope = .ieee) :
    deliverRounded p f .single (doubleValue d) =
      .deliver (doubleOfScaled (d.getLsbD 63) (roundExact .single (roundMode f.rn) (doubleValue d)).q (-149))
        (roundExact .single (roundMode f.rn) (doubleValue d)).incremented true true := by
  obtain ⟨q, up, hround, -⟩ := roundExact_of_small hrepr hsmall (roundMode f.rn)
  have hrange : roundOverflows .single ⟨d.getLsbD 63, q, -149, up, true⟩ = false := rfl
  rw [deliverRounded_of_in_range p f hround hrange, hround, if_neg (by simp [hp])]

end

/-! ### Patterns of small results (R218, R219) -/

theorem zeroDouble_eq (neg : Bool) : zeroDouble neg = if neg then 0x8000000000000000 else 0 := by
  cases neg <;> rfl

/-- A number of at most `n + 1` bits, shifted until it has that many. -/
theorem shifted_bounds {q n : Nat} (h0 : q ≠ 0) (hn : q.log2 ≤ n) :
    2 ^ n ≤ q * 2 ^ (n - q.log2) ∧ q * 2 ^ (n - q.log2) < 2 ^ (n + 1) := by
  obtain ⟨hle, hlt⟩ := (Nat.log2_eq_iff h0).mp rfl
  have hsplit : 2 ^ q.log2 * 2 ^ (n - q.log2) = 2 ^ n := by rw [← pow_add, Nat.add_sub_cancel' hn]
  refine ⟨hsplit ▸ Nat.mul_le_mul_right _ hle, ?_⟩
  calc q * 2 ^ (n - q.log2) < 2 ^ (q.log2 + 1) * 2 ^ (n - q.log2) := Nat.mul_lt_mul_of_pos_right hlt (by positivity)
    _ = 2 ^ (n + 1) := by rw [pow_succ, Nat.mul_right_comm, hsplit, pow_succ]

/-- A multiple of the smallest single that a single represents: its double has that value. -/
theorem valueIs_doubleOfScaled (neg : Bool) {q : Nat} (hq : q ≤ 2 ^ 23) :
    ValueIs (doubleOfScaled neg q (-149)) neg q (-149) := by
  refine ⟨getLsbD_doubleOfScaled .., ?_⟩
  by_cases h0 : q = 0
  · subst h0
    have hvalue : doubleValue (doubleOfScaled neg 0 (-149)) = exactScaled neg 0 (-1074) := by cases neg <;> rfl
    rw [hvalue]
    exact (sameValue_exactScaled_zero neg _ _).right
  have hlog : q.log2 ≤ 23 := Nat.le_of_lt_succ ((Nat.log2_lt h0).mpr (by omega))
  have hshift := shifted_bounds h0 (show q.log2 ≤ 52 by omega)
  generalize hl : q.log2 = l at *
  have hpattern : doubleOfScaled neg q (-149) =
      packDouble neg (BitVec.ofNat 11 (l + 874)) (BitVec.ofNat 52 (q * 2 ^ (52 - l))) := by
    have hexp : ((l : Int) + -149 + 1023).toNat = l + 874 := by omega
    rw [doubleOfScaled, if_neg h0]
    dsimp only
    rw [hl, if_neg (by omega), if_pos (by omega), hexp]
  have hexp : expField (doubleOfScaled neg q (-149)) = l + 874 := by
    rw [hpattern, ← doubleFields_exp, doubleFields_packDouble]
    dsimp only
    rw [BitVec.toNat_ofNat]
    omega
  have hfrac : 2 ^ 52 + fracField (doubleOfScaled neg q (-149)) = q * 2 ^ (52 - l) := by
    rw [hpattern, ← doubleFields_frac, doubleFields_packDouble]
    dsimp only
    rw [BitVec.toNat_ofNat]
    omega
  have hplace : ((l + 874 : Nat) : Int) - 1075 = -149 - (52 - l : Nat) := by omega
  rw [doubleValue_of_normalized (by omega), hexp, hfrac, getLsbD_doubleOfScaled, hplace]
  exact (sameValue_exactScaled_shift neg q _ _).right

theorem getLsbD_singleToDouble (w : Word) : (singleToDouble w).getLsbD 63 = w.getLsbD 31 := by
  induction w using packSingle_cases with
  | maximal neg f => rw [singleToDouble_maximal, getLsbD_packDouble, getLsbD_packSingle]
  | zero neg => rw [singleToDouble_zero, getLsbD_packDouble, getLsbD_packSingle]
  | denormalized neg f hf => rw [singleToDouble_denormalized neg hf, getLsbD_packDouble, getLsbD_packSingle]
  | normalized neg e f h0 h255 =>
    rw [singleToDouble_normalized neg f h0 h255, getLsbD_packDouble, getLsbD_packSingle]

theorem getLsbD_unstatedResult (n : Nat) (neg : Bool) : (unstatedResult n .single (some neg)).getLsbD 63 = neg := by
  rw [unstatedResult, getLsbD_singleToDouble, BitVec.getLsbD_append]
  simp

/-- Settles O50: the four ends of `frspOutcome_of_small`. -/
theorem frspTinyAndDenormalized : Obligations.FrspTinyAndDenormalized := by
  intro frD frB rc s hrepr hsmall hpc
  have houtcome := frspOutcome_of_small hrepr hsmall s.platform s.fpscr
  refine ⟨fun h0 hni hue => ?flushed, fun hcause hp => ?assist, fun hcause hue hp => ?rounded, fun hue hp => ?unstated⟩
  case flushed =>
    rw [if_pos (by simp [h0, hni, hue])] at houtcome
    obtain ⟨t, hexec, hresult, hxx, hframe⟩ := frsp_of_flush (frD := frD) (rc := rc) hpc houtcome
    exact ⟨t, hexec, hresult.trans (zeroDouble_eq _), hxx, hframe⟩
  case assist =>
    rw [if_neg (by grind), if_pos hp] at houtcome
    exact frsp_of_assist houtcome
  case rounded =>
    rw [if_neg (by grind), if_neg (not_not.mpr hp), hue, if_neg Bool.false_ne_true,
      deliverRounded_of_small hrepr hsmall s.fpscr hp] at houtcome
    obtain ⟨q, up, hround, hq⟩ := roundExact_of_small hrepr hsmall (roundMode s.fpscr.rn)
    obtain ⟨t, hexec, hresult, hfr, hfi, hxx, hframe⟩ := frsp_of_deliver (frD := frD) (rc := rc) hpc houtcome
    rw [hround] at hresult ⊢
    exact ⟨t, hexec, hresult ▸ valueIs_doubleOfScaled _ hq, hfi, hxx.trans (Bool.or_true _), hround ▸ hfr, hframe⟩
  case unstated =>
    rw [if_neg (by simp [hue]), if_neg (not_not.mpr hp), if_pos hue] at houtcome
    obtain ⟨t, hexec, hresult, hxx, hframe⟩ := frsp_of_unstated (frD := frD) (rc := rc) hpc houtcome
    exact ⟨t, hexec, hresult ▸ reprSingle_unstatedResult _ _, hresult ▸ getLsbD_unstatedResult _ _, hxx, hframe⟩

end Sys2Proof.Machine
end

section
/-! PROOFS. The byte order across an exception entry and the return (spec/60_exceptions.md R284, R290): the mode of the
handler and the mode after it, from the MSR that the entry leaves and the MSR that it saves. -/

namespace Sys2Proof.Machine

/-- The handler runs in the byte order that ILE names (R284). -/
theorem takeException_littleEndian (s : State) (w : Word) (e : Exc) :
    (s.takeException w e).littleEndian = manualBit s.msr 15 := by
  rw [littleEndian_eq, takeException_msr, manualBit_msrAtEntry _ _ 31 (by decide), if_pos rfl]

/-- The return goes back to the byte order that the exception interrupted (R284, R290). -/
theorem takeException_return_littleEndian (s : State) (w : Word) (e : Exc) (h : sparseWf 0 s.otherSpr = true) :
    (s.takeException w e).returnFromException.littleEndian = s.littleEndian := by
  rw [littleEndian_eq, takeException_return_msr s w e h, littleEndian_eq]

/-- Settles O27: both addresses of the handler depend on the state through its byte order alone. -/
theorem exceptionEntryByteOrder : Obligations.ExceptionEntryByteOrder := by
  intro s w e
  have horder := takeException_littleEndian s w e
  refine ⟨horder, fun a => ?fetch, fun ea n => ?data, fun hwf => ⟨?saved, takeException_return_littleEndian s w e hwf⟩⟩
  case fetch => rw [State.fetchAddress, horder]
  case data => rw [State.physicalAddress, horder]
  case saved => rw [readSpr_takeException_saveMsr s w e hwf]

end Sys2Proof.Machine
end

section
/-! PROOFS. The byte order after a hard reset (spec/70_reset_and_hazards.md R300): no bit of the MSR is set, so the
machine is in big-endian mode, where both kinds of access use their addresses as they are. -/

namespace Sys2Proof.Machine

/-- The fetch of big-endian mode, beside `physicalAddress_bigEndian` for data. -/
theorem fetchAddress_bigEndian (s : State) (a : Word) (h : manualBit s.msr 31 = false) : s.fetchAddress a = a :=
  if_neg (by simp [littleEndian_eq, h])

/-- No bit of the MSR is set after reset, in the numbering of the manual. -/
theorem manualBit_reset_msr (i : Nat) : manualBit State.reset.msr i = false := BitVec.getLsbD_zero

/-- Settles O6: MSR bit 31 being 0 is what leaves both addresses unmodified. -/
theorem resetByteOrder : Obligations.ResetByteOrder := by
  have hbe : manualBit State.reset.msr 31 = false := manualBit_reset_msr 31
  refine ⟨hbe, manualBit_reset_msr 15, fun a => ?fetch, fun ea n => ?data⟩
  case fetch => exact fetchAddress_bigEndian State.reset a hbe
  case data => exact physicalAddress_bigEndian State.reset ea n hbe

end Sys2Proof.Machine
end

section
/-! PROOFS. The state after a hard reset, one lemma per operation that reads it (spec/10_state.md; the model's choice,
notes/assumptions/1, 2 and 5): what nothing has written yet reads as zero. -/

namespace Sys2Proof.Machine

@[simp] theorem readGpr_reset (r : Reg) : State.reset.readGpr r = 0 := Vector.getElem_replicate r.isLt

@[simp] theorem readFpr_reset (r : Reg) : State.reset.readFpr r = 0 := Vector.getElem_replicate r.isLt

/-- The named registers are zero fields, and no unnamed one is listed: every branch of the read answers 0. -/
@[simp] theorem readSpr_reset (n : BitVec 10) : State.reset.readSpr n = 0 := by
  have hunnamed : sparseGet 0 State.reset.otherSpr n.toNat = 0 := rfl
  rw [State.readSpr, hunnamed]
  simp only [State.reset, ite_self]

/-- No byte of memory is listed after reset, so each reads as an unwritten one. -/
@[simp] theorem physRead_reset (a : Nat) : State.reset.physRead a = 0 := rfl

/-- The word of the FPSCR with every field clear (R31). -/
@[simp] theorem toWord_zero : Fpscr.zero.toWord = 0 := by decide

/-- Settles O7: the reads of the register files and of memory by their lemmas, the other registers as fields. -/
theorem resetValues : Obligations.ResetValues := by
  refine ⟨readGpr_reset, readFpr_reset, readSpr_reset, physRead_reset, ?cr, ?msr, ?fpscr, ?pc⟩
  case cr => rfl
  case msr => rfl
  case fpscr => exact toWord_zero
  case pc => rfl

end Sys2Proof.Machine
end
